-- ==== Sys2Proof/Word.lean ====
section
/-! DEFINITION. The units the block computes with: bits, bytes, bit sequences, byte buffers, matrices
(spec 00_scope.md section 7.1, rule R147). Plain types and their plainest arithmetic only. -/
namespace Sys2Proof

/-- A bit is 0 or 1 (spec 00_scope.md section 7.1). -/
abbrev Bit := Bool

/-- A byte is an integer 0 to 255 (spec 00_scope.md section 7.1). -/
abbrev Byte := BitVec 8

/-- A bit sequence: a finite ordered list of bits with an exact length, index 0 first (rule R35). -/
abbrev Bits := List Bit

/-- The content of a byte buffer: a finite ordered list of bytes, index 0 first (rule R35). -/
abbrev Bytes := List Byte

/-- A binary matrix as the list of its rows, row 0 on top, column 0 leftmost (spec 00_scope.md section 7.1). -/
abbrev Matrix := List Bits

/-- `0^p`, the sequence of p zero bits. -/
abbrev zeros (p : Nat) : Bits := List.replicate p false

end Sys2Proof
end

