-- ==== Sys2Proof/Config.lean ====
section
/-! DEFINITION. What is fixed for the machine and is no state: the constants of rule R11 and the type of the parameter
`Catalog` of rule R12. The value the spec gives the parameter by default (rule R69) is in Machine/Catalog.lean. The
parameter `MAX_BITS` of rule R13 is taken as unbounded (buffers are lists). The spec leaves no value open, so there is
no free value here. -/
namespace Sys2Proof.Config

/-- `REP_FACTORS` = {3, 5, 7, 9} (rule R11). -/
def repFactors : List Nat := [3, 5, 7, 9]

/-- `LB_PARAMS` = {3, 4, 5} (rule R11). -/
def lbParams : List Nat := [3, 4, 5]

/-- `HDR_RAW_BITS` (rule R11). -/
def hdrRawBits : Nat := 48

/-- `HDR_FACTOR_N`, the header's own repetition factor (rules R11, R82). -/
def hdrFactorN : Nat := 3

/-- `HDR_BITS` (rule R11). -/
def hdrBits : Nat := 144

/-- `METHOD_W`, `FACTOR_W`, `SRCLEN_W` (rule R11). -/
def methodW : Nat := 8
def factorW : Nat := 8
def srcLenW : Nat := 32

/-- `TAG_REPETITION`, `TAG_LINEARBLOCK` (rules R11, R104). -/
def tagRepetition : Nat := 0
def tagLinearBlock : Nat := 1

end Sys2Proof.Config

namespace Sys2Proof

/-- The parameter `Catalog` (rule R12): for each j a k(j) by j binary matrix `P_j`. -/
structure Catalog where
  p3 : Matrix
  p4 : Matrix
  p5 : Matrix
  deriving DecidableEq, Repr

/-- `P_j` (rule R12); for a j that is no code parameter there is no matrix. -/
def Catalog.p (c : Catalog) (j : Nat) : Matrix :=
  if j = 3 then c.p3 else if j = 4 then c.p4 else if j = 5 then c.p5 else []

end Sys2Proof
end

