-- ==== Sys2Proof/Machine/Bits.lean ====
section
/-! DEFINITION. The notation of spec 00_scope.md section 7.1 as functions: `be_W`, `val`, slices, `⊕`, popcount, groups of
consecutive bits, and the arithmetic over GF(2) of rule R147 (a). -/
namespace Sys2Proof

/-- `be_W(v)`: the W-bit sequence that spells v, most significant bit first (spec 00_scope.md section 7.1). -/
def be : Nat → Nat → Bits
  | 0, _ => []
  | W + 1, v => v.testBit W :: be W v

/-- `val(s)`, the inverse of `be`: `Σ_t s[t] · 2^(len(s)−1−t)` (spec 00_scope.md section 7.1). -/
def val : Bits → Nat
  | [] => 0
  | b :: s => b.toNat * 2 ^ s.length + val s

/-- `s[a..b)` (spec 00_scope.md section 7.1): empty when a ≥ b. -/
def slice (s : Bits) (a b : Nat) : Bits := (s.drop a).take (b - a)

/-- `s ⊕ t`, bit by bit (spec 00_scope.md section 7.1). -/
def xorBits (s t : Bits) : Bits := List.zipWith Bool.xor s t

/-- The number of 1 bits of s (spec 00_scope.md section 7.1). -/
def popcount : Bits → Nat
  | [] => 0
  | b :: s => b.toNat + popcount s

/-- The product of a row and a column over GF(2), `XOR_i (a[i] & b[i])` (rule R147 (a)). -/
def dot : Bits → Bits → Bit
  | a :: as, b :: bs => Bool.xor (a && b) (dot as bs)
  | _, _ => false

/-- `s` with the bit at index i inverted; unchanged when there is no such bit. -/
def flipAt (s : Bits) (i : Nat) : Bits := s.modify i not

/-- The first g consecutive n-bit groups of s, group 0 first: group i is `s[n·i .. n·i + n)`. -/
def groups (n : Nat) : Nat → Bits → List Bits
  | 0, _ => []
  | g + 1, s => s.take n :: groups n g (s.drop n)

/-- The n bytes of the unsigned integer w, most significant byte first (rule R58). -/
def wordBytes : Nat → Nat → Bytes
  | 0, _ => []
  | n + 1, w => BitVec.ofNat 8 (w >>> (8 * n)) :: wordBytes n w

end Sys2Proof
end

