-- ==== Sys2Proof/Machine/Catalog.lean ====
section
/-! DEFINITION. CodeCatalog (spec 40_codecatalog.md): the code parameters, the matrices G and H, the syndrome table, the
validity of a catalog, the default catalog, and the ROM that holds the three tables for j = 3, 4, 5 (10_state.md rules
R26 to R28), built in the order of rule R132. -/
namespace Sys2Proof

/-- n(j) = 2^j − 1 (rules R11, R65). -/
def codeN (j : Nat) : Nat := 2 ^ j - 1

/-- k(j) = n(j) − j (rules R11, R65). -/
def codeK (j : Nat) : Nat := codeN j - j

/-- Row i of the identity of size m. -/
def unitRow (m i : Nat) : Bits := (List.range m).map fun c => c == i

/-- Entry `M[r][c]` (spec 00_scope.md section 7.1); 0 outside the matrix. -/
def entry (M : Matrix) (r c : Nat) : Bit := (M.getD r []).getD c false

/-- Column c of M as a bit sequence, row 0 first; for H this is `col_j(c)` of rule R67. -/
def column (M : Matrix) (c : Nat) : Bits := M.map fun row => row.getD c false

/-- `G_j = [I_k | P_j]` (rule R66), k rows. -/
def generator (k : Nat) (P : Matrix) : Matrix :=
  (List.range k).map fun i => unitRow k i ++ P.getD i []

/-- `H_j = [P_jᵀ | I_j]` (rule R67), j rows, from G: its non-identity columns transposed, then an identity block. -/
def parityCheck (j k : Nat) (G : Matrix) : Matrix :=
  (List.range j).map fun t => column G (k + t) ++ unitRow j t

/-- `col_j(0), …, col_j(n−1)` (rule R67). -/
def columns (n : Nat) (H : Matrix) : List Bits := (List.range n).map (column H)

/-- `SYN_j` as a table of 2^j slots (rule R70): slot `val(col_j(c))` holds c, slot 0 is never defined. -/
def syndromeTable (j n : Nat) (H : Matrix) : List (Option Nat) :=
  (List.range (2 ^ j)).map fun s =>
    if s = 0 then none else ((columns n H).map val).idxOf? s

/-- The tables of one code parameter (rules R26 to R28). -/
structure CodeTables where
  g : Matrix
  h : Matrix
  syn : List (Option Nat)
  deriving DecidableEq, Repr

/-- The catalog ROM: `G_j`, `H_j`, `SYN_j` for j = 3, 4, 5 (10_state.md section 5). -/
structure Rom where
  code3 : CodeTables
  code4 : CodeTables
  code5 : CodeTables
  deriving DecidableEq, Repr

/-- The tables of j (the caller has checked j ∈ {3, 4, 5}). -/
def Rom.code (rom : Rom) (j : Nat) : CodeTables :=
  if j = 3 then rom.code3 else if j = 4 then rom.code4 else rom.code5

/-- Catalog initialisation for one j (rule R132): (1) G from P, (2) H from G, (3) SYN from the columns of H. -/
def CodeTables.build (j : Nat) (P : Matrix) : CodeTables where
  g := generator (codeK j) P
  h := parityCheck j (codeK j) (generator (codeK j) P)
  syn := syndromeTable j (codeN j) (parityCheck j (codeK j) (generator (codeK j) P))

/-- Catalog initialisation (rule R132). -/
def Rom.ofCatalog (c : Catalog) : Rom where
  code3 := CodeTables.build 3 c.p3
  code4 := CodeTables.build 4 c.p4
  code5 := CodeTables.build 5 c.p5

/-- `P_j` is k(j) by j (rule R12), and the n(j) columns of `H_j` are nonzero and pairwise distinct (rule R68). -/
def codeValid (j : Nat) (P : Matrix) : Bool :=
  decide (P.length = codeK j) && P.all (fun row => decide (row.length = j)) &&
    (columns (codeN j) (CodeTables.build j P).h).all (fun col => col.any id) &&
    decide (columns (codeN j) (CodeTables.build j P).h).Nodup

/-- Validity of a catalog (rule R68). -/
def Catalog.valid (c : Catalog) : Bool := codeValid 3 c.p3 && codeValid 4 c.p4 && codeValid 5 c.p5

/-- The rows of the default `P_j` (rule R69): `be_j(w)` for the w of 1 … 2^j − 1 with two or more 1 bits, in
increasing order. -/
def defaultP (j : Nat) : Matrix :=
  ((List.range (2 ^ j)).map (be j)).filter fun row => decide (2 ≤ popcount row)

/-- The default catalog (rule R69). -/
def defaultCatalog : Catalog where
  p3 := defaultP 3
  p4 := defaultP 4
  p5 := defaultP 5

end Sys2Proof
end

