-- ==== Sys2Proof/Machine/State.lean ====
section
/-! DEFINITION. The state of the block (spec 10_state.md), the reasons a step can stop, and reset (rules R32, R131,
R132). Everything in State is plain data. -/
namespace Sys2Proof.Machine

/-- The three values of `PHASE` (rules R20, R107). -/
inductive Phase where
  | header
  | payload
  | done
  deriving DecidableEq, Repr

/-- The 2-bit encoding of `PHASE` (rule R20); the value 3 never occurs. -/
def Phase.code : Phase → BitVec 2
  | .header => 0
  | .payload => 1
  | .done => 2

/-- What `ERR` can say (rule R121): no error, or one of the five fatal kinds. -/
inductive ErrorKind where
  | noError
  | unsupportedFactor
  | unsupportedParameter
  | headerCorrupt
  | lengthOverflow
  | illegalCommand
  deriving DecidableEq, Repr

/-- The 8-bit code of `ERR` (rule R121); 6 to 255 never occur. -/
def ErrorKind.code : ErrorKind → Byte
  | .noError => 0
  | .unsupportedFactor => 1
  | .unsupportedParameter => 2
  | .headerCorrupt => 3
  | .lengthOverflow => 4
  | .illegalCommand => 5

/-- The content of `IN` or `OUT` (rules R29, R35): a byte buffer or a bit sequence of exact length, or, after reset, after
the clearing at the start of an operation and after an abort, the empty buffer that has been given no content and so has
no kind (rules R18, R32, R122). -/
inductive Buffer where
  | empty
  | bytes (content : Bytes)
  | bits (content : Bits)
  deriving DecidableEq, Repr

/-- `IN.len`, `OUT.len`: in bytes for a byte buffer, in bits for a bit sequence (rule R35). -/
def Buffer.len : Buffer → Nat
  | .empty => 0
  | .bytes content => content.length
  | .bits content => content.length

/-- The state (rule R14): four operand registers, eight result registers, two buffers, the catalog ROM; and whether the
block is still held in reset (rule R132). -/
structure State where
  /-- `CMD` (rule R15). -/
  cmd : BitVec 8
  /-- `ARG_METHOD` (rules R15, R16). -/
  argMethod : BitVec 8
  /-- `ARG_FACTOR` (rules R15, R16). -/
  argFactor : BitVec 8
  /-- `ARG_LEN` (rules R15, R16). -/
  argLen : BitVec 32
  /-- `PHASE` (rule R20). -/
  phase : Phase
  /-- `HDR_METHOD` (rule R21). -/
  hdrMethod : BitVec 8
  /-- `HDR_FACTOR` (rule R21). -/
  hdrFactor : BitVec 8
  /-- `HDR_SRCLEN` (rule R21). -/
  hdrSrcLen : BitVec 32
  /-- `ERR` (rule R22). -/
  err : ErrorKind
  /-- `UNCORR_CNT`, which does not wrap (rule R23). -/
  uncorrCnt : Nat
  /-- `TAIL_DROPPED`, which does not wrap (rule R24). -/
  tailDropped : Nat
  /-- `PAD_AMOUNT`, which does not wrap (rule R25). -/
  padAmount : Nat
  /-- `IN` (rule R29). -/
  inBuf : Buffer
  /-- `OUT` (rule R29). -/
  outBuf : Buffer
  /-- `G_j`, `H_j`, `SYN_j` (rules R26 to R28). -/
  rom : Rom
  /-- The block has not left reset (rule R132). -/
  heldInReset : Bool
  deriving DecidableEq, Repr

/-- Why the machine stops with a fault: never. Every error of the spec is an abort (rule R122) after which the block
accepts the next request (rule R126), so there is no constructor. -/
inductive Fault where
  deriving DecidableEq, Repr

/-- Why a request has no meaning. -/
inductive Refusal where
  /-- Raised by `exec` alone, for an instruction without a meaning yet; safe. No arm of this model uses it. -/
  | notModelled (mnemonic : String)
  /-- Raised by an operation that reads `IN` when `IN` has content of the other kind: such a request "is not a request"
  (rule R36). Safe: the spec gives it no effect. -/
  | wrongBufferKind
  /-- Raised by `step` while an invalid catalog holds the block in reset: "no operation is accepted" (rule R132).
  Safe: the spec gives it no effect. -/
  | heldInReset
  deriving DecidableEq, Repr

/-- The state after reset with a given catalog (rules R32, R131, R132). -/
def State.resetWith (c : Catalog) : State where
  cmd := 0
  argMethod := 0
  argFactor := 0
  argLen := 0
  phase := .header
  hdrMethod := 0
  hdrFactor := 0
  hdrSrcLen := 0
  err := .noError
  uncorrCnt := 0
  tailDropped := 0
  padAmount := 0
  inBuf := .empty
  outBuf := .empty
  rom := Rom.ofCatalog c
  heldInReset := !c.valid

/-- The state after reset with the default catalog (rules R32, R69). -/
def State.reset : State := State.resetWith defaultCatalog

end Sys2Proof.Machine
end

