-- ==== Sys2Proof/Machine/Flags.lean ====
section
/-! DEFINITION. The block has no condition flags; its status is the result registers (spec 00_scope.md section 1). This
file holds every write of one of them as a named update (rules R20 to R25), and the clearing that starts every operation
(rule R18). -/
namespace Sys2Proof.Machine

/-- Freshness (rule R18): every result register at its reset value (rule R32) and `OUT` the empty buffer. -/
def State.fresh (s : State) : State :=
  { s with
    phase := .header
    hdrMethod := 0
    hdrFactor := 0
    hdrSrcLen := 0
    err := .noError
    uncorrCnt := 0
    tailDropped := 0
    padAmount := 0
    outBuf := .empty }

/-- `PHASE <- p` (rule R107). -/
def State.setPhase (s : State) (p : Phase) : State := { s with phase := p }

/-- The three header registers take the recovered fields, each at its register's width (rule R21). -/
def State.setHeader (s : State) (method factor sourceLength : Nat) : State :=
  { s with
    hdrMethod := BitVec.ofNat 8 method
    hdrFactor := BitVec.ofNat 8 factor
    hdrSrcLen := BitVec.ofNat 32 sourceLength }

/-- `UNCORR_CNT <- n` (rule R23). -/
def State.setUncorr (s : State) (n : Nat) : State := { s with uncorrCnt := n }

/-- `TAIL_DROPPED <- n` (rule R24). -/
def State.setTail (s : State) (n : Nat) : State := { s with tailDropped := n }

/-- `PAD_AMOUNT <- n` (rule R25). -/
def State.setPad (s : State) (n : Nat) : State := { s with padAmount := n }

/-- `OUT <- b` (rule R29). -/
def State.setOut (s : State) (b : Buffer) : State := { s with outBuf := b }

end Sys2Proof.Machine
end

