-- ==== Sys2Proof/Machine/Framer.lean ====
section
/-! DEFINITION. BitFramer as pure functions (spec 41_bitframer.md): `BytesToBits`, `BitsToBytes`, `PadToBlock`,
`Truncate`, and the two padding amounts of rules R41 and R42. -/
namespace Sys2Proof

/-- The eight bits of a byte, most significant first (rule R37). -/
def byteBits (v : Byte) : Bits := be 8 v.toNat

/-- The byte eight bits spell, the first the most significant (rule R75). -/
def bitsByte (g : Bits) : Byte := BitVec.ofNat 8 (val g)

/-- `BytesToBits(buf)` (rule R74). -/
def bytesToBits (buf : Bytes) : Bits := buf.flatMap byteBits

/-- The zero bits that bring length L to a multiple of S: `(S − L mod S) mod S` (rules R41, R42). -/
def padLen (S L : Nat) : Nat := (S - L % S) % S

/-- `PadToBlock(bits, S)`, the padded sequence and the pad amount (rule R76). -/
def padToBlock (bits : Bits) (S : Nat) : Bits × Nat :=
  (bits ++ zeros (padLen S bits.length), padLen S bits.length)

/-- `BitsToBytes(bits)` (rule R75): alignment padding, then bytes of eight bits. -/
def bitsToBytes (bits : Bits) : Bytes :=
  (groups 8 ((bits.length + padLen 8 bits.length) / 8) (padToBlock bits 8).1).map bitsByte

/-- `Truncate(bits, E)` (rule R77): the first `min(E, len)` bits, never extended. -/
def truncate (bits : Bits) (E : Nat) : Bits := bits.take (min E bits.length)

end Sys2Proof
end

