-- ==== Sys2Proof/Machine/Voter.lean ====
section
/-! DEFINITION. RepetitionCoder as pure functions (spec 43_repetition.md): the majority voter, `RepEncode`,
`RepDecode`. -/
namespace Sys2Proof

/-- `Majority(g)` (rule R86): 1 if ones strictly outnumber zeros, else 0, that is `2 · popcount(g) > n`. -/
def majority (g : Bits) : Bit := decide (g.length < 2 * popcount g)

/-- `RepEncode(bits, n)` (rule R87): every bit n times, the copies of one bit adjacent. -/
def repEncode (bits : Bits) (n : Nat) : Bits := bits.flatMap (List.replicate n)

/-- `RepDecode(bits, n)`, the decoded bits and the dropped tail (rules R88, R89). -/
def repDecode (bits : Bits) (n : Nat) : Bits × Nat :=
  ((groups n (bits.length / n) bits).map majority, bits.length % n)

end Sys2Proof
end

