-- ==== Sys2Proof/Machine/Header.lean ====
section
/-! DEFINITION. HeaderCodec as pure functions (spec 42_headercodec.md, formats of 30_encoding.md rules R51 to R54). -/
namespace Sys2Proof

/-- The raw header word HDR48 as a bit sequence: `be_8(method) ‖ be_8(factor) ‖ be_32(sourceLength)` (rule R52). -/
def rawHeader (method factor sourceLength : Nat) : Bits :=
  be Config.methodW method ++ be Config.factorW factor ++ be Config.srcLenW sourceLength

/-- `EncodeHeader(m, f, L)` (rules R53, R80): the raw word repetition-encoded at the fixed factor 3. -/
def encodeHeader (method factor sourceLength : Nat) : Bits :=
  repEncode (rawHeader method factor sourceLength) Config.hdrFactorN

/-- The 48 raw bits recovered from the first 144 bits of F by majority per 3-bit group (rules R54, R81). -/
def recoverRaw (F : Bits) : Bits := (groups Config.hdrFactorN Config.hdrRawBits F).map majority

/-- The three fields of a header, each the unsigned integer its bits spell (rules R51, R52). -/
structure HeaderFields where
  method : Nat
  factor : Nat
  sourceLength : Nat
  deriving DecidableEq, Repr

/-- The fields of 48 raw bits (rule R52). -/
def parseRaw (raw : Bits) : HeaderFields where
  method := val (slice raw 0 8)
  factor := val (slice raw 8 16)
  sourceLength := val (slice raw 16 48)

/-- `DecodeHeader(F)` (rule R81): none, the cause of `HeaderCorrupt`, when F has fewer than 144 bits. -/
def decodeHeader (F : Bits) : Option HeaderFields :=
  if F.length < Config.hdrBits then none else some (parseRaw (recoverRaw F))

end Sys2Proof
end

