-- ==== Sys2Proof/Syntax.lean ====
section
/-! DEFINITION. The instructions: one constructor per row of spec/opcode_table.json. Fifteen operations of the command
word (rule R59), each with the operands it reads and no other (rule R61: a field an operation does not read has no
effect), and seven header forms (rule R56), the word the decoder fetches from the front of a frame and dispatches on,
each with its `sourceLength`. Operands are the unsigned integers the fields spell; WellFormed.lean gives their ranges. -/
namespace Sys2Proof

/-- One constructor per row of the opcode table (rules R56, R59). -/
inductive Instr where
  /-- `GETG j` (rule R71). -/
  | getg (j : Nat)
  /-- `GETH j` (rule R72). -/
  | geth (j : Nat)
  /-- `GETSYN j` (rule R73). -/
  | getsyn (j : Nat)
  /-- `B2BITS` (rule R74). -/
  | b2bits
  /-- `BITS2B` (rule R75). -/
  | bits2b
  /-- `PADBLK blockSize` (rule R76). -/
  | padblk (blockSize : Nat)
  /-- `TRUNC exactLength` (rule R77). -/
  | trunc (exactLength : Nat)
  /-- `HDRENC method, factor, sourceLength` (rule R80). -/
  | hdrenc (method factor sourceLength : Nat)
  /-- `HDRDEC` (rule R81). -/
  | hdrdec
  /-- `REPENC n` (rule R87). -/
  | repenc (n : Nat)
  /-- `REPDEC n` (rule R88). -/
  | repdec (n : Nat)
  /-- `LBENC j` (rule R96). -/
  | lbenc (j : Nat)
  /-- `LBDEC j` (rule R97). -/
  | lbdec (j : Nat)
  /-- `ENCODE method, factor` (rule R106). -/
  | encode (method factor : Nat)
  /-- `DECODE` (rule R108). -/
  | decode
  /-- `HDR.REP3` (rule R56): method 0, factor 3. -/
  | hdrRep3 (sourceLength : Nat)
  /-- `HDR.REP5` (rule R56): method 0, factor 5. -/
  | hdrRep5 (sourceLength : Nat)
  /-- `HDR.REP7` (rule R56): method 0, factor 7. -/
  | hdrRep7 (sourceLength : Nat)
  /-- `HDR.REP9` (rule R56): method 0, factor 9. -/
  | hdrRep9 (sourceLength : Nat)
  /-- `HDR.LB3` (rule R56): method 1, factor 3. -/
  | hdrLb3 (sourceLength : Nat)
  /-- `HDR.LB4` (rule R56): method 1, factor 4. -/
  | hdrLb4 (sourceLength : Nat)
  /-- `HDR.LB5` (rule R56): method 1, factor 5. -/
  | hdrLb5 (sourceLength : Nat)
  deriving DecidableEq, Repr

end Sys2Proof
end

