-- ==== Sys2Proof/WellFormed.lean ====
section
/-! DEFINITION. Which terms of `Instr` are instructions of the hardware: those whose operands fit the fields of the two
formats (rules R16, R51, R58, R147 (d)). Whether a method, factor or block size is LEGAL is not asked here: an
operation with an illegal operand is an instruction, and it ends in an abort (rules R84, R114, R115). -/
namespace Sys2Proof

/-- The operand fits an 8-bit `method` or `factor` field (rules R51, R58). -/
def fitsByte (v : Nat) : Bool := decide (v < 2 ^ Config.factorW)

/-- The operand fits the 32-bit `len` or `sourceLength` field (rules R51, R58). -/
def fitsLen (v : Nat) : Bool := decide (v < 2 ^ Config.srcLenW)

/-- Every operand fits its field. -/
def Instr.wellFormed : Instr → Bool
  | .getg j => fitsByte j
  | .geth j => fitsByte j
  | .getsyn j => fitsByte j
  | .b2bits => true
  | .bits2b => true
  | .padblk blockSize => fitsLen blockSize
  | .trunc exactLength => fitsLen exactLength
  | .hdrenc method factor sourceLength => fitsByte method && fitsByte factor && fitsLen sourceLength
  | .hdrdec => true
  | .repenc n => fitsByte n
  | .repdec n => fitsByte n
  | .lbenc j => fitsByte j
  | .lbdec j => fitsByte j
  | .encode method factor => fitsByte method && fitsByte factor
  | .decode => true
  | .hdrRep3 sourceLength => fitsLen sourceLength
  | .hdrRep5 sourceLength => fitsLen sourceLength
  | .hdrRep7 sourceLength => fitsLen sourceLength
  | .hdrRep9 sourceLength => fitsLen sourceLength
  | .hdrLb3 sourceLength => fitsLen sourceLength
  | .hdrLb4 sourceLength => fitsLen sourceLength
  | .hdrLb5 sourceLength => fitsLen sourceLength

end Sys2Proof
end

