-- ==== Sys2Proof/Decode.lean ====
section
/-! DEFINITION. The decoders and, after them, the encoder, from the encoding tables of spec 30_encoding.md: the command
word CMD56 (rules R58 to R61) and the header word, HDR48 as raw word and HDR144 as it stands at the front of a frame
(rules R50 to R57). Both decoders are total on any bytes and reject by name. -/
namespace Sys2Proof

/-- Why some bytes are no instruction. -/
inductive Reject where
  /-- A command word is 7 bytes (rules R58, R64); there were `bytes` of them. -/
  | commandLength (bytes : Nat)
  /-- `op` is one of the 241 reserved codes (rule R60). -/
  | reservedOp (op : Nat)
  /-- A header is 144 bits (rules R53, R81); there were only `bits`. -/
  | headerShort (bits : Nat)
  /-- The recovered method is 2 or more (rule R57). -/
  | illegalMethod (method : Nat)
  /-- The recovered factor does not suit the recovered method (rule R57). -/
  | illegalFactor (method factor : Nat)
  deriving DecidableEq, Repr

/-- The command codes (rule R59); `method`, `factor` and `len` are kept only where the operation reads them (rule R61). -/
def decodeFields (op method factor len : Nat) : Except Reject Instr :=
  match op with
  | 0x01 => .ok (.getg factor)
  | 0x02 => .ok (.geth factor)
  | 0x03 => .ok (.getsyn factor)
  | 0x10 => .ok .b2bits
  | 0x11 => .ok .bits2b
  | 0x12 => .ok (.padblk len)
  | 0x13 => .ok (.trunc len)
  | 0x20 => .ok (.hdrenc method factor len)
  | 0x21 => .ok .hdrdec
  | 0x30 => .ok (.repenc factor)
  | 0x31 => .ok (.repdec factor)
  | 0x40 => .ok (.lbenc factor)
  | 0x41 => .ok (.lbdec factor)
  | 0x50 => .ok (.encode method factor)
  | 0x51 => .ok .decode
  | _ => .error (.reservedOp op)

/-- The command word's seven bytes, `op method factor len[31:24] len[23:16] len[15:8] len[7:0]` (rule R58). -/
def decodeCommand : Bytes → Except Reject Instr
  | [op, method, factor, l3, l2, l1, l0] =>
    decodeFields op.toNat method.toNat factor.toNat
      (((l3.toNat * 256 + l2.toNat) * 256 + l1.toNat) * 256 + l0.toNat)
  | bytes => .error (.commandLength bytes.length)

/-- The seven legal header forms (rule R56); every other header is illegal, the method examined first (rules R57,
R109). -/
def decodeHeaderFields (h : HeaderFields) : Except Reject Instr :=
  match h.method, h.factor with
  | 0, 3 => .ok (.hdrRep3 h.sourceLength)
  | 0, 5 => .ok (.hdrRep5 h.sourceLength)
  | 0, 7 => .ok (.hdrRep7 h.sourceLength)
  | 0, 9 => .ok (.hdrRep9 h.sourceLength)
  | 0, f => .error (.illegalFactor 0 f)
  | 1, 3 => .ok (.hdrLb3 h.sourceLength)
  | 1, 4 => .ok (.hdrLb4 h.sourceLength)
  | 1, 5 => .ok (.hdrLb5 h.sourceLength)
  | 1, f => .error (.illegalFactor 1 f)
  | m, _ => .error (.illegalMethod m)

/-- The header word fetched from the front of a frame: 144 bits, majority of each three, then the fields (rules R50,
R54, R56). -/
def decodeHeaderFrame (frame : Bytes) : Except Reject Instr :=
  match decodeHeader (bytesToBits frame) with
  | none => .error (.headerShort (bytesToBits frame).length)
  | some h => decodeHeaderFields h

/-- The two formats of the opcode table. -/
inductive Format where
  /-- CMD56, in the operand registers (rule R58). -/
  | cmd56
  /-- HDR48, at the front of a frame as HDR144 (rules R51, R53). -/
  | hdr48
  deriving DecidableEq, Repr

/-- Decode bytes of the given format. -/
def decode : Format → Bytes → Except Reject Instr
  | .cmd56 => decodeCommand
  | .hdr48 => decodeHeaderFrame

/-- The word CMD56 of four field values (rule R58). -/
def commandWord (op method factor len : Nat) : Nat :=
  op * 2 ^ 48 + method * 2 ^ 40 + factor * 2 ^ 32 + len

/-- The word HDR48 of three field values (rule R51, last column). -/
def headerWord (method factor sourceLength : Nat) : Nat :=
  method * 2 ^ 40 + factor * 2 ^ 32 + sourceLength

/-- The instruction's word, numbered as spec/opcode_table.json numbers its bits; fields an operation does not read are
written as 0 (rule R61). -/
def encodeWord : Instr → Nat
  | .getg j => commandWord 0x01 0 j 0
  | .geth j => commandWord 0x02 0 j 0
  | .getsyn j => commandWord 0x03 0 j 0
  | .b2bits => commandWord 0x10 0 0 0
  | .bits2b => commandWord 0x11 0 0 0
  | .padblk blockSize => commandWord 0x12 0 0 blockSize
  | .trunc exactLength => commandWord 0x13 0 0 exactLength
  | .hdrenc method factor sourceLength => commandWord 0x20 method factor sourceLength
  | .hdrdec => commandWord 0x21 0 0 0
  | .repenc n => commandWord 0x30 0 n 0
  | .repdec n => commandWord 0x31 0 n 0
  | .lbenc j => commandWord 0x40 0 j 0
  | .lbdec j => commandWord 0x41 0 j 0
  | .encode method factor => commandWord 0x50 method factor 0
  | .decode => commandWord 0x51 0 0 0
  | .hdrRep3 sourceLength => headerWord 0 3 sourceLength
  | .hdrRep5 sourceLength => headerWord 0 5 sourceLength
  | .hdrRep7 sourceLength => headerWord 0 7 sourceLength
  | .hdrRep9 sourceLength => headerWord 0 9 sourceLength
  | .hdrLb3 sourceLength => headerWord 1 3 sourceLength
  | .hdrLb4 sourceLength => headerWord 1 4 sourceLength
  | .hdrLb5 sourceLength => headerWord 1 5 sourceLength

/-- The format of an instruction's row. -/
def Instr.format : Instr → Format
  | .getg _ => .cmd56
  | .geth _ => .cmd56
  | .getsyn _ => .cmd56
  | .b2bits => .cmd56
  | .bits2b => .cmd56
  | .padblk _ => .cmd56
  | .trunc _ => .cmd56
  | .hdrenc _ _ _ => .cmd56
  | .hdrdec => .cmd56
  | .repenc _ => .cmd56
  | .repdec _ => .cmd56
  | .lbenc _ => .cmd56
  | .lbdec _ => .cmd56
  | .encode _ _ => .cmd56
  | .decode => .cmd56
  | .hdrRep3 _ => .hdr48
  | .hdrRep5 _ => .hdr48
  | .hdrRep7 _ => .hdr48
  | .hdrRep9 _ => .hdr48
  | .hdrLb3 _ => .hdr48
  | .hdrLb4 _ => .hdr48
  | .hdrLb5 _ => .hdr48

/-- A word of a format as the hardware holds it: a command word as seven bytes, most significant first (rule R58); a raw
header word as the eighteen bytes of its protected form (rules R47, R53). -/
def layWord : Format → Nat → Bytes
  | .cmd56, w => wordBytes 7 w
  | .hdr48, w => bitsToBytes (repEncode (be Config.hdrRawBits w) Config.hdrFactorN)

/-- The bytes of an instruction. -/
def encode (i : Instr) : Bytes := layWord i.format (encodeWord i)

/-- The bits of a format's word. -/
def Format.width : Format → Nat
  | .cmd56 => 56
  | .hdr48 => 48

/-- The instruction the decoder reads from a word of `nbits` bits, numbered as spec/opcode_table.json numbers them. -/
def decodeTableWord (nbits w : Nat) : Option Instr :=
  if nbits = Format.cmd56.width then (decode .cmd56 (layWord .cmd56 w)).toOption
  else if nbits = Format.hdr48.width then (decode .hdr48 (layWord .hdr48 w)).toOption
  else none

/-- One row of spec/opcode_table.json. -/
structure TableRow where
  mnemonic : String
  width : Nat
  pattern : Nat
  mask : Nat
  deriving DecidableEq, Repr

/-- The mask of the fifteen operation rows: `op` alone (rule R59). -/
def commandMask : Nat := 0xFF000000000000

/-- The mask of the seven header rows: method and factor (rule R56). -/
def headerMask : Nat := 0xFFFF00000000

/-- The opcode table's row of an instruction (rules R56, R59). -/
def Instr.tableRow : Instr → TableRow
  | .getg _ => ⟨"GETG", 56, 0x01000000000000, commandMask⟩
  | .geth _ => ⟨"GETH", 56, 0x02000000000000, commandMask⟩
  | .getsyn _ => ⟨"GETSYN", 56, 0x03000000000000, commandMask⟩
  | .b2bits => ⟨"B2BITS", 56, 0x10000000000000, commandMask⟩
  | .bits2b => ⟨"BITS2B", 56, 0x11000000000000, commandMask⟩
  | .padblk _ => ⟨"PADBLK", 56, 0x12000000000000, commandMask⟩
  | .trunc _ => ⟨"TRUNC", 56, 0x13000000000000, commandMask⟩
  | .hdrenc _ _ _ => ⟨"HDRENC", 56, 0x20000000000000, commandMask⟩
  | .hdrdec => ⟨"HDRDEC", 56, 0x21000000000000, commandMask⟩
  | .repenc _ => ⟨"REPENC", 56, 0x30000000000000, commandMask⟩
  | .repdec _ => ⟨"REPDEC", 56, 0x31000000000000, commandMask⟩
  | .lbenc _ => ⟨"LBENC", 56, 0x40000000000000, commandMask⟩
  | .lbdec _ => ⟨"LBDEC", 56, 0x41000000000000, commandMask⟩
  | .encode _ _ => ⟨"ENCODE", 56, 0x50000000000000, commandMask⟩
  | .decode => ⟨"DECODE", 56, 0x51000000000000, commandMask⟩
  | .hdrRep3 _ => ⟨"HDR.REP3", 48, 0x000300000000, headerMask⟩
  | .hdrRep5 _ => ⟨"HDR.REP5", 48, 0x000500000000, headerMask⟩
  | .hdrRep7 _ => ⟨"HDR.REP7", 48, 0x000700000000, headerMask⟩
  | .hdrRep9 _ => ⟨"HDR.REP9", 48, 0x000900000000, headerMask⟩
  | .hdrLb3 _ => ⟨"HDR.LB3", 48, 0x010300000000, headerMask⟩
  | .hdrLb4 _ => ⟨"HDR.LB4", 48, 0x010400000000, headerMask⟩
  | .hdrLb5 _ => ⟨"HDR.LB5", 48, 0x010500000000, headerMask⟩

end Sys2Proof
end

