-- ==== Sys2Proof/Machine/Operands.lean ====
section
/-! DEFINITION. The operand forms: the command word in the operand registers (rule R58), the legality of a factor, a code
parameter and a method (rules R85, R91, R104), and the input buffer seen as the kind an operation takes (rules R35,
R36). -/
namespace Sys2Proof.Machine

/-- The command word the four operand registers make (rule R58). -/
def State.commandWord (s : State) : Nat :=
  Sys2Proof.commandWord s.cmd.toNat s.argMethod.toNat s.argFactor.toNat s.argLen.toNat

/-- The command word as the seven bytes of rule R58. -/
def State.commandBytes (s : State) : Bytes := wordBytes 7 s.commandWord

/-- n ∈ {3, 5, 7, 9} (rule R85). -/
def legalRep (n : Nat) : Bool := Config.repFactors.contains n

/-- j ∈ {3, 4, 5} (rules R65, R91). -/
def legalLb (j : Nat) : Bool := Config.lbParams.contains j

/-- The method tag names a method (rule R104). -/
def legalMethod (m : Nat) : Bool := m == Config.tagRepetition || m == Config.tagLinearBlock

/-- The factor suits the method (rules R106, R109). -/
def factorSuits (m f : Nat) : Bool := if m = Config.tagRepetition then legalRep f else legalLb f

/-- The content of a buffer as a byte buffer; none when it holds a bit sequence. The empty buffer without a kind is the
empty byte buffer. -/
def Buffer.asBytes : Buffer → Option Bytes
  | .empty => some []
  | .bytes content => some content
  | .bits _ => none

/-- The content of a buffer as a bit sequence; none when it holds a byte buffer. The empty buffer without a kind is the
empty bit sequence. -/
def Buffer.asBits : Buffer → Option Bits
  | .empty => some []
  | .bytes _ => none
  | .bits content => some content

end Sys2Proof.Machine
end

