-- ==== Sys2Proof/Machine/Ops.lean ====
section
/-! DEFINITION. The operations every meaning is built from: taking the abort (rule R122), and the reading of `IN` as the
kind an operation takes (rules R36, R44). There is no return from an abort: the abort already returned to the host, and
the next operation starts from a clean slate (rule R126), which is `State.fresh`. -/
namespace Sys2Proof.Machine

/-- What a step answers. -/
abbrev Result := Host.Outcome State Fault Refusal

/-- The abort, `raise K` (rule R122): `ERR` takes the code of K, `OUT` becomes empty, the operation ends. Nothing else is
saved; registers the operation wrote before keep their values. -/
def State.raise (s : State) (k : ErrorKind) : State := { s with err := k, outBuf := .empty }

/-- An operation that takes a byte buffer (rule R36). -/
def withBytes (s : State) (run : Bytes → State) : Result :=
  match s.inBuf.asBytes with
  | some content => .next (run content)
  | none => .refused .wrongBufferKind

/-- An operation that takes a bit sequence (rule R36). -/
def withBits (s : State) (run : Bits → State) : Result :=
  match s.inBuf.asBits with
  | some content => .next (run content)
  | none => .refused .wrongBufferKind

end Sys2Proof.Machine
end

