-- ==== Sys2Proof/Machine/ExecCatalog.lean ====
section
/-! DEFINITION. The meanings of `GETG`, `GETH`, `GETSYN` (spec 40_codecatalog.md rules R71 to R73). -/
namespace Sys2Proof.Machine

/-- One byte of `GETSYN`'s output: the column index, or 0xFF where the table is undefined (rule R73). -/
def synByte : Option Nat → Byte
  | some c => BitVec.ofNat 8 c
  | none => 0xFF

/-- A catalog read-out: `UnsupportedParameter` for a j that is no code parameter, else the output made of j's tables. -/
def readCatalog (j : Nat) (out : CodeTables → Buffer) (s : State) : Result :=
  .next (if legalLb j then s.fresh.setOut (out (s.rom.code j)) else s.fresh.raise .unsupportedParameter)

/-- `GETG j` (rule R71). -/
def execGetg (j : Nat) (s : State) : Result := readCatalog j (fun T => .bits T.g.flatten) s

/-- `GETH j` (rule R72). -/
def execGeth (j : Nat) (s : State) : Result := readCatalog j (fun T => .bits T.h.flatten) s

/-- `GETSYN j` (rule R73). -/
def execGetsyn (j : Nat) (s : State) : Result := readCatalog j (fun T => .bytes (T.syn.map synByte)) s

end Sys2Proof.Machine
end

