-- ==== Sys2Proof/Machine/ExecFramer.lean ====
section
/-! DEFINITION. The meanings of `B2BITS`, `BITS2B`, `PADBLK`, `TRUNC` (spec 41_bitframer.md rules R74 to R77). -/
namespace Sys2Proof.Machine

/-- `B2BITS` (rule R74). -/
def execB2bits (s : State) : Result :=
  withBytes s fun buf => s.fresh.setOut (.bits (bytesToBits buf))

/-- `BITS2B` (rule R75). -/
def execBits2b (s : State) : Result :=
  withBits s fun bits => (s.fresh.setOut (.bytes (bitsToBytes bits))).setPad (padLen 8 bits.length)

/-- `PADBLK blockSize` (rule R76). -/
def execPadblk (blockSize : Nat) (s : State) : Result :=
  withBits s fun bits =>
    if blockSize = 0 then s.fresh.raise .unsupportedParameter
    else (s.fresh.setOut (.bits (padToBlock bits blockSize).1)).setPad (padToBlock bits blockSize).2

/-- `TRUNC exactLength` (rule R77). -/
def execTrunc (exactLength : Nat) (s : State) : Result :=
  withBits s fun bits => s.fresh.setOut (.bits (truncate bits exactLength))

end Sys2Proof.Machine
end

