-- ==== Sys2Proof/Machine/ExecHeader.lean ====
section
/-! DEFINITION. The meanings of `HDRENC` and `HDRDEC` (spec 42_headercodec.md rules R80, R81). -/
namespace Sys2Proof.Machine

/-- `HDRENC method, factor, sourceLength` (rule R80); no field value is refused (rule R84). -/
def execHdrenc (method factor sourceLength : Nat) (s : State) : Result :=
  .next (s.fresh.setOut (.bits (encodeHeader method factor sourceLength)))

/-- `HDRDEC` (rule R81); `OUT` stays empty (rule R36). -/
def execHdrdec (s : State) : Result :=
  withBits s fun F =>
    match decodeHeader F with
    | none => s.fresh.raise .headerCorrupt
    | some h => (s.fresh.setHeader h.method h.factor h.sourceLength).setTail 0

end Sys2Proof.Machine
end

