-- ==== Sys2Proof/Machine/LinearBlock.lean ====
section
/-! DEFINITION. LinearBlockCoder as pure functions of the tables (spec 44_linearblock.md): the row encoder, the syndrome
calculator, the error locator, the corrector, `LbEncode`, `LbDecode`. -/
namespace Sys2Proof

/-- `u · M mod 2` for a row vector u and an n-column matrix M: the exclusive or of the rows of M selected by the 1 bits
of u (rules R92, R147 (a)). -/
def vecMat (n : Nat) : Bits → Matrix → Bits
  | b :: u, row :: M => xorBits (if b then row else zeros n) (vecMat n u M)
  | _, _ => zeros n

/-- `EncRow(u, j) = u · G_j mod 2` (rules R92, R100 (a)). -/
def encRow (n : Nat) (G : Matrix) (u : Bits) : Bits := vecMat n u G

/-- `Syndrome(r, j) = r · H_jᵀ mod 2` (rules R93, R100 (a) to (c)): bit t is the product of r and row t of H. -/
def syndrome (H : Matrix) (r : Bits) : Bits := H.map (dot r)

/-- The all-zero sequence. -/
def isZero (s : Bits) : Bool := s.all not

/-- `Locate(s, j)` (rules R94, R100 (d)). -/
def locate (syn : List (Option Nat)) (s : Bits) : Option Nat :=
  if isZero s then none else syn.getD (val s) none

/-- `CorrectRow(r, j)` (rules R95, R100 (d)): the information word, and whether the row counts as an `UncorrectableBlock`. -/
def correctRow (k : Nat) (T : CodeTables) (r : Bits) : Bits × Bool :=
  if isZero (syndrome T.h r) then (r.take k, false)
  else
    match locate T.syn (syndrome T.h r) with
    | some pos => if pos < k then ((flipAt r pos).take k, false) else (r.take k, true)
    | none => (r.take k, true)

/-- The codeword rows of `LbEncode`, before alignment (rule R96). -/
def codewords (n k : Nat) (G : Matrix) (bits : Bits) : Bits :=
  (groups k ((padToBlock bits k).1.length / k) (padToBlock bits k).1).flatMap (encRow n G)

/-- `LbEncode(bits, j)` (rule R96): block padding, one codeword per row, alignment padding. -/
def lbEncode (j : Nat) (T : CodeTables) (bits : Bits) : Bits :=
  (padToBlock (codewords (codeN j) (codeK j) T.g bits) 8).1

/-- The corrected rows of `LbDecode` (rule R97). -/
def correctedRows (j : Nat) (T : CodeTables) (bits : Bits) : List (Bits × Bool) :=
  (groups (codeN j) (bits.length / codeN j) bits).map (correctRow (codeK j) T)

/-- What `LbDecode` returns (rule R97). -/
structure LbResult where
  decoded : Bits
  uncorrectable : Nat
  tail : Nat
  deriving DecidableEq, Repr

/-- `LbDecode(bits, j)` (rules R97, R98, R99). -/
def lbDecode (j : Nat) (T : CodeTables) (bits : Bits) : LbResult where
  decoded := (correctedRows j T bits).flatMap (·.1)
  uncorrectable := (correctedRows j T bits).countP (·.2)
  tail := bits.length % codeN j

end Sys2Proof
end

