-- ==== Sys2Proof/Machine/ExecLinearBlock.lean ====
section
/-! DEFINITION. The meanings of `LBENC` and `LBDEC` (spec 44_linearblock.md rules R96, R97). -/
namespace Sys2Proof.Machine

/-- `LBENC j` (rules R91, R96). -/
def execLbenc (j : Nat) (s : State) : Result :=
  withBits s fun bits =>
    if legalLb j then s.fresh.setOut (.bits (lbEncode j (s.rom.code j) bits))
    else s.fresh.raise .unsupportedFactor

/-- `LBDEC j` (rules R91, R97). -/
def execLbdec (j : Nat) (s : State) : Result :=
  withBits s fun bits =>
    if legalLb j then
      ((s.fresh.setOut (.bits (lbDecode j (s.rom.code j) bits).decoded)).setUncorr
        (lbDecode j (s.rom.code j) bits).uncorrectable).setTail (lbDecode j (s.rom.code j) bits).tail
    else s.fresh.raise .unsupportedFactor

end Sys2Proof.Machine
end

