-- ==== Sys2Proof/Machine/ExecPipeline.lean ====
section
/-! DEFINITION. The meanings of `ENCODE` and `DECODE` and of the seven header forms `DECODE` dispatches on (spec
45_pipeline.md rules R103 to R111). -/
namespace Sys2Proof.Machine

/-- The payload coder the method names (rule R106). -/
def encodePayload (rom : Rom) (method factor : Nat) (bits : Bits) : Bits :=
  if method = Config.tagRepetition then repEncode bits factor else lbEncode factor (rom.code factor) bits

/-- The frame of a byte buffer: `EncodeHeader(m, f, 8·B) ‖ payload`, packed (rules R55, R106). -/
def buildFrame (rom : Rom) (method factor : Nat) (buf : Bytes) : Bytes :=
  bitsToBytes (encodeHeader method factor (bytesToBits buf).length ++
    encodePayload rom method factor (bytesToBits buf))

/-- `ENCODE method, factor` (rules R104 to R106; the order of the checks is rule R124). -/
def execEncode (method factor : Nat) (s : State) : Result :=
  withBytes s fun buf =>
    if !legalMethod method then s.fresh.raise .unsupportedParameter
    else if !factorSuits method factor then s.fresh.raise .unsupportedFactor
    else if 2 ^ 32 - 1 < 8 * buf.length then s.fresh.raise .lengthOverflow
    else s.fresh.setOut (.bytes (buildFrame s.rom method factor buf))

/-- The block in the `PAYLOAD` phase with this header recovered (rules R107, R108). -/
def State.headerSeen (s : State) (method factor sourceLength : Nat) : State :=
  (s.fresh.setHeader method factor sourceLength).setPhase .payload

/-- The end of `DECODE` (rules R108, R111): the two counters, the cut to the source length, the packing, `DONE`. -/
def State.finishDecode (s : State) (decoded : Bits) (uncorrectable tail sourceLength : Nat) : State :=
  (((s.setUncorr uncorrectable).setTail tail).setOut
    (.bytes (bitsToBytes (truncate decoded sourceLength)))).setPhase .done

/-- All frame bits from index 144 on (rule R110). -/
def payloadBits (frame : Bytes) : Bits := (bytesToBits frame).drop Config.hdrBits

/-- The `PAYLOAD` and `DONE` phases for a Repetition header with a legal factor (rules R107, R108). -/
def decodeRepFrame (factor sourceLength : Nat) (s : State) (frame : Bytes) : State :=
  (s.headerSeen Config.tagRepetition factor sourceLength).finishDecode
    (repDecode (payloadBits frame) factor).1 0 (repDecode (payloadBits frame) factor).2 sourceLength

/-- The `PAYLOAD` and `DONE` phases for a LinearBlock header with a legal factor (rules R107, R108). -/
def decodeLbFrame (factor sourceLength : Nat) (s : State) (frame : Bytes) : State :=
  (s.headerSeen Config.tagLinearBlock factor sourceLength).finishDecode
    (lbDecode factor (s.rom.code factor) (payloadBits frame)).decoded
    (lbDecode factor (s.rom.code factor) (payloadBits frame)).uncorrectable
    (lbDecode factor (s.rom.code factor) (payloadBits frame)).tail sourceLength

/-- The dispatch on the recovered method, which is examined before the factor (rules R108, R109). -/
def dispatchHeader (h : HeaderFields) (s : State) (frame : Bytes) : State :=
  if h.method = Config.tagRepetition then
    if legalRep h.factor then decodeRepFrame h.factor h.sourceLength s frame
    else (s.headerSeen h.method h.factor h.sourceLength).raise .unsupportedFactor
  else if h.method = Config.tagLinearBlock then
    if legalLb h.factor then decodeLbFrame h.factor h.sourceLength s frame
    else (s.headerSeen h.method h.factor h.sourceLength).raise .unsupportedFactor
  else (s.headerSeen h.method h.factor h.sourceLength).raise .unsupportedParameter

/-- `DECODE` (rules R107 to R111). -/
def execDecode (s : State) : Result :=
  withBytes s fun frame =>
    match decodeHeader (bytesToBits frame) with
    | none => s.fresh.raise .headerCorrupt
    | some h => dispatchHeader h s frame

/-- `HDR.REP3` (rules R56, R109): the decoder has fetched this header; repetition-decode the payload with n = 3. -/
def execHdrRep3 (sourceLength : Nat) (s : State) : Result := withBytes s (decodeRepFrame 3 sourceLength s)

/-- `HDR.REP5` (rules R56, R109). -/
def execHdrRep5 (sourceLength : Nat) (s : State) : Result := withBytes s (decodeRepFrame 5 sourceLength s)

/-- `HDR.REP7` (rules R56, R109). -/
def execHdrRep7 (sourceLength : Nat) (s : State) : Result := withBytes s (decodeRepFrame 7 sourceLength s)

/-- `HDR.REP9` (rules R56, R109). -/
def execHdrRep9 (sourceLength : Nat) (s : State) : Result := withBytes s (decodeRepFrame 9 sourceLength s)

/-- `HDR.LB3` (rules R56, R109): the decoder has fetched this header; linear-block-decode the payload with j = 3. -/
def execHdrLb3 (sourceLength : Nat) (s : State) : Result := withBytes s (decodeLbFrame 3 sourceLength s)

/-- `HDR.LB4` (rules R56, R109). -/
def execHdrLb4 (sourceLength : Nat) (s : State) : Result := withBytes s (decodeLbFrame 4 sourceLength s)

/-- `HDR.LB5` (rules R56, R109). -/
def execHdrLb5 (sourceLength : Nat) (s : State) : Result := withBytes s (decodeLbFrame 5 sourceLength s)

end Sys2Proof.Machine
end

