-- ==== Sys2Proof/Machine/ExecRepetition.lean ====
section
/-! DEFINITION. The meanings of `REPENC` and `REPDEC` (spec 43_repetition.md rules R87, R88). -/
namespace Sys2Proof.Machine

/-- `REPENC n` (rule R87). -/
def execRepenc (n : Nat) (s : State) : Result :=
  withBits s fun bits =>
    if legalRep n then s.fresh.setOut (.bits (repEncode bits n)) else s.fresh.raise .unsupportedFactor

/-- `REPDEC n` (rules R85, R88, R89). -/
def execRepdec (n : Nat) (s : State) : Result :=
  withBits s fun bits =>
    if legalRep n then (s.fresh.setOut (.bits (repDecode bits n).1)).setTail (repDecode bits n).2
    else s.fresh.raise .unsupportedFactor

end Sys2Proof.Machine
end

