-- ==== Sys2Proof/Machine/Dispatch.lean ====
section
/-! DEFINITION. One arm per constructor of Instr: the instruction's meaning. -/
namespace Sys2Proof.Machine

def exec (i : Instr) (s : State) : Host.Outcome State Fault Refusal :=
  match i with
  | .getg j => Sys2Proof.Machine.execGetg j s
  | .geth j => Sys2Proof.Machine.execGeth j s
  | .getsyn j => Sys2Proof.Machine.execGetsyn j s
  | .b2bits => Sys2Proof.Machine.execB2bits s
  | .bits2b => Sys2Proof.Machine.execBits2b s
  | .padblk blockSize => Sys2Proof.Machine.execPadblk blockSize s
  | .trunc exactLength => Sys2Proof.Machine.execTrunc exactLength s
  | .hdrenc method factor sourceLength => Sys2Proof.Machine.execHdrenc method factor sourceLength s
  | .hdrdec => Sys2Proof.Machine.execHdrdec s
  | .repenc n => Sys2Proof.Machine.execRepenc n s
  | .repdec n => Sys2Proof.Machine.execRepdec n s
  | .lbenc j => Sys2Proof.Machine.execLbenc j s
  | .lbdec j => Sys2Proof.Machine.execLbdec j s
  | .encode method factor => Sys2Proof.Machine.execEncode method factor s
  | .decode => Sys2Proof.Machine.execDecode s
  | .hdrRep3 sourceLength => Sys2Proof.Machine.execHdrRep3 sourceLength s
  | .hdrRep5 sourceLength => Sys2Proof.Machine.execHdrRep5 sourceLength s
  | .hdrRep7 sourceLength => Sys2Proof.Machine.execHdrRep7 sourceLength s
  | .hdrRep9 sourceLength => Sys2Proof.Machine.execHdrRep9 sourceLength s
  | .hdrLb3 sourceLength => Sys2Proof.Machine.execHdrLb3 sourceLength s
  | .hdrLb4 sourceLength => Sys2Proof.Machine.execHdrLb4 sourceLength s
  | .hdrLb5 sourceLength => Sys2Proof.Machine.execHdrLb5 sourceLength s

end Sys2Proof.Machine
end

