-- ==== Sys2Proof/Machine/Fetch.lean ====
section
/-! DEFINITION. What the block fetches and executes from (rule R49 (e)): the command word in the operand registers, and
the header word at the front of the frame in `IN`; how a word is put there; and what a reserved command does. -/
namespace Sys2Proof.Machine

/-- The instruction the operand registers select (rules R58, R59). -/
def fetchCommand (s : State) : Except Reject Instr := Sys2Proof.decode .cmd56 s.commandBytes

/-- A request with a reserved `op` (rules R60, R120): the abort `IllegalCommand`, before any operand or buffer is
read. -/
def rejectCommand (s : State) : Result := .next (s.fresh.raise .illegalCommand)

/-- The host writes the four operand registers with the fields of a command word (rules R15, R58). -/
def State.putCommand (s : State) (w : Nat) : State :=
  { s with
    cmd := BitVec.ofNat 8 (w >>> 48)
    argMethod := BitVec.ofNat 8 (w >>> 40)
    argFactor := BitVec.ofNat 8 (w >>> 32)
    argLen := BitVec.ofNat 32 w }

/-- The bytes of a frame after its 18 header bytes (rule R47). -/
def payloadBytes (b : Buffer) : Bytes := (b.asBytes.getD []).drop 18

/-- A raw header word put where the decoder fetches it: `CMD` selects `DECODE`, and the first 18 bytes of `IN` become the
word's protected form, the payload bytes after them kept (rules R47, R50, R53). -/
def State.putHeader (s : State) (w : Nat) : State :=
  { s with cmd := 0x51, inBuf := .bytes (layWord .hdr48 w ++ payloadBytes s.inBuf) }

/-- An instruction word put where the next step fetches it. -/
def State.putWord (s : State) (nbits w : Nat) : State :=
  if nbits = Format.hdr48.width then s.putHeader w else s.putCommand w

end Sys2Proof.Machine
end

