-- ==== Sys2Proof/Machine/Step.lean ====
section
/-! DEFINITION. One step of the core: one whole operation, the one the operand registers select (rules R9, R134). -/
namespace Sys2Proof.Machine

/-- One step (rule R9): nothing is accepted while the block is held in reset (rule R132); otherwise the command word is
decoded and its operation run, or the abort `IllegalCommand` is taken (rule R60). -/
def step (s : State) : Host.Outcome State Fault Refusal :=
  if s.heldInReset then .refused .heldInReset
  else
    match fetchCommand s with
    | .ok i => exec i s
    | .error _ => rejectCommand s

/-- The word put where the next step fetches its instruction. -/
def State.withFetchWord (s : State) (nbits w : Nat) : State := s.putWord nbits w

end Sys2Proof.Machine
end

