-- ==== Sys2Proof/Machine/HostPort.lean ====
section
/-! DEFINITION. The host (spec 00_scope.md rules R6, R9; 10_state.md rule R17; 20_memory.md rule R48): what it may do between
two steps of the core, among it the three host directives of 30_encoding.md rule R63 and reset (70_reset_and_hazards.md
rule R131), and a run, a finite list of host actions and operations (rule R135). -/
namespace Sys2Proof.Machine

/-- The inversion of bit index i of a buffer seen as a bit sequence: in a byte buffer, bit `7 − (i mod 8)` of byte
`i div 8` (rule R63). -/
def Buffer.flip : Buffer → Nat → Buffer
  | .empty, _ => .empty
  | .bytes content, i => .bytes (content.modify (i / 8) fun v => v ^^^ (1#8 <<< (7 - i % 8)))
  | .bits content, i => .bits (flipAt content i)

/-- What the host does between two operations. -/
inductive HostAction where
  /-- Reset with a catalog (rules R131, R132). -/
  | reset (catalog : Catalog)
  /-- `.in <kind> <content>`: the host sets `IN` (rules R17, R63). -/
  | putIn (content : Buffer)
  /-- `.mov`: `OUT` to `IN`, kind and length kept (rule R63). -/
  | mov
  /-- `.flip i`: bit index i of `IN` inverted (rule R63). -/
  | flip (i : Nat)
  /-- The host writes the operand registers (rules R15, R17, R134). -/
  | request (op method factor : BitVec 8) (len : BitVec 32)
  deriving DecidableEq, Repr

/-- The state after a host action; result registers and `OUT` are never the host's to write (rule R17). -/
def hostAct (a : HostAction) (s : State) : State :=
  match a with
  | .reset catalog => State.resetWith catalog
  | .putIn content => { s with inBuf := content }
  | .mov => { s with inBuf := s.outBuf }
  | .flip i => { s with inBuf := s.inBuf.flip i }
  | .request op method factor len =>
    { s with cmd := op, argMethod := method, argFactor := factor, argLen := len }

/-- One item of a run: a host action, or the issue of the request in the operand registers. -/
inductive Event where
  | host (a : HostAction)
  | operate
  deriving DecidableEq, Repr

/-- One item of a run. -/
def react (e : Event) (s : State) : Result :=
  match e with
  | .host a => .next (hostAct a s)
  | .operate => step s

/-- A run: it ends after its last item (rule R135), or where a request has no meaning. -/
def run : List Event → State → Result
  | [], s => .next s
  | e :: es, s =>
    match react e s with
    | .next t => run es t
    | .fault f => .fault f
    | .refused r => .refused r

end Sys2Proof.Machine
end

