-- ==== Sys2Proof/Safety.lean ====
section
/-! DEFINITION. The words the claims are stated in: what an operation leaves when it has written no result register, how
an operation ends (rule R135), the invariant of the states between two operations, and the error patterns the codes
promise to correct. -/
namespace Sys2Proof

/-- At most t ones in every one of the consecutive n-bit groups of e, an incomplete last group among them. -/
def sparseErrors (n t : Nat) (e : Bits) : Prop := ∀ g, popcount (slice e (n * g) (n * g + n)) ≤ t

/-- At most one 1 in each of the first R consecutive n-bit rows of e. -/
def oneErrorPerRow (n R : Nat) (e : Bits) : Prop := ∀ g < R, popcount (slice e (n * g) (n * g + n)) ≤ 1

/-- `XOR_{i in 0..m−1} f(i)` (spec 00_scope.md section 7.1). -/
def xorOver (m : Nat) (f : Nat → Bit) : Bit := (List.range m).foldr (fun i acc => Bool.xor (f i) acc) false

/-- `P_j` is a k(j) by j matrix for each code parameter (rule R12): what every catalog is, valid or not. -/
def Catalog.shaped (c : Catalog) : Prop :=
  ∀ j ∈ Config.lbParams, (c.p j).length = codeK j ∧ ∀ row ∈ c.p j, row.length = j

/-- Bit t of the syndrome of row r of a received sequence: `XOR_{c} (r[c] & H_j[t][c])` (rule R93), H written out from
`P_j` (rule R67). -/
def rowSyndromeBit (c : Catalog) (j : Nat) (received : Bits) (r t : Nat) : Bit :=
  Bool.xor (xorOver (codeK j) fun i => received.getD (codeN j * r + i) false && entry (c.p j) i t)
    (received.getD (codeN j * r + codeK j + t) false)

end Sys2Proof

namespace Sys2Proof.Machine

/-- The state an operation starts from (rules R18, R32): the operand registers, `IN` and the ROM of s, every result
register at its reset value, `OUT` empty. -/
def State.cleared (s : State) : State where
  cmd := s.cmd
  argMethod := s.argMethod
  argFactor := s.argFactor
  argLen := s.argLen
  phase := .header
  hdrMethod := 0
  hdrFactor := 0
  hdrSrcLen := 0
  err := .noError
  uncorrCnt := 0
  tailDropped := 0
  padAmount := 0
  inBuf := s.inBuf
  outBuf := .empty
  rom := s.rom
  heldInReset := s.heldInReset

/-- The buffer holds this byte buffer; an empty buffer without a kind holds the empty one. -/
def Buffer.isBytes (b : Buffer) (content : Bytes) : Prop := b = .bytes content ∨ b = .empty ∧ content = []

/-- The buffer holds this bit sequence; an empty buffer without a kind holds the empty one. -/
def Buffer.isBits (b : Buffer) (content : Bits) : Prop := b = .bits content ∨ b = .empty ∧ content = []

/-- The ROM holds the tables of this valid catalog (rules R12, R68, R132). -/
def State.holdsCatalog (s : State) (c : Catalog) : Prop := c.valid = true ∧ s.rom = Rom.ofCatalog c

/-- The operation before ran to its last line (rule R135 (a)). -/
def State.completed (s : State) : Prop := s.err = .noError

/-- The operation before ended with a fatal error (rule R135 (b)). -/
def State.aborted (s : State) : Prop := s.err ≠ .noError

/-- What holds of the block between two operations. -/
structure State.Inv (s : State) : Prop where
  /-- A block that has left reset holds the tables of a valid catalog (rule R132). -/
  rom : s.heldInReset = false → ∃ c, s.holdsCatalog c
  /-- After an abort there is no output and no count (rules R122, R124). -/
  abort : s.aborted → s.outBuf = .empty ∧ s.uncorrCnt = 0 ∧ s.tailDropped = 0 ∧ s.padAmount = 0
  /-- `PHASE` = `PAYLOAD` is seen only after a header named no method or no factor of it (rules R20, R107). -/
  payload : s.phase = .payload → s.err = .unsupportedFactor ∨ s.err = .unsupportedParameter
  /-- `PHASE` = `DONE` is seen only after a `DECODE` that completed, with a byte buffer in `OUT` (rules R20, R107). -/
  done : s.phase = .done → s.completed ∧ ∃ b, s.outBuf = .bytes b
  /-- After an abort in the `HEADER` phase, or of any other operation, no header is recorded (rules R21, R122). -/
  noHeader : s.aborted → s.phase = .header → s.hdrMethod = 0 ∧ s.hdrFactor = 0 ∧ s.hdrSrcLen = 0

end Sys2Proof.Machine
end

