-- ==== Sys2Proof/Certificates/Slice0/Obligations.lean ====
section
/-! DEFINITION. The statements for the provers, from the numbered rules of spec/. `s.cleared` is the state an operation
starts from, written out field by field in Safety.lean, so that an equation `exec i s = .next { s.cleared with … }` says
the value of every field: what the operation writes, that every other result register is at its reset value, and that the
operand registers, `IN` (every index of it) and the ROM are unchanged. The statement about an operation begins with its
encoding. -/
open Sys2Proof Sys2Proof.Machine

/-! ### Encodings -/

/-- Rules R52 to R54, R58, R59, R61: for every well-formed instruction of the table, both formats, decoding its bytes
gives it back, and so does decoding its word as spec/opcode_table.json numbers it. -/
def Obligations.DecodeInvertsEncode : Prop :=
  ∀ i : Instr, i.wellFormed = true →
    decode i.format (encode i) = .ok i ∧ decodeTableWord i.format.width (encodeWord i) = some i

/-- Rules R59, R60: the fifteen codes are accepted whatever the other six bytes are, and every other value of `op` is
rejected as reserved. -/
def Obligations.ReservedOpsAreRejected : Prop :=
  ∀ op m f l3 l2 l1 l0 : Byte,
    (op.toNat ∈ [0x01, 0x02, 0x03, 0x10, 0x11, 0x12, 0x13, 0x20, 0x21, 0x30, 0x31, 0x40, 0x41, 0x50, 0x51] →
      ∃ i, decode .cmd56 [op, m, f, l3, l2, l1, l0] = .ok i ∧ i.format = .cmd56 ∧ i.wellFormed = true) ∧
    (op.toNat ∉ [0x01, 0x02, 0x03, 0x10, 0x11, 0x12, 0x13, 0x20, 0x21, 0x30, 0x31, 0x40, 0x41, 0x50, 0x51] →
      decode .cmd56 [op, m, f, l3, l2, l1, l0] = .error (.reservedOp op.toNat))

/-- Rule R61: a field an operation does not read (rule R59, column "Operands read") has no effect on what the command
word decodes to. -/
def Obligations.IgnoredFieldsHaveNoEffect : Prop :=
  ∀ op m f len m' f' len' : Nat, op < 256 → m < 256 → f < 256 → len < 2 ^ 32 → m' < 256 → f' < 256 → len' < 2 ^ 32 →
    (op ∈ [0x01, 0x02, 0x03, 0x30, 0x31, 0x40, 0x41] → f = f' →
      decode .cmd56 (wordBytes 7 (commandWord op m f len)) = decode .cmd56 (wordBytes 7 (commandWord op m' f' len'))) ∧
    (op ∈ [0x10, 0x11, 0x21, 0x51] →
      decode .cmd56 (wordBytes 7 (commandWord op m f len)) = decode .cmd56 (wordBytes 7 (commandWord op m' f' len'))) ∧
    (op ∈ [0x12, 0x13] → len = len' →
      decode .cmd56 (wordBytes 7 (commandWord op m f len)) = decode .cmd56 (wordBytes 7 (commandWord op m' f' len'))) ∧
    (op = 0x50 → m = m' → f = f' →
      decode .cmd56 (wordBytes 7 (commandWord op m f len)) = decode .cmd56 (wordBytes 7 (commandWord op m' f' len')))

/-- Rules R56, R57: at the front of a frame (anything may follow) exactly the seven legal headers decode, each to its
form with its source length, and every other one is rejected, the method examined before the factor. -/
def Obligations.ExactlySevenHeaderForms : Prop :=
  ∀ (m f L : Nat) (rest : Bytes), m < 256 → f < 256 → L < 2 ^ 32 →
    ∀ r, r = decode .hdr48 (bitsToBytes (encodeHeader m f L) ++ rest) →
      (m = 0 → f = 3 → r = .ok (.hdrRep3 L)) ∧ (m = 0 → f = 5 → r = .ok (.hdrRep5 L)) ∧
      (m = 0 → f = 7 → r = .ok (.hdrRep7 L)) ∧ (m = 0 → f = 9 → r = .ok (.hdrRep9 L)) ∧
      (m = 1 → f = 3 → r = .ok (.hdrLb3 L)) ∧ (m = 1 → f = 4 → r = .ok (.hdrLb4 L)) ∧
      (m = 1 → f = 5 → r = .ok (.hdrLb5 L)) ∧
      (m = 0 → f ∉ [3, 5, 7, 9] → r = .error (.illegalFactor 0 f)) ∧
      (m = 1 → f ∉ [3, 4, 5] → r = .error (.illegalFactor 1 f)) ∧
      (2 ≤ m → r = .error (.illegalMethod m))

/-- Rule R62's examples and one word per family of the opcode table, written out from rules R51, R58 and R59. -/
def Obligations.WordsOfTheSpecDecode : Prop :=
  decode .cmd56 [0x50, 0x00, 0x03, 0x00, 0x00, 0x00, 0x00] = .ok (.encode 0 3) ∧
  decode .cmd56 [0x50, 0x01, 0x04, 0x00, 0x00, 0x00, 0x00] = .ok (.encode 1 4) ∧
  decode .cmd56 [0x51, 0x00, 0x00, 0x00, 0x00, 0x00, 0x00] = .ok .decode ∧
  decode .cmd56 [0x20, 0x01, 0x03, 0x00, 0x00, 0x00, 0x08] = .ok (.hdrenc 1 3 8) ∧
  decode .cmd56 [0x12, 0x00, 0x00, 0x00, 0x00, 0x00, 0x04] = .ok (.padblk 4) ∧
  decode .cmd56 [0x13, 0x00, 0x00, 0x00, 0x00, 0x00, 0x08] = .ok (.trunc 8) ∧
  decode .cmd56 [0x31, 0x00, 0x05, 0x00, 0x00, 0x00, 0x00] = .ok (.repdec 5) ∧
  decode .cmd56 [0x41, 0x00, 0x04, 0x00, 0x00, 0x00, 0x00] = .ok (.lbdec 4) ∧
  decode .cmd56 [0x03, 0x00, 0x03, 0x00, 0x00, 0x00, 0x00] = .ok (.getsyn 3) ∧
  decodeTableWord 56 0x52000000000000 = none ∧ decodeTableWord 56 0x20010300000008 = some (.hdrenc 1 3 8)

/-! ### The step -/

/-- Rules R9, R59: a block that has left reset runs the instruction its operand registers decode to, and nothing else;
so it runs every operation of the table when the registers hold that operation's word. -/
def Obligations.StepRunsTheDecodedCommand : Prop :=
  (∀ (s : State) (i : Instr), s.heldInReset = false → decode .cmd56 s.commandBytes = .ok i → step s = exec i s) ∧
  (∀ (s : State) (i : Instr), s.heldInReset = false → i.wellFormed = true → i.format = .cmd56 →
    step (s.putCommand (encodeWord i)) = exec i (s.putCommand (encodeWord i)))

/-- Rules R50, R109: `DECODE` runs the header form that stands at the front of the frame; so a step runs any header form
put there (an arbitrary payload kept behind it). That a header form is an instruction of its own, and what it does, is the
model's reading (log 9). -/
def Obligations.DecodeRunsTheFetchedHeader : Prop :=
  (∀ (s : State) (frame : Bytes) (i : Instr), s.inBuf.isBytes frame → decode .hdr48 frame = .ok i →
    exec .decode s = exec i s) ∧
  (∀ (s : State) (i : Instr), s.heldInReset = false → i.wellFormed = true → i.format = .hdr48 →
    step (s.withFetchWord 48 (encodeWord i)) = exec i (s.withFetchWord 48 (encodeWord i)))

/-- Rule R60: a request with a reserved `op` ends with `IllegalCommand`, no output, and nothing else changed but the
clearing of every operation. -/
def Obligations.ReservedCommandAborts : Prop :=
  ∀ s : State, s.heldInReset = false →
    s.cmd.toNat ∉ [0x01, 0x02, 0x03, 0x10, 0x11, 0x12, 0x13, 0x20, 0x21, 0x30, 0x31, 0x40, 0x41, 0x50, 0x51] →
    step s = .next { s.cleared with err := .illegalCommand }

/-- Rule R132: after a reset with an invalid catalog no operation is accepted, whatever the host does short of another
reset; after a reset with a valid one the block has left reset. -/
def Obligations.InvalidCatalogAcceptsNothing : Prop :=
  ∀ (c : Catalog) (as : List HostAction), (∀ a ∈ as, ∀ c', a ≠ .reset c') →
    (c.valid = false → step (as.foldl (fun s a => hostAct a s) (State.resetWith c)) = .refused .heldInReset) ∧
    (c.valid = true → (as.foldl (fun s a => hostAct a s) (State.resetWith c)).heldInReset = false)

/-- The state after reset (rule R32), its ROM built from the catalog (ResetBuildsTheTables says what that is). Two clauses
are the model's: that its reset state is the one with the default catalog is log 5, and that an empty buffer has no kind yet
is log 2. -/
def Obligations.ResetLeavesTheStatedState : Prop :=
  State.reset = State.resetWith defaultCatalog ∧ defaultCatalog.valid = true ∧
  ∀ c : Catalog, ∀ s, s = State.resetWith c →
    s.cmd = 0 ∧ s.argMethod = 0 ∧ s.argFactor = 0 ∧ s.argLen = 0 ∧
    s.phase = .header ∧ s.phase.code = 0 ∧ s.hdrMethod = 0 ∧ s.hdrFactor = 0 ∧ s.hdrSrcLen = 0 ∧
    s.err = .noError ∧ s.err.code = 0 ∧ s.uncorrCnt = 0 ∧ s.tailDropped = 0 ∧ s.padAmount = 0 ∧
    s.inBuf = .empty ∧ s.outBuf = .empty ∧ s.inBuf.len = 0 ∧ s.outBuf.len = 0 ∧ s.rom = Rom.ofCatalog c

/-- Rules R65 to R67 and R70: what reset puts into the ROM for each code parameter, entry by entry, from the catalog's
`P_j`: the sizes, G, H, and for a valid catalog the slot of every column of H, slot 0 undefined. -/
def Obligations.ResetBuildsTheTables : Prop :=
  ∀ c : Catalog, c.shaped → ∀ j ∈ Config.lbParams,
    ∀ T, T = (State.resetWith c).rom.code j → ∀ n k, n = 2 ^ j - 1 → k = n - j →
      T.g.length = k ∧ (∀ row ∈ T.g, row.length = n) ∧
      T.h.length = j ∧ (∀ row ∈ T.h, row.length = n) ∧ T.syn.length = 2 ^ j ∧ T.syn[0]? = some none ∧
      (∀ i < k, ∀ col < n, entry T.g i col = if col < k then decide (col = i) else entry (c.p j) i (col - k)) ∧
      (∀ t < j, ∀ col < n, entry T.h t col = if col < k then entry (c.p j) col t else decide (col - k = t)) ∧
      (c.valid = true → ∀ col < n, T.syn[val (column T.h col)]? = some (some col))

/-! ### Whole-machine rules -/

/-- The reset state, with the default catalog and with every catalog, meets the invariant of the states between two
operations (`State.Inv` in Safety.lean). -/
def Obligations.ResetMeetsTheInvariant : Prop :=
  State.reset.Inv ∧ ∀ c : Catalog, (State.resetWith c).Inv

/-- Rules R20 to R22, R107, R122, R124, R132: from every state that meets the invariant (`State.Inv` in Safety.lean), not
only from those a run reaches, every step that goes on ends in a state that meets it, and so does every run of steps and
host actions. -/
def Obligations.StepKeepsTheInvariant : Prop :=
  (∀ s t : State, s.Inv → step s = .next t → t.Inv) ∧
  (∀ (es : List Event) (s t : State), s.Inv → run es s = .next t → t.Inv)

/-- Rule R45: every operation is idempotent and no read has a side effect. A step leaves what it read as it was, and a
state in which the same step changes nothing at all, so `OUT` and every result register are the same every time. -/
def Obligations.StepIsIdempotent : Prop :=
  ∀ s t : State, step s = .next t →
    step t = .next t ∧ t.inBuf = s.inBuf ∧ t.rom = s.rom ∧ t.commandBytes = s.commandBytes

/-- Rule R31: no hidden state. A step's outcome, the whole next state included, is a function of the command, the operand
registers, `IN` and the ROM (and of being held in reset) and of nothing else. -/
def Obligations.OutcomeDependsOnTheRequestOnly : Prop :=
  ∀ s s' : State, s.cmd = s'.cmd → s.argMethod = s'.argMethod → s.argFactor = s'.argFactor → s.argLen = s'.argLen →
    s.inBuf = s'.inBuf → s.rom = s'.rom → s.heldInReset = s'.heldInReset → step s = step s'

/-- Rules R15, R17, R26 to R28, R125: no instruction and no step writes an operand register, `IN` (any index of it) or the
ROM, whether it ends normally or with an abort. -/
def Obligations.RequestAndRomAreNeverWritten : Prop :=
  (∀ (i : Instr) (s t : State), exec i s = .next t →
    t.cmd = s.cmd ∧ t.argMethod = s.argMethod ∧ t.argFactor = s.argFactor ∧ t.argLen = s.argLen ∧
    t.inBuf = s.inBuf ∧ t.rom = s.rom ∧ t.heldInReset = s.heldInReset) ∧
  (∀ s t : State, step s = .next t →
    t.cmd = s.cmd ∧ t.argMethod = s.argMethod ∧ t.argFactor = s.argFactor ∧ t.argLen = s.argLen ∧
    t.inBuf = s.inBuf ∧ t.rom = s.rom ∧ t.heldInReset = s.heldInReset)

/-- Rules R18, R20, R21, R23 to R25: a result register an instruction does not write is at its reset value after it,
never at a value left by an earlier one. Each line names the instructions that may write the register. -/
def Obligations.ResultRegistersAreFresh : Prop :=
  ∀ (i : Instr) (s t : State), exec i s = .next t →
    (i ≠ .decode → i.format = .cmd56 → t.phase = .header) ∧
    (i ≠ .decode → i ≠ .hdrdec → i.format = .cmd56 → t.hdrMethod = 0 ∧ t.hdrFactor = 0 ∧ t.hdrSrcLen = 0) ∧
    (i ≠ .decode → (∀ j, i ≠ .lbdec j) → i.format = .cmd56 → t.uncorrCnt = 0) ∧
    (i ≠ .decode → (∀ j, i ≠ .lbdec j) → (∀ n, i ≠ .repdec n) → i.format = .cmd56 → t.tailDropped = 0) ∧
    (i ≠ .bits2b → (∀ n, i ≠ .padblk n) → t.padAmount = 0)

/-- Rule R36: which kind each operation takes and gives. `IN` of the other kind is no request; an operation that does not
read `IN` gives the same whatever `IN` holds; the output of an operation that did not abort is of the kind of the table,
and `HDRDEC` writes no output. (The refusal as the outcome of a wrong kind is log 3.) -/
def Obligations.BufferKindsAsTabled : Prop :=
  (∀ (i : Instr) (s : State) (l : Bits), s.inBuf = .bits l →
    (i = .b2bits ∨ (∃ m f, i = .encode m f) ∨ i = .decode) → exec i s = .refused .wrongBufferKind) ∧
  (∀ (i : Instr) (s : State) (l : Bytes), s.inBuf = .bytes l →
    (i = .bits2b ∨ (∃ n, i = .padblk n) ∨ (∃ n, i = .trunc n) ∨ i = .hdrdec ∨ (∃ n, i = .repenc n) ∨
      (∃ n, i = .repdec n) ∨ (∃ j, i = .lbenc j) ∨ (∃ j, i = .lbdec j)) → exec i s = .refused .wrongBufferKind) ∧
  (∀ (i : Instr) (s : State) (b : Buffer),
    ((∃ j, i = .getg j) ∨ (∃ j, i = .geth j) ∨ (∃ j, i = .getsyn j) ∨ (∃ m f L, i = .hdrenc m f L)) →
    ∃ t, exec i s = .next t ∧ exec i { s with inBuf := b } = .next { t with inBuf := b }) ∧
  (∀ (i : Instr) (s t : State), exec i s = .next t → t.err = .noError →
    (((∃ j, i = .getg j) ∨ (∃ j, i = .geth j) ∨ i = .b2bits ∨ (∃ n, i = .padblk n) ∨ (∃ n, i = .trunc n) ∨
      (∃ m f L, i = .hdrenc m f L) ∨ (∃ n, i = .repenc n) ∨ (∃ n, i = .repdec n) ∨ (∃ j, i = .lbenc j) ∨
      (∃ j, i = .lbdec j)) → ∃ l, t.outBuf = .bits l) ∧
    (((∃ j, i = .getsyn j) ∨ i = .bits2b ∨ (∃ m f, i = .encode m f) ∨ i = .decode) → ∃ l, t.outBuf = .bytes l) ∧
    (i = .hdrdec → t.outBuf = .empty))

/-- Rule R135: every operation ends, given an `IN` of the kind it takes (or none where it reads none), in exactly one of
two ways: to its last line with `ERR` = 0, or by a raise with `ERR` ≠ 0 and `OUT` empty. -/
def Obligations.EveryRequestEnds : Prop :=
  ∀ (i : Instr) (s : State),
    ((i = .b2bits ∨ (∃ m f, i = .encode m f) ∨ i = .decode ∨ i.format = .hdr48) → ∃ buf, s.inBuf.isBytes buf) →
    ((i = .bits2b ∨ (∃ n, i = .padblk n) ∨ (∃ n, i = .trunc n) ∨ i = .hdrdec ∨ (∃ n, i = .repenc n) ∨
      (∃ n, i = .repdec n) ∨ (∃ j, i = .lbenc j) ∨ (∃ j, i = .lbdec j)) → ∃ bits, s.inBuf.isBits bits) →
    ∃ t, exec i s = .next t ∧
      ((t.err = .noError ∧ t.err.code = 0) ∨ (t.err ≠ .noError ∧ t.err.code ≠ 0 ∧ t.outBuf = .empty ∧ t.outBuf.len = 0))

/-- Rule R122: what an abort leaves. `ERR` and an empty `OUT`; of what the operation wrote before, only `DECODE` (or the
header form it fetched) has anything to keep, `PHASE` and the header fields; everything else is as at the start. -/
def Obligations.AbortLeavesOnlyTheCode : Prop :=
  ∀ (i : Instr) (s t : State), exec i s = .next t → t.err ≠ .noError →
    t = { s.cleared with
          err := t.err, phase := t.phase, hdrMethod := t.hdrMethod, hdrFactor := t.hdrFactor, hdrSrcLen := t.hdrSrcLen } ∧
    (i ≠ .decode → t = { s.cleared with err := t.err }) ∧
    (t.phase ≠ .header → t.phase = .payload ∧ (t.err = .unsupportedFactor ∨ t.err = .unsupportedParameter))

/-- Rule R130, the complete table: for every operation that ran, which fatal kind it raised as a function of its operands
and input, and what it counted: the rows of the payload or of `IN` that count as an `UncorrectableBlock`, the bits of the
dropped tail, 0 where the table's cell is blank or the operation aborted; `IllegalCommand` when `op` selects no
operation. -/
def Obligations.ErrorTable : Prop :=
  ∀ s t : State,
    (∀ j, (exec (.getg j) s = .next t ∨ exec (.geth j) s = .next t ∨ exec (.getsyn j) s = .next t) →
      t.err = (if j ∈ [3, 4, 5] then .noError else .unsupportedParameter) ∧ t.uncorrCnt = 0 ∧ t.tailDropped = 0) ∧
    (∀ E m f L, (exec .b2bits s = .next t ∨ exec .bits2b s = .next t ∨ exec (.trunc E) s = .next t ∨
      exec (.hdrenc m f L) s = .next t) → t.err = .noError ∧ t.uncorrCnt = 0 ∧ t.tailDropped = 0) ∧
    (∀ S, exec (.padblk S) s = .next t →
      t.err = (if S = 0 then .unsupportedParameter else .noError) ∧ t.uncorrCnt = 0 ∧ t.tailDropped = 0) ∧
    (∀ bits, s.inBuf.isBits bits →
      (exec .hdrdec s = .next t →
        t.err = (if bits.length < 144 then .headerCorrupt else .noError) ∧ t.uncorrCnt = 0 ∧ t.tailDropped = 0) ∧
      (∀ n, exec (.repenc n) s = .next t →
        t.err = (if n ∈ [3, 5, 7, 9] then .noError else .unsupportedFactor) ∧ t.uncorrCnt = 0 ∧ t.tailDropped = 0) ∧
      (∀ n, exec (.repdec n) s = .next t →
        t.err = (if n ∈ [3, 5, 7, 9] then .noError else .unsupportedFactor) ∧ t.uncorrCnt = 0 ∧
        t.tailDropped = if n ∈ [3, 5, 7, 9] then bits.length % n else 0) ∧
      (∀ j, exec (.lbenc j) s = .next t →
        t.err = (if j ∈ [3, 4, 5] then .noError else .unsupportedFactor) ∧ t.uncorrCnt = 0 ∧ t.tailDropped = 0) ∧
      (∀ j, exec (.lbdec j) s = .next t →
        t.err = (if j ∈ [3, 4, 5] then .noError else .unsupportedFactor) ∧
        t.uncorrCnt = (if j ∈ [3, 4, 5] then (lbDecode j (s.rom.code j) bits).uncorrectable else 0) ∧
        t.uncorrCnt ≤ (if j ∈ [3, 4, 5] then bits.length / (2 ^ j - 1) else 0) ∧
        t.tailDropped = if j ∈ [3, 4, 5] then bits.length % (2 ^ j - 1) else 0)) ∧
    (∀ buf, s.inBuf.isBytes buf →
      (∀ m f, exec (.encode m f) s = .next t →
        t.err = (if 2 ≤ m then .unsupportedParameter
          else if m = 0 ∧ f ∉ [3, 5, 7, 9] ∨ m = 1 ∧ f ∉ [3, 4, 5] then .unsupportedFactor
          else if 2 ^ 29 ≤ buf.length then .lengthOverflow else .noError) ∧ t.uncorrCnt = 0 ∧ t.tailDropped = 0) ∧
      (exec .decode s = .next t →
        ∀ h, h = parseRaw (recoverRaw (bytesToBits buf)) →
          t.err = (if buf.length < 18 then .headerCorrupt else if 2 ≤ h.method then .unsupportedParameter
            else if h.method = 0 ∧ h.factor ∉ [3, 5, 7, 9] ∨ h.method = 1 ∧ h.factor ∉ [3, 4, 5] then .unsupportedFactor
            else .noError) ∧
          (t.err ≠ .noError ∨ h.method = 0 → t.uncorrCnt = 0) ∧
          (t.err = .noError → h.method = 1 →
            t.uncorrCnt = (lbDecode h.factor (s.rom.code h.factor) ((bytesToBits buf).drop 144)).uncorrectable) ∧
          (t.err ≠ .noError → t.tailDropped = 0) ∧
          (t.err = .noError → h.method = 0 → t.tailDropped = (8 * buf.length - 144) % h.factor) ∧
          (t.err = .noError → h.method = 1 → t.tailDropped = (8 * buf.length - 144) % (2 ^ h.factor - 1)))) ∧
    (∀ r, s.heldInReset = false → decode .cmd56 s.commandBytes = .error r → step s = .next t → t.err = .illegalCommand)

/-! ### CodeCatalog -/

/-- Rule R71: `GETG j` gives `G_j` row after row, k·n bits, or raises `UnsupportedParameter` for a j that is no code
parameter. -/
def Obligations.GetgGivesTheGenerator : Prop :=
  (∀ m f l3 l2 l1 l0 : Byte, decode .cmd56 [0x01, m, f, l3, l2, l1, l0] = .ok (.getg f.toNat)) ∧
  (∀ (s : State) (c : Catalog) (j : Nat), s.holdsCatalog c → j ∈ [3, 4, 5] → ∀ n k, n = 2 ^ j - 1 → k = n - j →
    ∃ out, exec (.getg j) s = .next { s.cleared with outBuf := .bits out } ∧ out.length = k * n ∧
      ∀ r < k, ∀ col < n,
        out[r * n + col]? = some (if col < k then decide (col = r) else entry (c.p j) r (col - k))) ∧
  (∀ (s : State) (j : Nat), j ∉ [3, 4, 5] →
    exec (.getg j) s = .next { s.cleared with err := .unsupportedParameter })

/-- Rule R72: `GETH j` gives `H_j` row after row, j·n bits, or raises `UnsupportedParameter`. -/
def Obligations.GethGivesTheParityCheck : Prop :=
  (∀ m f l3 l2 l1 l0 : Byte, decode .cmd56 [0x02, m, f, l3, l2, l1, l0] = .ok (.geth f.toNat)) ∧
  (∀ (s : State) (c : Catalog) (j : Nat), s.holdsCatalog c → j ∈ [3, 4, 5] → ∀ n k, n = 2 ^ j - 1 → k = n - j →
    ∃ out, exec (.geth j) s = .next { s.cleared with outBuf := .bits out } ∧ out.length = j * n ∧
      ∀ t < j, ∀ col < n,
        out[t * n + col]? = some (if col < k then entry (c.p j) col t else decide (col - k = t))) ∧
  (∀ (s : State) (j : Nat), j ∉ [3, 4, 5] →
    exec (.geth j) s = .next { s.cleared with err := .unsupportedParameter })

/-- Rule R73: `GETSYN j` gives 2^j bytes: byte 0 is 0xFF; the byte of the syndrome that is row i of `P_j` is i; the byte of
the syndrome with a single 1 at index t is k + t. Of a valid catalog these are all the bytes. Or it raises
`UnsupportedParameter`. -/
def Obligations.GetsynGivesTheTable : Prop :=
  (∀ m f l3 l2 l1 l0 : Byte, decode .cmd56 [0x03, m, f, l3, l2, l1, l0] = .ok (.getsyn f.toNat)) ∧
  (∀ (s : State) (c : Catalog) (j : Nat), s.holdsCatalog c → j ∈ [3, 4, 5] → ∀ n k, n = 2 ^ j - 1 → k = n - j →
    ∃ out, exec (.getsyn j) s = .next { s.cleared with outBuf := .bytes out } ∧ out.length = 2 ^ j ∧
      out[0]? = some 0xFF ∧ (∀ i < k, out[val ((c.p j).getD i [])]? = some (BitVec.ofNat 8 i)) ∧
      (∀ t < j, out[2 ^ (j - 1 - t)]? = some (BitVec.ofNat 8 (k + t))) ∧
      (∀ v, 0 < v → v < 2 ^ j → ∃ col < n, out[v]? = some (BitVec.ofNat 8 col))) ∧
  (∀ (s : State) (j : Nat), j ∉ [3, 4, 5] →
    exec (.getsyn j) s = .next { s.cleared with err := .unsupportedParameter })

/-- Rule R68, its consequence: in a valid catalog the n columns of `H_j` are all the nonzero j-bit vectors, each once, and
the rows of `P_j` are exactly the vectors of weight 2 or more, each once. -/
def Obligations.ValidCatalogHoldsEveryColumnOnce : Prop :=
  ∀ c : Catalog, c.valid = true → ∀ j ∈ [3, 4, 5],
    (∀ v : Bits, v.length = j → (∃ b ∈ v, b = true) →
      ∃ col < 2 ^ j - 1, column (CodeTables.build j (c.p j)).h col = v ∧
        ∀ col' < 2 ^ j - 1, column (CodeTables.build j (c.p j)).h col' = v → col' = col) ∧
    (∀ v : Bits, v ∈ c.p j ↔ v.length = j ∧ 2 ≤ popcount v) ∧ (c.p j).Nodup

/-! ### BitFramer -/

/-- Rule R74: `B2BITS`: `OUT[8·i + t] = (buf[i] >> (7 − t)) & 1`, 8·B bits. -/
def Obligations.B2bitsUnpacksMsbFirst : Prop :=
  (∀ m f l3 l2 l1 l0 : Byte, decode .cmd56 [0x10, m, f, l3, l2, l1, l0] = .ok .b2bits) ∧
  ∀ (s : State) (buf : Bytes), s.inBuf.isBytes buf →
    ∃ out, exec .b2bits s = .next { s.cleared with outBuf := .bits out } ∧ out.length = 8 * buf.length ∧
      ∀ i < buf.length, ∀ t < 8, out[8 * i + t]? = some ((buf.getD i 0).getLsbD (7 - t))

/-- Rule R75: `BITS2B`: ⌈L/8⌉ bytes, the first bit of each eight the most significant, zeros after the last bit;
`PAD_AMOUNT` is the number of those zeros. -/
def Obligations.Bits2bPacksAndPads : Prop :=
  (∀ m f l3 l2 l1 l0 : Byte, decode .cmd56 [0x11, m, f, l3, l2, l1, l0] = .ok .bits2b) ∧
  ∀ (s : State) (bits : Bits), s.inBuf.isBits bits →
    ∃ out, exec .bits2b s =
        .next { s.cleared with outBuf := .bytes out, padAmount := (8 - bits.length % 8) % 8 } ∧
      out.length = (bits.length + 7) / 8 ∧ 8 * out.length = bits.length + (8 - bits.length % 8) % 8 ∧
      ∀ i < out.length, ∀ t < 8, (out.getD i 0).getLsbD (7 - t) = bits.getD (8 * i + t) false

/-- Rule R76: `PADBLK S`: the sequence followed by p zeros, p the least number that makes the length a multiple of S;
`PAD_AMOUNT` is p. S = 0 raises `UnsupportedParameter`. -/
def Obligations.PadblkPadsToTheBlock : Prop :=
  (∀ m f l3 l2 l1 l0 : Byte, decode .cmd56 [0x12, m, f, l3, l2, l1, l0] =
    .ok (.padblk (((l3.toNat * 256 + l2.toNat) * 256 + l1.toNat) * 256 + l0.toNat))) ∧
  (∀ (s : State) (bits : Bits) (S : Nat), s.inBuf.isBits bits → S ≠ 0 →
    ∃ p, exec (.padblk S) s =
        .next { s.cleared with outBuf := .bits (bits ++ List.replicate p false), padAmount := p } ∧
      p < S ∧ (bits.length + p) % S = 0 ∧ p = (S - bits.length % S) % S) ∧
  (∀ (s : State) (bits : Bits), s.inBuf.isBits bits →
    exec (.padblk 0) s = .next { s.cleared with err := .unsupportedParameter })

/-- Rule R77: `TRUNC E`: the first min(E, L) bits; never extended. -/
def Obligations.TruncNeverExtends : Prop :=
  (∀ m f l3 l2 l1 l0 : Byte, decode .cmd56 [0x13, m, f, l3, l2, l1, l0] =
    .ok (.trunc (((l3.toNat * 256 + l2.toNat) * 256 + l1.toNat) * 256 + l0.toNat))) ∧
  ∀ (s : State) (bits : Bits) (E : Nat), s.inBuf.isBits bits →
    ∃ out, exec (.trunc E) s = .next { s.cleared with outBuf := .bits out } ∧ out.length = min E bits.length ∧
      (∀ i < out.length, out[i]? = bits[i]?) ∧ (bits.length ≤ E → out = bits)

/-- Rule R78: the laws of the framer. -/
def Obligations.FramerLaws : Prop :=
  (∀ buf : Bytes, bitsToBytes (bytesToBits buf) = buf) ∧
  (∀ s : Bits, bytesToBits (bitsToBytes s) = s ++ zeros ((8 - s.length % 8) % 8) ∧
    truncate (bytesToBits (bitsToBytes s)) s.length = s) ∧
  (∀ (s : Bits) (S : Nat), 1 ≤ S → truncate (padToBlock s S).1 s.length = s ∧
    (padToBlock s S).1.length = S * ((s.length + S - 1) / S)) ∧
  (∀ (s : Bits) (E E' : Nat), truncate s E <+: s ∧ truncate (truncate s E) E' = truncate s (min E E'))

/-- Rule R63: the host's `.flip i` on a byte buffer is the inversion of bit index i of the buffer seen as a bit sequence;
`.mov` keeps kind and length. Neither touches anything but `IN`. -/
def Obligations.HostFlipAndMov : Prop :=
  (∀ (s : State) (buf : Bytes) (i : Nat), s.inBuf = .bytes buf → i < 8 * buf.length →
    ∃ buf', hostAct (.flip i) s = { s with inBuf := .bytes buf' } ∧ buf'.length = buf.length ∧
      ∀ x, (bytesToBits buf')[x]? = if x = i then (bytesToBits buf)[x]?.map not else (bytesToBits buf)[x]?) ∧
  (∀ (s : State) (bits : Bits) (i : Nat), s.inBuf = .bits bits → i < bits.length →
    ∃ bits', hostAct (.flip i) s = { s with inBuf := .bits bits' } ∧
      ∀ x, bits'[x]? = if x = i then bits[x]?.map not else bits[x]?) ∧
  (∀ s : State, hostAct .mov s = { s with inBuf := s.outBuf })

/-! ### HeaderCodec -/

/-- Rule R80 with R53: `HDRENC`: 144 bits, bit t of the raw word `be_8(m) ‖ be_8(f) ‖ be_32(L)` at indexes 3t, 3t+1, 3t+2,
for every operand value. -/
def Obligations.HdrencTriplesTheRawWord : Prop :=
  (∀ m f l3 l2 l1 l0 : Byte, decode .cmd56 [0x20, m, f, l3, l2, l1, l0] =
    .ok (.hdrenc m.toNat f.toNat (((l3.toNat * 256 + l2.toNat) * 256 + l1.toNat) * 256 + l0.toNat))) ∧
  ∀ (s : State) (m f L : Nat), m < 256 → f < 256 → L < 2 ^ 32 →
    ∃ out, exec (.hdrenc m f L) s = .next { s.cleared with outBuf := .bits out } ∧ out.length = 144 ∧
      ∀ t < 48, ∀ c < 3, out[3 * t + c]? = some ((m * 2 ^ 40 + f * 2 ^ 32 + L).testBit (47 - t))

/-- Rule R81: `HDRDEC`: each raw bit the majority of its three, the three fields into their registers, whatever follows
bit 143 and whatever the fields are; `HeaderCorrupt` exactly for fewer than 144 bits. -/
def Obligations.HdrdecRecoversTheFields : Prop :=
  (∀ m f l3 l2 l1 l0 : Byte, decode .cmd56 [0x21, m, f, l3, l2, l1, l0] = .ok .hdrdec) ∧
  (∀ (s : State) (F : Bits), s.inBuf.isBits F → 144 ≤ F.length →
    ∃ raw : Bits, raw.length = 48 ∧
      (∀ t < 48, raw[t]? = some (decide (2 ≤ (F.getD (3 * t) false).toNat + (F.getD (3 * t + 1) false).toNat +
        (F.getD (3 * t + 2) false).toNat))) ∧
      exec .hdrdec s = .next { s.cleared with
        hdrMethod := BitVec.ofNat 8 (val (slice raw 0 8)), hdrFactor := BitVec.ofNat 8 (val (slice raw 8 16)),
        hdrSrcLen := BitVec.ofNat 32 (val (slice raw 16 48)), tailDropped := 0 }) ∧
  (∀ (s : State) (F : Bits), s.inBuf.isBits F → F.length < 144 →
    exec .hdrdec s = .next { s.cleared with err := .headerCorrupt })

/-- Rule R83: the header round trip, with at most one flip in each of the 48 groups and anything after the header; and two
or three flips in a group invert its raw bit. -/
def Obligations.HeaderSurvivesOneFlipPerGroup : Prop :=
  (∀ (s : State) (m f L : Nat) (e rest : Bits), m < 256 → f < 256 → L < 2 ^ 32 → e.length = 144 → sparseErrors 3 1 e →
    s.inBuf = .bits (xorBits (encodeHeader m f L) e ++ rest) →
    exec .hdrdec s = .next { s.cleared with
      hdrMethod := BitVec.ofNat 8 m, hdrFactor := BitVec.ofNat 8 f, hdrSrcLen := BitVec.ofNat 32 L } ∧
    decodeHeader (xorBits (encodeHeader m f L) e ++ rest) = some ⟨m, f, L⟩) ∧
  (∀ (m f L : Nat) (e rest : Bits) (t : Nat), e.length = 144 → t < 48 →
    2 ≤ popcount (slice e (3 * t) (3 * t + 3)) →
    (recoverRaw (xorBits (encodeHeader m f L) e ++ rest))[t]? = (rawHeader m f L)[t]?.map not)

/-! ### RepetitionCoder -/

/-- Rule R87: `REPENC n`: bit i at indexes n·i to n·i + n − 1, n·L bits; `UnsupportedFactor` unless n ∈ {3, 5, 7, 9}. -/
def Obligations.RepencCopiesEachBit : Prop :=
  (∀ m f l3 l2 l1 l0 : Byte, decode .cmd56 [0x30, m, f, l3, l2, l1, l0] = .ok (.repenc f.toNat)) ∧
  ∀ (s : State) (bits : Bits) (n : Nat), s.inBuf.isBits bits →
    (n ∈ [3, 5, 7, 9] →
      ∃ out, exec (.repenc n) s = .next { s.cleared with outBuf := .bits out } ∧ out.length = n * bits.length ∧
        ∀ i < bits.length, ∀ c < n, out[n * i + c]? = bits[i]?) ∧
    (n ∉ [3, 5, 7, 9] → exec (.repenc n) s = .next { s.cleared with err := .unsupportedFactor })

/-- Rules R86, R88, R89: `REPDEC n`: output bit i is 1 exactly when ones outnumber zeros in group i, ⌊L/n⌋ bits, the tail
counted; `UnsupportedFactor` unless n ∈ {3, 5, 7, 9}. -/
def Obligations.RepdecVotesPerGroup : Prop :=
  (∀ m f l3 l2 l1 l0 : Byte, decode .cmd56 [0x31, m, f, l3, l2, l1, l0] = .ok (.repdec f.toNat)) ∧
  ∀ (s : State) (bits : Bits) (n : Nat), s.inBuf.isBits bits →
    (n ∈ [3, 5, 7, 9] →
      ∃ out, exec (.repdec n) s =
          .next { s.cleared with outBuf := .bits out, tailDropped := bits.length % n } ∧
        out.length = bits.length / n ∧
        ∀ i < bits.length / n, out[i]? = some (decide (n < 2 * popcount (slice bits (n * i) (n * i + n))))) ∧
    (n ∉ [3, 5, 7, 9] → exec (.repdec n) s = .next { s.cleared with err := .unsupportedFactor })

/-- Rule R90: the round trip of a whole sequence, with up to ⌊(n−1)/2⌋ flips in each group and an incomplete tail of fewer
than n arbitrary bits, which is only counted; one flip more in any group of an encoded sequence, whatever the other groups
and what follows, always inverts the bit of that group; a whole group of zeros appends one decoded 0. -/
def Obligations.RepetitionTolerance : Prop :=
  (∀ (s : State) (bits e tail : Bits) (n : Nat), n ∈ [3, 5, 7, 9] → e.length = n * bits.length →
    sparseErrors n ((n - 1) / 2) e → tail.length < n →
    s.inBuf = .bits (xorBits (repEncode bits n) e ++ tail) →
    exec (.repdec n) s = .next { s.cleared with outBuf := .bits bits, tailDropped := tail.length }) ∧
  (∀ (s : State) (bits e rest : Bits) (n : Nat), n ∈ [3, 5, 7, 9] → e.length = n * bits.length →
    s.inBuf = .bits (xorBits (repEncode bits n) e ++ rest) →
    ∃ out, exec (.repdec n) s = .next { s.cleared with outBuf := .bits out, tailDropped := rest.length % n } ∧
      out.length = bits.length + rest.length / n ∧
      ∀ i < bits.length, (n - 1) / 2 < popcount (slice e (n * i) (n * i + n)) → out[i]? = bits[i]?.map not) ∧
  (∀ (bits : Bits) (n : Nat), n ∈ [3, 5, 7, 9] →
    (repDecode (repEncode bits n ++ zeros n) n).1 = bits ++ [false])

/-! ### LinearBlockCoder -/

/-- Rules R92, R96: `LBENC j`, bit by bit: ⌈L/k⌉ rows of n bits, the information bits (zeros past the end of the input)
unchanged and first, then the j parity bits, then zeros to a multiple of 8; `UnsupportedFactor` unless j ∈ {3, 4, 5}. -/
def Obligations.LbencEncodesRowByRow : Prop :=
  (∀ m f l3 l2 l1 l0 : Byte, decode .cmd56 [0x40, m, f, l3, l2, l1, l0] = .ok (.lbenc f.toNat)) ∧
  (∀ (s : State) (c : Catalog) (bits : Bits) (j : Nat), s.holdsCatalog c → s.inBuf.isBits bits → j ∈ [3, 4, 5] →
    ∀ n k R, n = 2 ^ j - 1 → k = n - j → R = (bits.length + k - 1) / k →
      ∃ out, exec (.lbenc j) s = .next { s.cleared with outBuf := .bits out } ∧
        out.length = 8 * ((n * R + 7) / 8) ∧
        (∀ r < R, ∀ i < k, out[n * r + i]? = some (bits.getD (k * r + i) false)) ∧
        (∀ r < R, ∀ t < j, out[n * r + k + t]? =
          some (xorOver k fun i => bits.getD (k * r + i) false && entry (c.p j) i t)) ∧
        (∀ x, n * R ≤ x → x < out.length → out[x]? = some false)) ∧
  (∀ (s : State) (bits : Bits) (j : Nat), s.inBuf.isBits bits → j ∉ [3, 4, 5] →
    exec (.lbenc j) s = .next { s.cleared with err := .unsupportedFactor })

/-- Rules R93 to R95, R97 to R99 for a valid catalog: `LBDEC j`, row by row: a row with zero syndrome gives its first k
bits; a row whose syndrome is column pos of H gives them with bit pos inverted where pos < k; `UNCORR_CNT` is the number
of rows whose syndrome is a parity column; the tail is counted. `UnsupportedFactor` unless j ∈ {3, 4, 5}. -/
def Obligations.LbdecCorrectsRowByRow : Prop :=
  (∀ m f l3 l2 l1 l0 : Byte, decode .cmd56 [0x41, m, f, l3, l2, l1, l0] = .ok (.lbdec f.toNat)) ∧
  (∀ (s : State) (c : Catalog) (bits : Bits) (j : Nat), s.holdsCatalog c → s.inBuf.isBits bits → j ∈ [3, 4, 5] →
    ∀ n k R, n = 2 ^ j - 1 → k = n - j → R = bits.length / n →
      ∃ out cnt, exec (.lbdec j) s = .next { s.cleared with
            outBuf := .bits out, uncorrCnt := cnt, tailDropped := bits.length % n } ∧
        out.length = k * R ∧
        (∀ r < R, (∀ t < j, rowSyndromeBit c j bits r t = false) → ∀ i < k, out[k * r + i]? = bits[n * r + i]?) ∧
        (∀ r < R, ∀ pos < k, (∀ t < j, rowSyndromeBit c j bits r t = entry (c.p j) pos t) →
          ∀ i < k, out[k * r + i]? = if i = pos then bits[n * r + i]?.map not else bits[n * r + i]?) ∧
        (∀ r < R, ∀ u < j, (∀ t < j, rowSyndromeBit c j bits r t = decide (t = u)) →
          ∀ i < k, out[k * r + i]? = bits[n * r + i]?) ∧
        cnt = (List.range R).countP fun r =>
          (List.range j).any fun u => (List.range j).all fun t => rowSyndromeBit c j bits r t == decide (t = u)) ∧
  (∀ (s : State) (bits : Bits) (j : Nat), s.inBuf.isBits bits → j ∉ [3, 4, 5] →
    exec (.lbdec j) s = .next { s.cleared with err := .unsupportedFactor })

/-- Rule R100, the algebra of the code: (a) a codeword has zero syndrome, (b) the syndrome is linear, (c) the syndrome of a
single error is its column, all three for any catalog; (d) for every valid catalog `LBDEC` of a codeword with one wrong
bit at p gives the information word back, with count 0 for an information position and 1 for a parity position. -/
def Obligations.SingleErrorsAreCorrected : Prop :=
  (∀ c : Catalog, c.shaped → ∀ j ∈ [3, 4, 5], ∀ T, T = (Rom.ofCatalog c).code j → ∀ n k, n = 2 ^ j - 1 → k = n - j →
    (∀ u : Bits, u.length = k → syndrome T.h (encRow n T.g u) = zeros j) ∧
    (∀ r e : Bits, r.length = n → e.length = n →
      syndrome T.h (xorBits r e) = xorBits (syndrome T.h r) (syndrome T.h e)) ∧
    (∀ p < n, syndrome T.h (flipAt (zeros n) p) = column T.h p)) ∧
  (∀ (s : State) (c : Catalog) (j : Nat) (u : Bits) (p : Nat), s.holdsCatalog c → j ∈ [3, 4, 5] →
    ∀ n k, n = 2 ^ j - 1 → k = n - j → u.length = k → p < n →
      s.inBuf = .bits (flipAt (encRow n (s.rom.code j).g u) p) →
      exec (.lbdec j) s = .next { s.cleared with
        outBuf := .bits u, uncorrCnt := if p < k then 0 else 1 })

/-- Rule R101: two wrong bits in a row are handled as one at a third position, whose information bit is flipped without a
count or which is a parity position and is counted; three errors whose columns cancel pass as no error. -/
def Obligations.DoubleErrorsAreMiscorrected : Prop :=
  ∀ (s : State) (c : Catalog) (j : Nat) (u : Bits) (a b : Nat), s.holdsCatalog c → j ∈ [3, 4, 5] →
    ∀ n k, n = 2 ^ j - 1 → k = n - j → u.length = k → a < n → b < n → a ≠ b →
      ∀ r, r = flipAt (flipAt (encRow n (s.rom.code j).g u) a) b →
        ∃ d < n, d ≠ a ∧ d ≠ b ∧
          column (s.rom.code j).h d = xorBits (column (s.rom.code j).h a) (column (s.rom.code j).h b) ∧
          (s.inBuf = .bits r → d < k →
            exec (.lbdec j) s = .next { s.cleared with outBuf := .bits ((flipAt r d).take k) }) ∧
          (s.inBuf = .bits r → k ≤ d →
            exec (.lbdec j) s = .next { s.cleared with outBuf := .bits (r.take k), uncorrCnt := 1 }) ∧
          (s.inBuf = .bits (flipAt r d) →
            exec (.lbdec j) s = .next { s.cleared with outBuf := .bits ((flipAt r d).take k) })

/-- Rule R102: what `LBDEC` makes of what `LBENC` gave, for a sequence of any length: it begins with the sequence, with
zero count; its length is k times the number of rows, one row more exactly when j = 3 and R mod 8 = 7; and for one block
of k bits it is the block itself, with one bit dropped. -/
def Obligations.LinearBlockRoundTrip : Prop :=
  ∀ (s : State) (c : Catalog) (j : Nat) (bits : Bits), s.holdsCatalog c → j ∈ [3, 4, 5] →
    ∀ n k R, n = 2 ^ j - 1 → k = n - j → R = (bits.length + k - 1) / k →
      s.inBuf = .bits (lbEncode j (s.rom.code j) bits) →
      ∃ out tail, exec (.lbdec j) s = .next { s.cleared with outBuf := .bits out, tailDropped := tail } ∧
        truncate out bits.length = bits ∧ out.length = k * (if j = 3 ∧ R % 8 = 7 then R + 1 else R) ∧
        (bits.length = k → out = bits ∧ tail = 1)

/-! ### Pipeline -/

/-- Rules R104 to R106, R124 (2): `ENCODE`: the frame's bits are the header of (m, f, 8·B) followed by the payload, with no
alignment bit; the errors in the order method, factor, length. -/
def Obligations.EncodeBuildsTheFrame : Prop :=
  (∀ m f l3 l2 l1 l0 : Byte, decode .cmd56 [0x50, m, f, l3, l2, l1, l0] = .ok (.encode m.toNat f.toNat)) ∧
  ∀ (s : State) (buf : Bytes) (m f : Nat), s.inBuf.isBytes buf →
    (m = 0 → f ∈ [3, 5, 7, 9] → buf.length < 2 ^ 29 →
      ∃ frame, exec (.encode m f) s = .next { s.cleared with outBuf := .bytes frame } ∧
        bytesToBits frame = encodeHeader 0 f (8 * buf.length) ++ repEncode (bytesToBits buf) f) ∧
    (m = 1 → f ∈ [3, 4, 5] → buf.length < 2 ^ 29 → (∃ c, s.holdsCatalog c) →
      ∃ frame, exec (.encode m f) s = .next { s.cleared with outBuf := .bytes frame } ∧
        bytesToBits frame = encodeHeader 1 f (8 * buf.length) ++ lbEncode f (s.rom.code f) (bytesToBits buf)) ∧
    (2 ≤ m → exec (.encode m f) s = .next { s.cleared with err := .unsupportedParameter }) ∧
    ((m = 0 ∧ f ∉ [3, 5, 7, 9] ∨ m = 1 ∧ f ∉ [3, 4, 5]) →
      exec (.encode m f) s = .next { s.cleared with err := .unsupportedFactor }) ∧
    ((m = 0 ∧ f ∈ [3, 5, 7, 9] ∨ m = 1 ∧ f ∈ [3, 4, 5]) → 2 ^ 29 ≤ buf.length →
      exec (.encode m f) s = .next { s.cleared with err := .lengthOverflow })

/-- Rule R55, its table: the bytes of a frame made from B input bytes. -/
def Obligations.FrameSizes : Prop :=
  ∀ (s t : State) (c : Catalog) (buf : Bytes) (m f : Nat), s.holdsCatalog c → s.inBuf.isBytes buf →
    exec (.encode m f) s = .next t → t.err = .noError →
    (m = 0 → t.outBuf.len = 18 + f * buf.length) ∧
    (m = 1 → ∀ n k, n = 2 ^ f - 1 → k = n - f →
      t.outBuf.len = 18 + (n * ((8 * buf.length + k - 1) / k) + 7) / 8)

/-- Rules R108 to R111: `DECODE`, every case, from the header the frame's first 144 bits spell: the phase, the header
registers, the counters, the output, the errors. -/
def Obligations.DecodeByTheHeader : Prop :=
  (∀ m f l3 l2 l1 l0 : Byte, decode .cmd56 [0x51, m, f, l3, l2, l1, l0] = .ok .decode) ∧
  ∀ (s : State) (frame : Bytes), s.inBuf.isBytes frame →
    (frame.length < 18 → exec .decode s = .next { s.cleared with err := .headerCorrupt }) ∧
    (18 ≤ frame.length → ∀ F pl m f L, F = bytesToBits frame → pl = F.drop 144 →
      decodeHeader F = some ⟨m, f, L⟩ →
      ∀ h, h = { s.cleared with
        hdrMethod := BitVec.ofNat 8 m, hdrFactor := BitVec.ofNat 8 f, hdrSrcLen := BitVec.ofNat 32 L } →
        (m = 0 → f ∈ [3, 5, 7, 9] → exec .decode s = .next { h with
          phase := .done, tailDropped := pl.length % f,
          outBuf := .bytes (bitsToBytes ((repDecode pl f).1.take L)) }) ∧
        (m = 1 → f ∈ [3, 4, 5] → exec .decode s = .next { h with
          phase := .done, uncorrCnt := (lbDecode f (s.rom.code f) pl).uncorrectable,
          tailDropped := pl.length % (2 ^ f - 1),
          outBuf := .bytes (bitsToBytes ((lbDecode f (s.rom.code f) pl).decoded.take L)) }) ∧
        ((m = 0 ∧ f ∉ [3, 5, 7, 9] ∨ m = 1 ∧ f ∉ [3, 4, 5]) →
          exec .decode s = .next { h with phase := .payload, err := .unsupportedFactor }) ∧
        (2 ≤ m → exec .decode s = .next { h with phase := .payload, err := .unsupportedParameter }))

/-- Rules R56, R109: what each of the seven header forms makes of the frame it was fetched from: the payload decoder its
row names, on all bits from index 144 on, and the cut to its source length. That a header form is an instruction of its
own is the model's reading (log 9). -/
def Obligations.HeaderFormsDecodeThePayload : Prop :=
  ∀ (s : State) (frame : Bytes) (L : Nat), s.inBuf.isBytes frame → ∀ pl, pl = (bytesToBits frame).drop 144 →
    (∀ p ∈ [(Instr.hdrRep3 L, 3), (.hdrRep5 L, 5), (.hdrRep7 L, 7), (.hdrRep9 L, 9)],
      exec p.1 s = .next { s.cleared with
        hdrMethod := 0, hdrFactor := BitVec.ofNat 8 p.2, hdrSrcLen := BitVec.ofNat 32 L, phase := .done,
        tailDropped := pl.length % p.2, outBuf := .bytes (bitsToBytes ((repDecode pl p.2).1.take L)) }) ∧
    (∀ p ∈ [(Instr.hdrLb3 L, 3), (.hdrLb4 L, 4), (.hdrLb5 L, 5)],
      exec p.1 s = .next { s.cleared with
        hdrMethod := 1, hdrFactor := BitVec.ofNat 8 p.2, hdrSrcLen := BitVec.ofNat 32 L, phase := .done,
        uncorrCnt := (lbDecode p.2 (s.rom.code p.2) pl).uncorrectable, tailDropped := pl.length % (2 ^ p.2 - 1),
        outBuf := .bytes (bitsToBytes ((lbDecode p.2 (s.rom.code p.2) pl).decoded.take L)) })

/-- Rule R107: the last value of `PHASE` after a `DECODE` tells how it ended, each of the three exactly. -/
def Obligations.PhaseTellsHowDecodeEnded : Prop :=
  ∀ s t : State, exec .decode s = .next t →
    (t.phase = .header ↔ t.err = .headerCorrupt) ∧
    (t.phase = .payload ↔ t.err = .unsupportedFactor ∨ t.err = .unsupportedParameter) ∧
    (t.phase = .done ↔ t.err = .noError)

/-- Rule R111: the length of what `DECODE` gives: ⌈min(L, len(d))/8⌉ bytes, d being what the payload decoder made of the
frame, so exactly ⌈L/8⌉ when enough was decoded, and never extended when not. -/
def Obligations.DecodeOutputLength : Prop :=
  ∀ (s t : State) (c : Catalog) (frame : Bytes), s.holdsCatalog c → s.inBuf.isBytes frame →
    exec .decode s = .next t → t.err = .noError → ∀ d P f, P = 8 * frame.length - 144 → f = t.hdrFactor.toNat →
      d = (if t.hdrMethod = 0 then P / f else (2 ^ f - 1 - f) * (P / (2 ^ f - 1))) →
      t.outBuf.len = (min t.hdrSrcLen.toNat d + 7) / 8 ∧
      (t.hdrSrcLen.toNat ≤ d → t.outBuf.len = (t.hdrSrcLen.toNat + 7) / 8)

/-- Rule R136: the decoder assembled from component operations. On any frame `DECODE` decodes, `B2BITS`, then `HDRDEC`, the
payload decoder the header names on the bits from index 144, `TRUNC` with `HDR_SRCLEN` and `BITS2B`, each given the
output of the one before, end with the output of `DECODE`. -/
def Obligations.DecodeFromComponents : Prop :=
  ∀ (s t : State) (frame : Bytes), s.inBuf = .bytes frame → exec .decode s = .next t → t.err = .noError →
    ∃ t0 t1 t2 t3 t4 : State, ∃ F : Bits,
      exec .b2bits s = .next t0 ∧ t0.outBuf = .bits F ∧
      exec .hdrdec { t0 with inBuf := t0.outBuf } = .next t1 ∧ t1.hdrMethod = t.hdrMethod ∧
      t1.hdrFactor = t.hdrFactor ∧ t1.hdrSrcLen = t.hdrSrcLen ∧
      exec (if t1.hdrMethod = 0 then .repdec t1.hdrFactor.toNat else .lbdec t1.hdrFactor.toNat)
        { t1 with inBuf := .bits (F.drop 144) } = .next t2 ∧
      t2.uncorrCnt = t.uncorrCnt ∧ t2.tailDropped = t.tailDropped ∧
      exec (.trunc t1.hdrSrcLen.toNat) { t2 with inBuf := t2.outBuf } = .next t3 ∧
      exec .bits2b { t3 with inBuf := t3.outBuf } = .next t4 ∧ t4.outBuf = t.outBuf

/-- Rule R112 (a), (b): for every byte buffer of fewer than 2^29 bytes, every legal method and factor and every valid
catalog, `DECODE` of what `ENCODE` gave is the buffer, with no count, and the recovered source length is the original bit
count. -/
def Obligations.EncodeDecodeRoundTrip : Prop :=
  ∀ (s : State) (c : Catalog) (buf : Bytes) (m f : Nat), s.holdsCatalog c → s.inBuf.isBytes buf →
    buf.length < 2 ^ 29 → (m = 0 ∧ f ∈ [3, 5, 7, 9] ∨ m = 1 ∧ f ∈ [3, 4, 5]) →
    ∃ t, exec (.encode m f) s = .next t ∧ t.err = .noError ∧
      ∃ u, exec .decode (hostAct .mov t) = .next u ∧ u.outBuf = .bytes buf ∧ u.err = .noError ∧ u.uncorrCnt = 0 ∧
        u.phase = .done ∧ u.hdrMethod = BitVec.ofNat 8 m ∧ u.hdrFactor = BitVec.ofNat 8 f ∧
        u.hdrSrcLen.toNat = 8 * buf.length

/-- Rule R112 (c): the same through a channel that inverts bits, at most one in each 3-bit header group and, in the
payload, at most ⌊(n−1)/2⌋ per repetition group or at most one per n-bit row; the count is then the number of rows whose
single error was in a parity position. -/
def Obligations.DecodeCorrectsChannelErrors : Prop :=
  ∀ (s : State) (c : Catalog) (buf : Bytes) (m f : Nat), s.holdsCatalog c → s.inBuf.isBytes buf →
    buf.length < 2 ^ 29 →
    ∃ t frame, exec (.encode m f) s = .next t ∧
      (t.err = .noError → t.outBuf = .bytes frame ∧
        ∀ e : Bits, e.length = 8 * frame.length → sparseErrors 3 1 (e.take 144) →
          ∀ s', s' = { t with inBuf := .bytes (bitsToBytes (xorBits (bytesToBits frame) e)) } →
            (m = 0 → sparseErrors f ((f - 1) / 2) (e.drop 144) →
              ∃ u, exec .decode s' = .next u ∧ u.outBuf = .bytes buf ∧ u.err = .noError ∧ u.uncorrCnt = 0) ∧
            (m = 1 → ∀ n k R, n = 2 ^ f - 1 → k = n - f → R = (8 * buf.length + k - 1) / k →
              oneErrorPerRow n R (e.drop 144) →
              ∃ u, exec .decode s' = .next u ∧ u.outBuf = .bytes buf ∧ u.err = .noError ∧
                u.uncorrCnt = (List.range R).countP fun g =>
                  decide (popcount (slice (e.drop 144) (n * g + k) (n * g + n)) = 1)))
end

