-- ==== Sys2Proof/Laws/Bits.lean ====
section
/-! SUPPORT. The small lemmas of the bit-sequence notation (Machine/Bits.lean): lengths, entries, appends, the two
directions of `be` and `val`, exclusive or, popcount, groups. -/
namespace Sys2Proof

/-! ### be and val -/

@[simp] theorem be_length (W v : Nat) : (be W v).length = W := by
  induction W with
  | zero => rfl
  | succ W ih => simp [be, ih]

theorem be_getElem? (W v t : Nat) (h : t < W) : (be W v)[t]? = some (v.testBit (W - 1 - t)) := by
  induction W generalizing t with
  | zero => omega
  | succ W ih =>
    cases t with
    | zero => simp [be]
    | succ t =>
      simp only [be, List.getElem?_cons_succ]
      rw [ih t (by omega)]
      congr 2
      omega

@[simp] theorem val_nil : val [] = 0 := rfl

theorem val_lt (s : Bits) : val s < 2 ^ s.length := by
  induction s with
  | nil => simp
  | cons b s ih =>
    simp only [val, List.length_cons, pow_succ]
    cases b <;> simp <;> omega

theorem val_append (s t : Bits) : val (s ++ t) = val s * 2 ^ t.length + val t := by
  induction s with
  | nil => simp
  | cons b s ih =>
    simp only [List.cons_append, val, List.length_append, ih, pow_add]
    ring

theorem val_be (W v : Nat) : val (be W v) = v % 2 ^ W := by
  induction W with
  | zero => simp [be, Nat.mod_one]
  | succ W ih =>
    have hb : (v.testBit W).toNat = v / 2 ^ W % 2 := by
      rw [Nat.testBit_eq_decide_div_mod_eq]
      rcases Nat.mod_two_eq_zero_or_one (v / 2 ^ W) with h | h <;> simp [h]
    rw [be, val, be_length, ih, hb, pow_succ, Nat.mod_mul]
    ring

theorem val_be_of_lt {W v : Nat} (h : v < 2 ^ W) : val (be W v) = v := by
  rw [val_be, Nat.mod_eq_of_lt h]

theorem testBit_val (s : Bits) (i : Nat) (h : i < s.length) :
    (val s).testBit (s.length - 1 - i) = s.getD i false := by
  induction s generalizing i with
  | nil => simp at h
  | cons b s ih =>
    have hlt := val_lt s
    cases i with
    | zero =>
      cases b with
      | false => simp [val, Nat.testBit_lt_two_pow hlt]
      | true =>
        simp only [val, Bool.toNat_true, Nat.one_mul, List.length_cons]
        simp [Nat.testBit_two_pow_add_eq, Nat.testBit_lt_two_pow hlt]
    | succ i =>
      simp only [List.length_cons] at h
      have e : (b :: s).length - 1 - (i + 1) = s.length - 1 - i := by simp; omega
      rw [e, List.getD_cons_succ, ← ih i (by omega)]
      cases b with
      | false => simp [val]
      | true =>
        simp only [val, Bool.toNat_true, Nat.one_mul]
        rw [Nat.testBit_two_pow_add_gt (by omega)]

theorem be_val (s : Bits) : be s.length (val s) = s := by
  apply List.ext_getElem?
  intro i
  by_cases h : i < s.length
  · rw [be_getElem? _ _ _ h, testBit_val s i h]
    simp [List.getD_eq_getElem?_getD, List.getElem?_eq_getElem h]
  · rw [List.getElem?_eq_none (by simpa using h), List.getElem?_eq_none (by simpa using h)]

theorem val_injective {s t : Bits} (hl : s.length = t.length) (h : val s = val t) : s = t := by
  rw [← be_val s, ← be_val t, hl, h]

/-! ### Exclusive or -/

@[simp] theorem xorBits_nil_left (t : Bits) : xorBits [] t = [] := rfl

@[simp] theorem xorBits_cons (a b : Bit) (s t : Bits) :
    xorBits (a :: s) (b :: t) = Bool.xor a b :: xorBits s t := rfl

@[simp] theorem xorBits_length (s t : Bits) : (xorBits s t).length = min s.length t.length := by
  simp [xorBits]

theorem xorBits_getElem? (s t : Bits) (i : Nat) (hs : i < s.length) (ht : i < t.length) :
    (xorBits s t)[i]? = some (Bool.xor (s.getD i false) (t.getD i false)) := by
  simp [xorBits, List.getElem?_zipWith, List.getElem?_eq_getElem hs, List.getElem?_eq_getElem ht,
    List.getD_eq_getElem?_getD]

theorem xorBits_comm (s t : Bits) : xorBits s t = xorBits t s := by
  simp only [xorBits]
  rw [List.zipWith_comm]
  congr 1
  funext a b
  exact Bool.xor_comm b a

theorem xorBits_zeros_left (s : Bits) : xorBits (zeros s.length) s = s := by
  induction s with
  | nil => rfl
  | cons b s ih => simpa [List.replicate_succ] using ih

theorem xorBits_zeros_right (s : Bits) : xorBits s (zeros s.length) = s := by
  rw [xorBits_comm, xorBits_zeros_left]

theorem xorBits_self (s : Bits) : xorBits s s = zeros s.length := by
  induction s with
  | nil => rfl
  | cons b s ih => simp [List.replicate_succ, ih]

theorem xorBits_assoc (r s t : Bits) : xorBits (xorBits r s) t = xorBits r (xorBits s t) := by
  induction r generalizing s t with
  | nil => rfl
  | cons a r ih =>
    cases s with
    | nil => simp [xorBits]
    | cons b s =>
      cases t with
      | nil => simp [xorBits]
      | cons c t => simp [ih]

theorem xorBits_append {s t : Bits} (s' t' : Bits) (h : s.length = t.length) :
    xorBits (s ++ s') (t ++ t') = xorBits s t ++ xorBits s' t' := by
  simp [xorBits, List.zipWith_append h]

theorem xorBits_take (s t : Bits) (n : Nat) : (xorBits s t).take n = xorBits (s.take n) (t.take n) := by
  simp [xorBits, List.take_zipWith]

theorem xorBits_drop (s t : Bits) (n : Nat) : (xorBits s t).drop n = xorBits (s.drop n) (t.drop n) := by
  simp [xorBits, List.drop_zipWith]

theorem xorBits_eq_zeros {s t : Bits} (hl : s.length = t.length) (h : xorBits s t = zeros s.length) : s = t := by
  have : xorBits (xorBits s t) t = s := by
    rw [xorBits_assoc, xorBits_self, ← hl, xorBits_zeros_right]
  rw [h, hl, xorBits_zeros_left] at this
  exact this.symm

/-! ### popcount -/

@[simp] theorem popcount_nil : popcount [] = 0 := rfl

@[simp] theorem popcount_cons (b : Bit) (s : Bits) : popcount (b :: s) = b.toNat + popcount s := rfl

theorem popcount_append (s t : Bits) : popcount (s ++ t) = popcount s + popcount t := by
  induction s with
  | nil => simp
  | cons b s ih => simp [ih, Nat.add_assoc]

theorem popcount_le_length (s : Bits) : popcount s ≤ s.length := by
  induction s with
  | nil => simp
  | cons b s ih => cases b <;> simp <;> omega

theorem popcount_zeros (n : Nat) : popcount (zeros n) = 0 := by
  induction n with
  | zero => rfl
  | succ n ih => simpa [List.replicate_succ] using ih

/-- Against a run of equal bits, errors turn exactly their own number of bits. -/
theorem popcount_xor_replicate (b : Bit) (e : Bits) :
    popcount (xorBits (List.replicate e.length b) e) = if b then e.length - popcount e else popcount e := by
  induction e with
  | nil => cases b <;> rfl
  | cons a e ih =>
    have hle := popcount_le_length e
    simp only [List.length_cons, List.replicate_succ, xorBits_cons, popcount_cons, ih]
    cases a <;> cases b <;> simp <;> omega

theorem popcount_eq_zero {s : Bits} (h : popcount s = 0) : s = zeros s.length := by
  induction s with
  | nil => rfl
  | cons b s ih =>
    cases b
    · simp only [popcount_cons, Bool.toNat_false, Nat.zero_add] at h
      simpa [List.replicate_succ] using ih h
    · simp at h

/-! ### flipAt -/

@[simp] theorem flipAt_length (s : Bits) (i : Nat) : (flipAt s i).length = s.length := by simp [flipAt]

@[simp] theorem flipAt_cons_zero (b : Bit) (s : Bits) : flipAt (b :: s) 0 = (!b) :: s := rfl

@[simp] theorem flipAt_cons_succ (b : Bit) (s : Bits) (i : Nat) : flipAt (b :: s) (i + 1) = b :: flipAt s i := rfl

theorem flipAt_getElem? (s : Bits) (i x : Nat) :
    (flipAt s i)[x]? = if x = i then s[x]?.map not else s[x]? := by
  simp only [flipAt, List.getElem?_modify]
  by_cases h : i = x <;> simp [h, eq_comm]

theorem flipAt_eq_xor (s : Bits) (i : Nat) (h : i < s.length) :
    flipAt s i = xorBits s (flipAt (zeros s.length) i) := by
  induction s generalizing i with
  | nil => simp at h
  | cons b s ih =>
    cases i with
    | zero => simp [List.replicate_succ, xorBits_zeros_right]
    | succ i =>
      simp only [List.length_cons] at h
      simp [List.replicate_succ, ← ih i (by omega)]

theorem flipAt_flipAt (s : Bits) (i : Nat) : flipAt (flipAt s i) i = s := by
  apply List.ext_getElem?
  intro x
  by_cases h : x = i <;> simp [flipAt_getElem?, h, Function.comp_def]

theorem flipAt_take_of_le (s : Bits) {i k : Nat} (h : k ≤ i) : (flipAt s i).take k = s.take k := by
  apply List.ext_getElem?
  intro x
  by_cases hx : x < k
  · simp [hx, flipAt_getElem?, show x ≠ i by omega]
  · simp [hx]

/-- A pattern with a single 1 is a single error. -/
theorem eq_flipAt_of_popcount_one {e : Bits} (h : popcount e = 1) :
    ∃ p < e.length, e = flipAt (zeros e.length) p := by
  induction e with
  | nil => simp at h
  | cons b e ih =>
    cases b with
    | true =>
      simp only [popcount_cons, Bool.toNat_true] at h
      have := popcount_eq_zero (s := e) (by omega)
      exact ⟨0, by simp, by simpa [List.replicate_succ] using this⟩
    | false =>
      simp only [popcount_cons, Bool.toNat_false, Nat.zero_add] at h
      obtain ⟨p, hp, he⟩ := ih h
      refine ⟨p + 1, by simpa using hp, ?_⟩
      simpa [List.replicate_succ] using he

/-! ### Groups -/

@[simp] theorem groups_length (n g : Nat) (s : Bits) : (groups n g s).length = g := by
  induction g generalizing s with
  | zero => rfl
  | succ g ih => simp [groups, ih]

theorem groups_getElem? (n g : Nat) (s : Bits) (i : Nat) (h : i < g) :
    (groups n g s)[i]? = some (slice s (n * i) (n * i + n)) := by
  induction g generalizing s i with
  | zero => omega
  | succ g ih =>
    cases i with
    | zero => simp [groups, slice]
    | succ i =>
      simp only [groups, List.getElem?_cons_succ]
      rw [ih (s.drop n) i (by omega)]
      have e : n * (i + 1) = n + n * i := by ring
      simp only [slice, List.drop_drop, Nat.add_sub_cancel_left, e]

theorem groups_append (n g : Nat) (s t : Bits) (h : n * g ≤ s.length) : groups n g (s ++ t) = groups n g s := by
  induction g generalizing s with
  | zero => rfl
  | succ g ih =>
    have hn : n ≤ s.length := by
      have : n * (g + 1) = n * g + n := by ring
      omega
    simp only [groups]
    rw [List.take_append_of_le_length hn, List.drop_append_of_le_length hn, ih]
    have : n * (g + 1) = n * g + n := by ring
    simp only [List.length_drop]
    omega

theorem groups_flatten (n g : Nat) (s : Bits) (h : n * g ≤ s.length) : (groups n g s).flatten = s.take (n * g) := by
  induction g generalizing s with
  | zero => simp [groups]
  | succ g ih =>
    have e : n * (g + 1) = n + n * g := by ring
    simp only [groups, List.flatten_cons]
    rw [ih _ (by simp only [List.length_drop]; omega), e, List.take_add]

theorem mem_groups_length {n g : Nat} {s : Bits} (h : n * g ≤ s.length) {x : Bits} (hx : x ∈ groups n g s) :
    x.length = n := by
  induction g generalizing s with
  | zero => simp [groups] at hx
  | succ g ih =>
    have e : n * (g + 1) = n * g + n := by ring
    simp only [groups, List.mem_cons] at hx
    rcases hx with rfl | hx
    · simp; omega
    · exact ih (by simp only [List.length_drop]; omega) hx

/-- Cutting into groups undoes joining groups of equal length. -/
theorem groups_flatMap {α : Type} (n : Nat) (f : α → Bits) (l : List α) (h : ∀ a ∈ l, (f a).length = n) :
    groups n l.length (l.flatMap f) = l.map f := by
  induction l with
  | nil => rfl
  | cons a l ih =>
    have ha : (f a).length = n := h a (by simp)
    simp only [List.length_cons, groups, List.flatMap_cons, List.map_cons]
    rw [List.take_append_of_le_length (by omega), List.drop_append_of_le_length (by omega), ← ha, List.take_length,
      List.drop_length, List.nil_append, ha, ih fun b hb => h b (by simp [hb])]

theorem flatMap_length {α : Type} (n : Nat) (f : α → Bits) (l : List α) (h : ∀ a ∈ l, (f a).length = n) :
    (l.flatMap f).length = n * l.length := by
  induction l with
  | nil => simp
  | cons a l ih =>
    simp only [List.flatMap_cons, List.length_append, List.length_cons, h a (by simp),
      ih fun b hb => h b (by simp [hb])]
    ring

/-- Bit c of the i-th of joined groups of equal length n stands at index n·i + c. -/
theorem flatMap_getElem? {α : Type} (n : Nat) (f : α → Bits) (l : List α) (h : ∀ a ∈ l, (f a).length = n)
    (i c : Nat) (hc : c < n) : (l.flatMap f)[n * i + c]? = l[i]?.bind fun a => (f a)[c]? := by
  induction l generalizing i with
  | nil => simp
  | cons a l ih =>
    have ha : (f a).length = n := h a (by simp)
    cases i with
    | zero =>
      simp only [List.flatMap_cons, Nat.mul_zero, Nat.zero_add, List.getElem?_cons_zero, Option.bind_some]
      rw [List.getElem?_append_left (by omega)]
    | succ i =>
      have e : n * (i + 1) + c = n + (n * i + c) := by ring
      simp only [List.flatMap_cons, List.getElem?_cons_succ]
      rw [List.getElem?_append_right (by omega), ha, e, Nat.add_sub_cancel_left,
        ih (fun b hb => h b (by simp [hb]))]

/-! ### Products over GF(2) -/

@[simp] theorem dot_nil_left (b : Bits) : dot [] b = false := by cases b <;> rfl

@[simp] theorem dot_nil_right (a : Bits) : dot a [] = false := by cases a <;> rfl

@[simp] theorem dot_cons (a b : Bit) (s t : Bits) : dot (a :: s) (b :: t) = Bool.xor (a && b) (dot s t) := rfl

theorem dot_comm (s t : Bits) : dot s t = dot t s := by
  induction s generalizing t with
  | nil => simp
  | cons a s ih =>
    cases t with
    | nil => simp
    | cons b t => simp [ih t, Bool.and_comm]

theorem dot_xor_left {r e : Bits} (h : Bits) (hl : r.length = e.length) :
    dot (xorBits r e) h = Bool.xor (dot r h) (dot e h) := by
  induction r generalizing e h with
  | nil => cases e <;> simp_all
  | cons a r ih =>
    cases e with
    | nil => simp at hl
    | cons b e =>
      cases h with
      | nil => simp
      | cons c h =>
        simp only [xorBits_cons, dot_cons, ih h (by simpa using hl)]
        cases a <;> cases b <;> cases c <;> simp

theorem dot_zeros_left (n : Nat) (h : Bits) : dot (zeros n) h = false := by
  induction n generalizing h with
  | zero => simp
  | succ n ih =>
    cases h with
    | nil => simp
    | cons c h => simpa [List.replicate_succ] using ih h

theorem dot_zeros_right (n : Nat) (h : Bits) : dot h (zeros n) = false := by
  rw [dot_comm, dot_zeros_left]

/-- The product with a single error is the entry it stands at. -/
theorem dot_flipAt_zeros (n p : Nat) (h : Bits) (hp : p < n) : dot (flipAt (zeros n) p) h = h.getD p false := by
  induction n generalizing p h with
  | zero => omega
  | succ n ih =>
    cases h with
    | nil => simp
    | cons c h =>
      cases p with
      | zero => simp [List.replicate_succ, dot_zeros_left]
      | succ p => simpa [List.replicate_succ] using ih p h (by omega)

theorem dot_append {s t : Bits} (s' t' : Bits) (h : s.length = t.length) :
    dot (s ++ s') (t ++ t') = Bool.xor (dot s t) (dot s' t') := by
  induction s generalizing t with
  | nil => cases t <;> simp_all
  | cons a s ih =>
    cases t with
    | nil => simp at h
    | cons b t => simp [ih (by simpa using h)]

/-! ### Bytes of a word -/

@[simp] theorem wordBytes_length (n w : Nat) : (wordBytes n w).length = n := by
  induction n with
  | zero => rfl
  | succ n ih => simp [wordBytes, ih]

end Sys2Proof
end

