-- ==== Sys2Proof/Laws/Catalog.lean ====
section
/-! SUPPORT. The lemmas of the catalog's tables (Machine/Catalog.lean): the code parameters, the rows, columns and entries of
G and H built from a k(j) by j matrix, the slots of the syndrome table, and what validity says. -/
namespace Sys2Proof

theorem mem_lbParams {j : Nat} : j ∈ Config.lbParams ↔ j = 3 ∨ j = 4 ∨ j = 5 := by simp [Config.lbParams]

/-- n = k + j for every code parameter (rule R65). -/
theorem codeN_eq {j : Nat} (h : j ∈ Config.lbParams) : codeN j = codeK j + j := by
  rcases mem_lbParams.1 h with rfl | rfl | rfl <;> rfl

theorem codeK_pos {j : Nat} (h : j ∈ Config.lbParams) : 0 < codeK j := by
  rcases mem_lbParams.1 h with rfl | rfl | rfl <;> decide

theorem codeN_pos {j : Nat} (h : j ∈ Config.lbParams) : 0 < codeN j := by
  rcases mem_lbParams.1 h with rfl | rfl | rfl <;> decide

/-- The ROM's tables of j are built from `P_j` alone. -/
theorem ofCatalog_code (c : Catalog) {j : Nat} (h : j ∈ Config.lbParams) :
    (Rom.ofCatalog c).code j = CodeTables.build j (c.p j) := by
  rcases mem_lbParams.1 h with rfl | rfl | rfl <;> rfl

/-! ### Rows and columns -/

@[simp] theorem unitRow_length (m i : Nat) : (unitRow m i).length = m := by simp [unitRow]

theorem unitRow_getElem? (m i c : Nat) (h : c < m) : (unitRow m i)[c]? = some (decide (c = i)) := by
  simp only [unitRow, List.getElem?_map, List.getElem?_range h, Option.map_some, Option.some.injEq]
  by_cases hc : c = i <;> simp [hc]

theorem unitRow_eq_flipAt {m i : Nat} (h : i < m) : unitRow m i = flipAt (zeros m) i := by
  apply List.ext_getElem?
  intro c
  by_cases hc : c < m
  · rw [unitRow_getElem? m i c hc, flipAt_getElem?]
    by_cases e : c = i
    · subst e
      simp [h]
    · simp [e, hc]
  · rw [List.getElem?_eq_none (by simpa using hc), List.getElem?_eq_none (by simpa using hc)]

@[simp] theorem column_length (M : Matrix) (c : Nat) : (column M c).length = M.length := by simp [column]

theorem column_getElem? (M : Matrix) (c r : Nat) (h : r < M.length) : (column M c)[r]? = some (entry M r c) := by
  simp [column, entry, List.getElem?_eq_getElem h, List.getD_eq_getElem?_getD]

theorem column_getD (M : Matrix) (c r : Nat) : (column M c).getD r false = entry M r c := by
  by_cases h : r < M.length
  · rw [List.getD_eq_getElem?_getD, column_getElem? M c r h, Option.getD_some]
  · simp [List.getD_eq_getElem?_getD, entry, List.getElem?_eq_none (Nat.le_of_not_lt h),
      List.getElem?_eq_none (l := column M c) (i := r) (by simpa using h)]

theorem columns_length (n : Nat) (H : Matrix) : (columns n H).length = n := by simp [columns]

theorem columns_getElem? (n : Nat) (H : Matrix) (c : Nat) (h : c < n) : (columns n H)[c]? = some (column H c) := by
  simp [columns, h]

/-! ### The generator matrix -/

@[simp] theorem generator_length (k : Nat) (P : Matrix) : (generator k P).length = k := by simp [generator]

theorem generator_getD (k : Nat) (P : Matrix) (i : Nat) (h : i < k) :
    (generator k P).getD i [] = unitRow k i ++ P.getD i [] := by
  simp [generator, List.getD_eq_getElem?_getD, h]

theorem generator_row_length {k j : Nat} {P : Matrix} (hk : P.length = k) (hj : ∀ row ∈ P, row.length = j) :
    ∀ row ∈ generator k P, row.length = k + j := by
  intro row hrow
  simp only [generator, List.mem_map, List.mem_range] at hrow
  obtain ⟨i, hi, rfl⟩ := hrow
  have : P.getD i [] ∈ P := by
    rw [List.getD_eq_getElem?_getD, List.getElem?_eq_getElem (hk ▸ hi)]
    exact List.getElem_mem _
  rw [List.length_append, unitRow_length, hj _ this]

/-- The entries of G (rule R66). -/
theorem generator_entry (k : Nat) (P : Matrix) (i col : Nat) (hi : i < k) :
    entry (generator k P) i col = if col < k then decide (col = i) else entry P i (col - k) := by
  rw [entry, generator_getD k P i hi]
  by_cases h : col < k
  · rw [if_pos h, List.getD_eq_getElem?_getD, List.getElem?_append_left (by simpa using h), unitRow_getElem? k i col h,
      Option.getD_some]
  · rw [if_neg h, List.getD_eq_getElem?_getD, List.getElem?_append_right (by simpa using Nat.le_of_not_lt h),
      unitRow_length, entry, List.getD_eq_getElem?_getD (l := P.getD i [])]

theorem column_generator_info {k : Nat} (P : Matrix) {col : Nat} (h : col < k) :
    column (generator k P) col = unitRow k col := by
  apply List.ext_getElem?
  intro r
  by_cases hr : r < k
  · rw [column_getElem? _ _ _ (by simpa using hr), generator_entry k P r col hr, if_pos h, unitRow_getElem? k col r hr]
    by_cases e : col = r <;> simp [e, eq_comm]
  · rw [List.getElem?_eq_none (by simpa using hr), List.getElem?_eq_none (by simpa using hr)]

theorem column_generator_parity {k : Nat} {P : Matrix} (hk : P.length = k) (t : Nat) :
    column (generator k P) (k + t) = column P t := by
  apply List.ext_getElem?
  intro r
  by_cases hr : r < k
  · rw [column_getElem? _ _ _ (by simpa using hr), generator_entry k P r _ hr, if_neg (by omega),
      Nat.add_sub_cancel_left, column_getElem? _ _ _ (by omega)]
  · rw [List.getElem?_eq_none (by simpa using hr), List.getElem?_eq_none (by simp only [column_length]; omega)]

/-! ### The parity-check matrix -/

@[simp] theorem parityCheck_length (j k : Nat) (G : Matrix) : (parityCheck j k G).length = j := by simp [parityCheck]

theorem parityCheck_getElem? {j k : Nat} {P : Matrix} (hk : P.length = k) (t : Nat) (h : t < j) :
    (parityCheck j k (generator k P))[t]? = some (column P t ++ unitRow j t) := by
  simp only [parityCheck, List.getElem?_map, List.getElem?_range h, Option.map_some]
  rw [column_generator_parity hk]

theorem parityCheck_row_length {j k : Nat} {P : Matrix} (hk : P.length = k) :
    ∀ row ∈ parityCheck j k (generator k P), row.length = k + j := by
  intro row hrow
  obtain ⟨t, ht, rfl⟩ := List.getElem_of_mem hrow
  have h := parityCheck_getElem? (j := j) hk t (by simpa using ht)
  rw [List.getElem?_eq_getElem ht, Option.some.injEq] at h
  rw [h, List.length_append, column_length, unitRow_length, hk]

/-- The entries of H (rule R67). -/
theorem parityCheck_entry {j k : Nat} {P : Matrix} (hk : P.length = k) (t col : Nat) (ht : t < j) (hc : col < k + j) :
    entry (parityCheck j k (generator k P)) t col = if col < k then entry P col t else decide (col - k = t) := by
  have hrow : (parityCheck j k (generator k P)).getD t [] = column P t ++ unitRow j t := by
    rw [List.getD_eq_getElem?_getD, parityCheck_getElem? hk t ht, Option.getD_some]
  rw [entry, hrow, List.getD_eq_getElem?_getD]
  by_cases h : col < k
  · rw [if_pos h, List.getElem?_append_left (by simp only [column_length]; omega),
      column_getElem? P t col (by omega), Option.getD_some]
  · rw [if_neg h, List.getElem?_append_right (by simp only [column_length]; omega), column_length, hk,
      unitRow_getElem? j t (col - k) (by omega), Option.getD_some]

/-- `col_j(c)` is row c of `P_j` for c < k (rule R67). -/
theorem column_parityCheck_info {j k : Nat} {P : Matrix} (hk : P.length = k) (hj : ∀ row ∈ P, row.length = j)
    {col : Nat} (h : col < k) : column (parityCheck j k (generator k P)) col = P.getD col [] := by
  have hrow : P.getD col [] ∈ P := by
    rw [List.getD_eq_getElem?_getD, List.getElem?_eq_getElem (hk ▸ h)]
    exact List.getElem_mem _
  have hlen := hj _ hrow
  apply List.ext_getElem?
  intro t
  by_cases ht : t < j
  · rw [column_getElem? _ _ _ (by simpa using ht), parityCheck_entry hk t col ht (by omega), if_pos h, entry,
      List.getD_eq_getElem?_getD (l := P.getD col []), List.getElem?_eq_getElem (by omega), Option.getD_some]
  · rw [List.getElem?_eq_none (by simpa using ht), List.getElem?_eq_none (by omega)]

/-- `col_j(k + u)` is the unit vector with its 1 at u (rule R67). -/
theorem column_parityCheck_parity {j k : Nat} {P : Matrix} (hk : P.length = k) {u : Nat} (h : u < j) :
    column (parityCheck j k (generator k P)) (k + u) = unitRow j u := by
  apply List.ext_getElem?
  intro t
  by_cases ht : t < j
  · rw [column_getElem? _ _ _ (by simpa using ht), parityCheck_entry hk t _ ht (by omega), if_neg (by omega),
      Nat.add_sub_cancel_left, unitRow_getElem? j u t ht]
    by_cases e : u = t <;> simp [e, eq_comm]
  · rw [List.getElem?_eq_none (by simpa using ht), List.getElem?_eq_none (by simpa using ht)]

/-! ### Validity and the syndrome table -/

/-- What validity of one code says (rules R12, R68). -/
theorem codeValid_iff (j : Nat) (P : Matrix) :
    codeValid j P = true ↔
      P.length = codeK j ∧ (∀ row ∈ P, row.length = j) ∧
        (∀ c < codeN j, ∃ b ∈ column (CodeTables.build j P).h c, b = true) ∧
        (columns (codeN j) (CodeTables.build j P).h).Nodup := by
  have hcols : (columns (codeN j) (CodeTables.build j P).h).all (fun col => col.any id) = true ↔
      ∀ c < codeN j, ∃ b ∈ column (CodeTables.build j P).h c, b = true := by
    simp [columns]
  rw [codeValid, Bool.and_eq_true, Bool.and_eq_true, Bool.and_eq_true, decide_eq_true_iff, decide_eq_true_iff, hcols,
    List.all_eq_true]
  simp only [decide_eq_true_eq, and_assoc]

theorem valid_codeValid {c : Catalog} (h : c.valid = true) {j : Nat} (hj : j ∈ Config.lbParams) :
    codeValid j (c.p j) = true := by
  simp only [Catalog.valid, Bool.and_eq_true] at h
  rcases mem_lbParams.1 hj with rfl | rfl | rfl
  · exact h.1.1
  · exact h.1.2
  · exact h.2

@[simp] theorem syndromeTable_length (j n : Nat) (H : Matrix) : (syndromeTable j n H).length = 2 ^ j := by
  simp [syndromeTable]

theorem syndromeTable_zero (j n : Nat) (H : Matrix) : (syndromeTable j n H)[0]? = some none := by
  simp [syndromeTable]

/-- The position of an entry in a list without repeats. -/
theorem idxOf?_getElem {l : List Nat} (hn : l.Nodup) (i : Nat) (hi : i < l.length) : l.idxOf? l[i] = some i := by
  rw [List.idxOf?, List.findIdx?_eq_some_iff_getElem]
  refine ⟨hi, by simp, ?_⟩
  intro m hm
  rw [beq_iff_eq]
  intro e
  exact absurd ((hn.getElem_inj_iff (hi := by omega) (hj := hi)).1 e) (by omega)

/-- The slot of a column's syndrome holds that column (rule R70). -/
theorem syndromeTable_column {j n : Nat} {H : Matrix} (hlen : H.length = j) (hn : (columns n H).Nodup) {c : Nat}
    (hc : c < n) (hnz : val (column H c) ≠ 0) : (syndromeTable j n H)[val (column H c)]? = some (some c) := by
  have hv : val (column H c) < 2 ^ j := by simpa [hlen] using val_lt (column H c)
  have hnv : ((columns n H).map val).Nodup := by
    refine hn.map_on ?_
    intro x hx y hy e
    simp only [columns, List.mem_map, List.mem_range] at hx hy
    obtain ⟨a, -, rfl⟩ := hx
    obtain ⟨b, -, rfl⟩ := hy
    exact val_injective (by simp) e
  have hi : c < ((columns n H).map val).length := by simpa [columns_length] using hc
  have hg : ((columns n H).map val)[c] = val (column H c) := by simp [columns]
  have := idxOf?_getElem hnv c hi
  rw [hg] at this
  simp only [syndromeTable, List.getElem?_map, List.getElem?_range hv, Option.map_some, if_neg hnz, this]

end Sys2Proof
end

