-- ==== Sys2Proof/Laws/Framer.lean ====
section
/-! SUPPORT. One lemma per fact of the framer's functions (Machine/Framer.lean): lengths, padding amounts, bytes and their
eight bits. -/
namespace Sys2Proof

@[simp] theorem byteBits_length (v : Byte) : (byteBits v).length = 8 := by simp [byteBits]

theorem bitsByte_byteBits (v : Byte) : bitsByte (byteBits v) = v := by
  rw [bitsByte, byteBits, val_be_of_lt v.isLt, BitVec.ofNat_toNat, BitVec.setWidth_eq]

theorem byteBits_bitsByte {g : Bits} (h : g.length = 8) : byteBits (bitsByte g) = g := by
  have hv := val_lt g
  rw [h] at hv
  rw [byteBits, bitsByte, BitVec.toNat_ofNat, Nat.mod_eq_of_lt hv, ← h, be_val]

@[simp] theorem bytesToBits_nil : bytesToBits [] = [] := rfl

@[simp] theorem bytesToBits_cons (v : Byte) (buf : Bytes) :
    bytesToBits (v :: buf) = byteBits v ++ bytesToBits buf := rfl

@[simp] theorem bytesToBits_append (a b : Bytes) : bytesToBits (a ++ b) = bytesToBits a ++ bytesToBits b := by
  simp [bytesToBits]

@[simp] theorem bytesToBits_length (buf : Bytes) : (bytesToBits buf).length = 8 * buf.length :=
  flatMap_length 8 byteBits buf fun v _ => byteBits_length v

theorem bytesToBits_drop (buf : Bytes) (n : Nat) : (bytesToBits buf).drop (8 * n) = bytesToBits (buf.drop n) := by
  induction n generalizing buf with
  | zero => simp
  | succ n ih =>
    cases buf with
    | nil => simp
    | cons v buf =>
      have e : 8 * (n + 1) = (byteBits v).length + 8 * n := by rw [byteBits_length]; ring
      rw [bytesToBits_cons, e, List.drop_append, List.drop_succ_cons, ← ih]
      simp

/-! ### Padding amounts -/

theorem padLen_lt {S : Nat} (h : 0 < S) (L : Nat) : padLen S L < S := Nat.mod_lt _ h

theorem padLen_of_mod_zero {S L : Nat} (h : L % S = 0) : padLen S L = 0 := by simp [padLen, h]

theorem add_padLen_mod {S : Nat} (h : 0 < S) (L : Nat) : (L + padLen S L) % S = 0 := by
  have hl := Nat.mod_lt L h
  rw [padLen]
  by_cases h0 : L % S = 0
  · rw [h0, Nat.sub_zero, Nat.mod_self, Nat.add_zero, h0]
  · rw [Nat.mod_eq_of_lt (by omega : S - L % S < S), Nat.add_mod, Nat.mod_eq_of_lt (by omega : S - L % S < S),
      show L % S + (S - L % S) = S by omega, Nat.mod_self]

/-- The padded length is the least multiple of S that is at least L. -/
theorem add_padLen_div {S : Nat} (h : 0 < S) (L : Nat) : (L + padLen S L) / S = (L + S - 1) / S := by
  obtain ⟨q, hq⟩ := Nat.dvd_of_mod_eq_zero (add_padLen_mod h L)
  have hlt := padLen_lt h L
  rw [hq, Nat.mul_div_cancel_left _ h]
  symm
  rw [Nat.div_eq_iff h]
  constructor
  · have : q * S = S * q := Nat.mul_comm _ _
    omega
  · have : q * S = S * q := Nat.mul_comm _ _
    omega

theorem add_padLen_eq {S : Nat} (h : 0 < S) (L : Nat) : L + padLen S L = S * ((L + S - 1) / S) := by
  rw [← add_padLen_div h L, Nat.mul_div_cancel' (Nat.dvd_of_mod_eq_zero (add_padLen_mod h L))]

@[simp] theorem padToBlock_length (bits : Bits) (S : Nat) :
    (padToBlock bits S).1.length = bits.length + padLen S bits.length := by simp [padToBlock]

theorem padToBlock_of_mod_zero {bits : Bits} {S : Nat} (h : bits.length % S = 0) : (padToBlock bits S).1 = bits := by
  simp [padToBlock, padLen_of_mod_zero h]

theorem truncate_eq_take (bits : Bits) (E : Nat) : truncate bits E = bits.take E := by
  simp [truncate, List.take_eq_take_min]

/-! ### Packing -/

@[simp] theorem bitsToBytes_length (bits : Bits) :
    (bitsToBytes bits).length = (bits.length + padLen 8 bits.length) / 8 := by simp [bitsToBytes]

/-- Packing the eight-bit groups of a whole number of bytes. -/
theorem bitsToBytes_of_mod_zero {bits : Bits} (h : bits.length % 8 = 0) :
    bitsToBytes bits = (groups 8 (bits.length / 8) bits).map bitsByte := by
  rw [bitsToBytes, padToBlock_of_mod_zero h, padLen_of_mod_zero h, Nat.add_zero]

/-- Unpacking the bytes of eight-bit groups gives the groups back. -/
theorem bytesToBits_map_bitsByte {l : List Bits} (h : ∀ g ∈ l, g.length = 8) :
    bytesToBits (l.map bitsByte) = l.flatten := by
  induction l with
  | nil => rfl
  | cons g l ih =>
    rw [List.map_cons, bytesToBits_cons, byteBits_bitsByte (h g (by simp)), List.flatten_cons,
      ih fun x hx => h x (by simp [hx])]

end Sys2Proof
end

