-- ==== Sys2Proof/Laws/Voter.lean ====
section
/-! SUPPORT. The lemmas of the repetition coder's functions (Machine/Voter.lean). -/
namespace Sys2Proof

@[simp] theorem repEncode_length (bits : Bits) (n : Nat) : (repEncode bits n).length = n * bits.length :=
  flatMap_length n _ bits fun _ _ => List.length_replicate

theorem repEncode_append (s t : Bits) (n : Nat) : repEncode (s ++ t) n = repEncode s n ++ repEncode t n := by
  simp [repEncode]

/-- Copy c of bit i stands at index n·i + c. -/
theorem repEncode_getElem? (bits : Bits) (n i c : Nat) (hc : c < n) : (repEncode bits n)[n * i + c]? = bits[i]? := by
  rw [repEncode, flatMap_getElem? n _ bits (fun _ _ => List.length_replicate) i c hc]
  cases bits[i]? <;> simp [hc]

/-- A group of n copies with e of them inverted is voted right exactly when the errors are fewer than half. -/
theorem majority_xor_replicate (b : Bit) (e : Bits) (hodd : e.length % 2 = 1) :
    majority (xorBits (List.replicate e.length b) e) = if 2 * popcount e < e.length then b else !b := by
  have hle := popcount_le_length e
  simp only [majority, popcount_xor_replicate, xorBits_length, List.length_replicate, Nat.min_self]
  cases b <;> by_cases hp : 2 * popcount e < e.length
  · rw [if_neg Bool.false_ne_true, if_pos hp, decide_eq_false (by omega)]
  · rw [if_neg Bool.false_ne_true, if_neg hp, decide_eq_true (by omega), Bool.not_false]
  · rw [if_pos rfl, if_pos hp, decide_eq_true (by omega)]
  · rw [if_pos rfl, if_neg hp, decide_eq_false (by omega), Bool.not_true]

@[simp] theorem repDecode_length (bits : Bits) (n : Nat) : (repDecode bits n).1.length = bits.length / n := by
  simp [repDecode]

@[simp] theorem repDecode_tail (bits : Bits) (n : Nat) : (repDecode bits n).2 = bits.length % n := rfl

theorem repDecode_getElem? (bits : Bits) (n i : Nat) (h : i < bits.length / n) :
    (repDecode bits n).1[i]? = some (majority (slice bits (n * i) (n * i + n))) := by
  simp [repDecode, groups_getElem? n _ bits i h]

/-- Group i of a repetition-coded sequence under errors is the i-th bit's copies under the i-th group of errors. -/
theorem slice_xor_repEncode (bits e : Bits) (n i : Nat) (hi : i < bits.length) :
    slice (xorBits (repEncode bits n) e) (n * i) (n * i + n) =
      xorBits (List.replicate n (bits.getD i false)) (slice e (n * i) (n * i + n)) := by
  simp only [slice, xorBits_drop, xorBits_take]
  congr 1
  apply List.ext_getElem?
  intro x
  by_cases hx : x < n
  · simp only [Nat.add_sub_cancel_left, List.getElem?_take, hx, if_true, List.getElem?_drop,
      repEncode_getElem? bits n i x hx]
    simp [hx, List.getD_eq_getElem?_getD, List.getElem?_eq_getElem hi]
  · simp [hx]

end Sys2Proof
end

