-- ==== Sys2Proof/Laws/Header.lean ====
section
/-! SUPPORT. The lemmas of the header codec's functions (Machine/Header.lean). -/
namespace Sys2Proof

@[simp] theorem rawHeader_length (m f L : Nat) : (rawHeader m f L).length = 48 := by
  simp [rawHeader, Config.methodW, Config.factorW, Config.srcLenW]

/-- The header's protection is fixed (rule R82): 144 bits whatever the fields are. -/
@[simp] theorem encodeHeader_length (m f L : Nat) : (encodeHeader m f L).length = 144 := by
  simp [encodeHeader, Config.hdrFactorN]

@[simp] theorem recoverRaw_length (F : Bits) : (recoverRaw F).length = 48 := by
  simp [recoverRaw, Config.hdrRawBits]

/-- Only frame bits 0 to 143 are read (rules R81, R82). -/
theorem recoverRaw_append {F : Bits} (rest : Bits) (h : 144 ≤ F.length) : recoverRaw (F ++ rest) = recoverRaw F := by
  rw [recoverRaw, recoverRaw, groups_append]
  simpa [Config.hdrFactorN, Config.hdrRawBits] using h

theorem recoverRaw_getElem? (F : Bits) (t : Nat) (h : t < 48) :
    (recoverRaw F)[t]? = some (majority (slice F (3 * t) (3 * t + 3))) := by
  simp [recoverRaw, Config.hdrFactorN, groups_getElem? 3 Config.hdrRawBits F t (by simpa [Config.hdrRawBits] using h)]

/-- Reading the fields back from the raw word (rule R52). -/
theorem parseRaw_rawHeader {m f L : Nat} (hm : m < 2 ^ 8) (hf : f < 2 ^ 8) (hL : L < 2 ^ 32) :
    parseRaw (rawHeader m f L) = ⟨m, f, L⟩ := by
  simp only [parseRaw, rawHeader, slice, Config.methodW, Config.factorW, Config.srcLenW, HeaderFields.mk.injEq]
  refine ⟨?_, ?_, ?_⟩
  · rw [List.drop_zero, List.append_assoc, List.take_append_of_le_length (by simp), List.take_of_length_le (by simp),
      val_be_of_lt hm]
  · rw [List.append_assoc, List.drop_append_of_le_length (by simp), List.drop_of_length_le (by simp), List.nil_append,
      List.take_append_of_le_length (by simp), List.take_of_length_le (by simp), val_be_of_lt hf]
  · rw [List.drop_append, List.drop_of_length_le (by simp), List.nil_append, List.take_of_length_le (by simp)]
    simp only [List.length_append, be_length, List.drop_zero, Nat.sub_self]
    exact val_be_of_lt hL

theorem decodeHeader_of_length {F : Bits} (h : 144 ≤ F.length) : decodeHeader F = some (parseRaw (recoverRaw F)) := by
  rw [decodeHeader, if_neg (by simpa [Config.hdrBits] using h)]

theorem decodeHeader_short {F : Bits} (h : F.length < 144) : decodeHeader F = none := by
  rw [decodeHeader, if_pos (by simpa [Config.hdrBits] using h)]

theorem decodeHeader_eq_some {F : Bits} {h : HeaderFields} (e : decodeHeader F = some h) :
    144 ≤ F.length ∧ h = parseRaw (recoverRaw F) := by
  by_cases hl : F.length < 144
  · rw [decodeHeader_short hl] at e
    cases e
  · rw [decodeHeader_of_length (by omega)] at e
    exact ⟨by omega, (Option.some.inj e).symm⟩

/-- The recovered fields fit their registers (rule R21). -/
theorem parseRaw_bounds (raw : Bits) :
    (parseRaw raw).method < 2 ^ 8 ∧ (parseRaw raw).factor < 2 ^ 8 ∧ (parseRaw raw).sourceLength < 2 ^ 32 := by
  refine ⟨?_, ?_, ?_⟩ <;>
    refine Nat.lt_of_lt_of_le (val_lt _) (Nat.pow_le_pow_right (by omega) ?_) <;> simp [slice]

end Sys2Proof
end

