-- ==== Sys2Proof/Laws/Decode.lean ====
section
/-! SUPPORT. The lemmas of the decoders and the encoder (Decode.lean, Machine/Fetch.lean). -/
namespace Sys2Proof

/-- The seven bytes of a command word of four fields that fit decode by its fields. -/
theorem decodeCommand_wordBytes {op m f len : Nat} (ho : op < 256) (hm : m < 256) (hf : f < 256) (hl : len < 2 ^ 32) :
    decodeCommand (wordBytes 7 (commandWord op m f len)) = decodeFields op m f len := by
  simp only [wordBytes, decodeCommand, commandWord, BitVec.toNat_ofNat, Nat.shiftRight_eq_div_pow]
  congr 1 <;> omega

/-- The decoded command word depends on `op` alone for whether it is one (rules R59, R60). -/
theorem decodeFields_reserved {op : Nat} (m f len : Nat)
    (h : op ∉ [0x01, 0x02, 0x03, 0x10, 0x11, 0x12, 0x13, 0x20, 0x21, 0x30, 0x31, 0x40, 0x41, 0x50, 0x51]) :
    decodeFields op m f len = .error (.reservedOp op) := by
  simp only [List.mem_cons, List.not_mem_nil, or_false, not_or] at h
  unfold decodeFields
  split <;> simp_all

/-- The raw header word is the 48-bit sequence of its number (rule R51). -/
theorem be_headerWord {m f L : Nat} (hm : m < 256) (hf : f < 256) (hL : L < 2 ^ 32) :
    be 48 (headerWord m f L) = rawHeader m f L := by
  have h1 : val (rawHeader m f L) = headerWord m f L := by
    rw [rawHeader, val_append, val_append, be_length, be_length]
    simp only [Config.methodW, Config.factorW, Config.srcLenW]
    rw [val_be_of_lt (by omega), val_be_of_lt (by omega), val_be_of_lt hL, headerWord]
    ring
  rw [← h1]
  exact (rawHeader_length m f L) ▸ be_val (rawHeader m f L)

/-- A header word laid at the front of a frame is the packed protected header (rules R47, R53). -/
theorem layWord_hdr48 {m f L : Nat} (hm : m < 256) (hf : f < 256) (hL : L < 2 ^ 32) :
    layWord .hdr48 (headerWord m f L) = bitsToBytes (encodeHeader m f L) := by
  rw [layWord, Config.hdrRawBits, be_headerWord hm hf hL, encodeHeader]

/-- The command word in the operand registers after the host wrote it there. -/
theorem commandBytes_putCommand (s : Machine.State) {w : Nat} (h : w < 2 ^ 56) :
    (s.putCommand w).commandBytes = wordBytes 7 w := by
  rw [Machine.State.commandBytes, Machine.State.commandWord]
  congr 1
  simp only [Machine.State.putCommand, commandWord, BitVec.toNat_ofNat, Nat.shiftRight_eq_div_pow]
  omega

end Sys2Proof
end

