-- ==== Sys2Proof/Laws/State.lean ====
section
/-! SUPPORT. One lemma per field per update of State, each true by `rfl`, so that no proof unfolds a record update. -/
namespace Sys2Proof.Machine

variable (s : State)

/-! ### State.fresh -/

@[simp] theorem State.fresh_cmd : (s.fresh).cmd = s.cmd := rfl
@[simp] theorem State.fresh_argMethod : (s.fresh).argMethod = s.argMethod := rfl
@[simp] theorem State.fresh_argFactor : (s.fresh).argFactor = s.argFactor := rfl
@[simp] theorem State.fresh_argLen : (s.fresh).argLen = s.argLen := rfl
@[simp] theorem State.fresh_phase : (s.fresh).phase = .header := rfl
@[simp] theorem State.fresh_hdrMethod : (s.fresh).hdrMethod = 0 := rfl
@[simp] theorem State.fresh_hdrFactor : (s.fresh).hdrFactor = 0 := rfl
@[simp] theorem State.fresh_hdrSrcLen : (s.fresh).hdrSrcLen = 0 := rfl
@[simp] theorem State.fresh_err : (s.fresh).err = .noError := rfl
@[simp] theorem State.fresh_uncorrCnt : (s.fresh).uncorrCnt = 0 := rfl
@[simp] theorem State.fresh_tailDropped : (s.fresh).tailDropped = 0 := rfl
@[simp] theorem State.fresh_padAmount : (s.fresh).padAmount = 0 := rfl
@[simp] theorem State.fresh_inBuf : (s.fresh).inBuf = s.inBuf := rfl
@[simp] theorem State.fresh_outBuf : (s.fresh).outBuf = .empty := rfl
@[simp] theorem State.fresh_rom : (s.fresh).rom = s.rom := rfl
@[simp] theorem State.fresh_heldInReset : (s.fresh).heldInReset = s.heldInReset := rfl

/-! ### State.cleared -/

@[simp] theorem State.cleared_cmd : (s.cleared).cmd = s.cmd := rfl
@[simp] theorem State.cleared_argMethod : (s.cleared).argMethod = s.argMethod := rfl
@[simp] theorem State.cleared_argFactor : (s.cleared).argFactor = s.argFactor := rfl
@[simp] theorem State.cleared_argLen : (s.cleared).argLen = s.argLen := rfl
@[simp] theorem State.cleared_phase : (s.cleared).phase = .header := rfl
@[simp] theorem State.cleared_hdrMethod : (s.cleared).hdrMethod = 0 := rfl
@[simp] theorem State.cleared_hdrFactor : (s.cleared).hdrFactor = 0 := rfl
@[simp] theorem State.cleared_hdrSrcLen : (s.cleared).hdrSrcLen = 0 := rfl
@[simp] theorem State.cleared_err : (s.cleared).err = .noError := rfl
@[simp] theorem State.cleared_uncorrCnt : (s.cleared).uncorrCnt = 0 := rfl
@[simp] theorem State.cleared_tailDropped : (s.cleared).tailDropped = 0 := rfl
@[simp] theorem State.cleared_padAmount : (s.cleared).padAmount = 0 := rfl
@[simp] theorem State.cleared_inBuf : (s.cleared).inBuf = s.inBuf := rfl
@[simp] theorem State.cleared_outBuf : (s.cleared).outBuf = .empty := rfl
@[simp] theorem State.cleared_rom : (s.cleared).rom = s.rom := rfl
@[simp] theorem State.cleared_heldInReset : (s.cleared).heldInReset = s.heldInReset := rfl

/-! ### State.raise -/

@[simp] theorem State.raise_cmd (k : ErrorKind) : (s.raise k).cmd = s.cmd := rfl
@[simp] theorem State.raise_argMethod (k : ErrorKind) : (s.raise k).argMethod = s.argMethod := rfl
@[simp] theorem State.raise_argFactor (k : ErrorKind) : (s.raise k).argFactor = s.argFactor := rfl
@[simp] theorem State.raise_argLen (k : ErrorKind) : (s.raise k).argLen = s.argLen := rfl
@[simp] theorem State.raise_phase (k : ErrorKind) : (s.raise k).phase = s.phase := rfl
@[simp] theorem State.raise_hdrMethod (k : ErrorKind) : (s.raise k).hdrMethod = s.hdrMethod := rfl
@[simp] theorem State.raise_hdrFactor (k : ErrorKind) : (s.raise k).hdrFactor = s.hdrFactor := rfl
@[simp] theorem State.raise_hdrSrcLen (k : ErrorKind) : (s.raise k).hdrSrcLen = s.hdrSrcLen := rfl
@[simp] theorem State.raise_err (k : ErrorKind) : (s.raise k).err = k := rfl
@[simp] theorem State.raise_uncorrCnt (k : ErrorKind) : (s.raise k).uncorrCnt = s.uncorrCnt := rfl
@[simp] theorem State.raise_tailDropped (k : ErrorKind) : (s.raise k).tailDropped = s.tailDropped := rfl
@[simp] theorem State.raise_padAmount (k : ErrorKind) : (s.raise k).padAmount = s.padAmount := rfl
@[simp] theorem State.raise_inBuf (k : ErrorKind) : (s.raise k).inBuf = s.inBuf := rfl
@[simp] theorem State.raise_outBuf (k : ErrorKind) : (s.raise k).outBuf = .empty := rfl
@[simp] theorem State.raise_rom (k : ErrorKind) : (s.raise k).rom = s.rom := rfl
@[simp] theorem State.raise_heldInReset (k : ErrorKind) : (s.raise k).heldInReset = s.heldInReset := rfl

/-! ### State.setPhase -/

@[simp] theorem State.setPhase_cmd (p : Phase) : (s.setPhase p).cmd = s.cmd := rfl
@[simp] theorem State.setPhase_argMethod (p : Phase) : (s.setPhase p).argMethod = s.argMethod := rfl
@[simp] theorem State.setPhase_argFactor (p : Phase) : (s.setPhase p).argFactor = s.argFactor := rfl
@[simp] theorem State.setPhase_argLen (p : Phase) : (s.setPhase p).argLen = s.argLen := rfl
@[simp] theorem State.setPhase_phase (p : Phase) : (s.setPhase p).phase = p := rfl
@[simp] theorem State.setPhase_hdrMethod (p : Phase) : (s.setPhase p).hdrMethod = s.hdrMethod := rfl
@[simp] theorem State.setPhase_hdrFactor (p : Phase) : (s.setPhase p).hdrFactor = s.hdrFactor := rfl
@[simp] theorem State.setPhase_hdrSrcLen (p : Phase) : (s.setPhase p).hdrSrcLen = s.hdrSrcLen := rfl
@[simp] theorem State.setPhase_err (p : Phase) : (s.setPhase p).err = s.err := rfl
@[simp] theorem State.setPhase_uncorrCnt (p : Phase) : (s.setPhase p).uncorrCnt = s.uncorrCnt := rfl
@[simp] theorem State.setPhase_tailDropped (p : Phase) : (s.setPhase p).tailDropped = s.tailDropped := rfl
@[simp] theorem State.setPhase_padAmount (p : Phase) : (s.setPhase p).padAmount = s.padAmount := rfl
@[simp] theorem State.setPhase_inBuf (p : Phase) : (s.setPhase p).inBuf = s.inBuf := rfl
@[simp] theorem State.setPhase_outBuf (p : Phase) : (s.setPhase p).outBuf = s.outBuf := rfl
@[simp] theorem State.setPhase_rom (p : Phase) : (s.setPhase p).rom = s.rom := rfl
@[simp] theorem State.setPhase_heldInReset (p : Phase) : (s.setPhase p).heldInReset = s.heldInReset := rfl

/-! ### State.setHeader -/

@[simp] theorem State.setHeader_cmd (m f L : Nat) : (s.setHeader m f L).cmd = s.cmd := rfl
@[simp] theorem State.setHeader_argMethod (m f L : Nat) : (s.setHeader m f L).argMethod = s.argMethod := rfl
@[simp] theorem State.setHeader_argFactor (m f L : Nat) : (s.setHeader m f L).argFactor = s.argFactor := rfl
@[simp] theorem State.setHeader_argLen (m f L : Nat) : (s.setHeader m f L).argLen = s.argLen := rfl
@[simp] theorem State.setHeader_phase (m f L : Nat) : (s.setHeader m f L).phase = s.phase := rfl
@[simp] theorem State.setHeader_hdrMethod (m f L : Nat) : (s.setHeader m f L).hdrMethod = BitVec.ofNat 8 m := rfl
@[simp] theorem State.setHeader_hdrFactor (m f L : Nat) : (s.setHeader m f L).hdrFactor = BitVec.ofNat 8 f := rfl
@[simp] theorem State.setHeader_hdrSrcLen (m f L : Nat) : (s.setHeader m f L).hdrSrcLen = BitVec.ofNat 32 L := rfl
@[simp] theorem State.setHeader_err (m f L : Nat) : (s.setHeader m f L).err = s.err := rfl
@[simp] theorem State.setHeader_uncorrCnt (m f L : Nat) : (s.setHeader m f L).uncorrCnt = s.uncorrCnt := rfl
@[simp] theorem State.setHeader_tailDropped (m f L : Nat) : (s.setHeader m f L).tailDropped = s.tailDropped := rfl
@[simp] theorem State.setHeader_padAmount (m f L : Nat) : (s.setHeader m f L).padAmount = s.padAmount := rfl
@[simp] theorem State.setHeader_inBuf (m f L : Nat) : (s.setHeader m f L).inBuf = s.inBuf := rfl
@[simp] theorem State.setHeader_outBuf (m f L : Nat) : (s.setHeader m f L).outBuf = s.outBuf := rfl
@[simp] theorem State.setHeader_rom (m f L : Nat) : (s.setHeader m f L).rom = s.rom := rfl
@[simp] theorem State.setHeader_heldInReset (m f L : Nat) : (s.setHeader m f L).heldInReset = s.heldInReset := rfl

/-! ### State.setUncorr -/

@[simp] theorem State.setUncorr_cmd (n : Nat) : (s.setUncorr n).cmd = s.cmd := rfl
@[simp] theorem State.setUncorr_argMethod (n : Nat) : (s.setUncorr n).argMethod = s.argMethod := rfl
@[simp] theorem State.setUncorr_argFactor (n : Nat) : (s.setUncorr n).argFactor = s.argFactor := rfl
@[simp] theorem State.setUncorr_argLen (n : Nat) : (s.setUncorr n).argLen = s.argLen := rfl
@[simp] theorem State.setUncorr_phase (n : Nat) : (s.setUncorr n).phase = s.phase := rfl
@[simp] theorem State.setUncorr_hdrMethod (n : Nat) : (s.setUncorr n).hdrMethod = s.hdrMethod := rfl
@[simp] theorem State.setUncorr_hdrFactor (n : Nat) : (s.setUncorr n).hdrFactor = s.hdrFactor := rfl
@[simp] theorem State.setUncorr_hdrSrcLen (n : Nat) : (s.setUncorr n).hdrSrcLen = s.hdrSrcLen := rfl
@[simp] theorem State.setUncorr_err (n : Nat) : (s.setUncorr n).err = s.err := rfl
@[simp] theorem State.setUncorr_uncorrCnt (n : Nat) : (s.setUncorr n).uncorrCnt = n := rfl
@[simp] theorem State.setUncorr_tailDropped (n : Nat) : (s.setUncorr n).tailDropped = s.tailDropped := rfl
@[simp] theorem State.setUncorr_padAmount (n : Nat) : (s.setUncorr n).padAmount = s.padAmount := rfl
@[simp] theorem State.setUncorr_inBuf (n : Nat) : (s.setUncorr n).inBuf = s.inBuf := rfl
@[simp] theorem State.setUncorr_outBuf (n : Nat) : (s.setUncorr n).outBuf = s.outBuf := rfl
@[simp] theorem State.setUncorr_rom (n : Nat) : (s.setUncorr n).rom = s.rom := rfl
@[simp] theorem State.setUncorr_heldInReset (n : Nat) : (s.setUncorr n).heldInReset = s.heldInReset := rfl

/-! ### State.setTail -/

@[simp] theorem State.setTail_cmd (n : Nat) : (s.setTail n).cmd = s.cmd := rfl
@[simp] theorem State.setTail_argMethod (n : Nat) : (s.setTail n).argMethod = s.argMethod := rfl
@[simp] theorem State.setTail_argFactor (n : Nat) : (s.setTail n).argFactor = s.argFactor := rfl
@[simp] theorem State.setTail_argLen (n : Nat) : (s.setTail n).argLen = s.argLen := rfl
@[simp] theorem State.setTail_phase (n : Nat) : (s.setTail n).phase = s.phase := rfl
@[simp] theorem State.setTail_hdrMethod (n : Nat) : (s.setTail n).hdrMethod = s.hdrMethod := rfl
@[simp] theorem State.setTail_hdrFactor (n : Nat) : (s.setTail n).hdrFactor = s.hdrFactor := rfl
@[simp] theorem State.setTail_hdrSrcLen (n : Nat) : (s.setTail n).hdrSrcLen = s.hdrSrcLen := rfl
@[simp] theorem State.setTail_err (n : Nat) : (s.setTail n).err = s.err := rfl
@[simp] theorem State.setTail_uncorrCnt (n : Nat) : (s.setTail n).uncorrCnt = s.uncorrCnt := rfl
@[simp] theorem State.setTail_tailDropped (n : Nat) : (s.setTail n).tailDropped = n := rfl
@[simp] theorem State.setTail_padAmount (n : Nat) : (s.setTail n).padAmount = s.padAmount := rfl
@[simp] theorem State.setTail_inBuf (n : Nat) : (s.setTail n).inBuf = s.inBuf := rfl
@[simp] theorem State.setTail_outBuf (n : Nat) : (s.setTail n).outBuf = s.outBuf := rfl
@[simp] theorem State.setTail_rom (n : Nat) : (s.setTail n).rom = s.rom := rfl
@[simp] theorem State.setTail_heldInReset (n : Nat) : (s.setTail n).heldInReset = s.heldInReset := rfl

/-! ### State.setPad -/

@[simp] theorem State.setPad_cmd (n : Nat) : (s.setPad n).cmd = s.cmd := rfl
@[simp] theorem State.setPad_argMethod (n : Nat) : (s.setPad n).argMethod = s.argMethod := rfl
@[simp] theorem State.setPad_argFactor (n : Nat) : (s.setPad n).argFactor = s.argFactor := rfl
@[simp] theorem State.setPad_argLen (n : Nat) : (s.setPad n).argLen = s.argLen := rfl
@[simp] theorem State.setPad_phase (n : Nat) : (s.setPad n).phase = s.phase := rfl
@[simp] theorem State.setPad_hdrMethod (n : Nat) : (s.setPad n).hdrMethod = s.hdrMethod := rfl
@[simp] theorem State.setPad_hdrFactor (n : Nat) : (s.setPad n).hdrFactor = s.hdrFactor := rfl
@[simp] theorem State.setPad_hdrSrcLen (n : Nat) : (s.setPad n).hdrSrcLen = s.hdrSrcLen := rfl
@[simp] theorem State.setPad_err (n : Nat) : (s.setPad n).err = s.err := rfl
@[simp] theorem State.setPad_uncorrCnt (n : Nat) : (s.setPad n).uncorrCnt = s.uncorrCnt := rfl
@[simp] theorem State.setPad_tailDropped (n : Nat) : (s.setPad n).tailDropped = s.tailDropped := rfl
@[simp] theorem State.setPad_padAmount (n : Nat) : (s.setPad n).padAmount = n := rfl
@[simp] theorem State.setPad_inBuf (n : Nat) : (s.setPad n).inBuf = s.inBuf := rfl
@[simp] theorem State.setPad_outBuf (n : Nat) : (s.setPad n).outBuf = s.outBuf := rfl
@[simp] theorem State.setPad_rom (n : Nat) : (s.setPad n).rom = s.rom := rfl
@[simp] theorem State.setPad_heldInReset (n : Nat) : (s.setPad n).heldInReset = s.heldInReset := rfl

/-! ### State.setOut -/

@[simp] theorem State.setOut_cmd (b : Buffer) : (s.setOut b).cmd = s.cmd := rfl
@[simp] theorem State.setOut_argMethod (b : Buffer) : (s.setOut b).argMethod = s.argMethod := rfl
@[simp] theorem State.setOut_argFactor (b : Buffer) : (s.setOut b).argFactor = s.argFactor := rfl
@[simp] theorem State.setOut_argLen (b : Buffer) : (s.setOut b).argLen = s.argLen := rfl
@[simp] theorem State.setOut_phase (b : Buffer) : (s.setOut b).phase = s.phase := rfl
@[simp] theorem State.setOut_hdrMethod (b : Buffer) : (s.setOut b).hdrMethod = s.hdrMethod := rfl
@[simp] theorem State.setOut_hdrFactor (b : Buffer) : (s.setOut b).hdrFactor = s.hdrFactor := rfl
@[simp] theorem State.setOut_hdrSrcLen (b : Buffer) : (s.setOut b).hdrSrcLen = s.hdrSrcLen := rfl
@[simp] theorem State.setOut_err (b : Buffer) : (s.setOut b).err = s.err := rfl
@[simp] theorem State.setOut_uncorrCnt (b : Buffer) : (s.setOut b).uncorrCnt = s.uncorrCnt := rfl
@[simp] theorem State.setOut_tailDropped (b : Buffer) : (s.setOut b).tailDropped = s.tailDropped := rfl
@[simp] theorem State.setOut_padAmount (b : Buffer) : (s.setOut b).padAmount = s.padAmount := rfl
@[simp] theorem State.setOut_inBuf (b : Buffer) : (s.setOut b).inBuf = s.inBuf := rfl
@[simp] theorem State.setOut_outBuf (b : Buffer) : (s.setOut b).outBuf = b := rfl
@[simp] theorem State.setOut_rom (b : Buffer) : (s.setOut b).rom = s.rom := rfl
@[simp] theorem State.setOut_heldInReset (b : Buffer) : (s.setOut b).heldInReset = s.heldInReset := rfl

/-! ### State.putCommand -/

@[simp] theorem State.putCommand_cmd (w : Nat) : (s.putCommand w).cmd = BitVec.ofNat 8 (w >>> 48) := rfl
@[simp] theorem State.putCommand_argMethod (w : Nat) : (s.putCommand w).argMethod = BitVec.ofNat 8 (w >>> 40) := rfl
@[simp] theorem State.putCommand_argFactor (w : Nat) : (s.putCommand w).argFactor = BitVec.ofNat 8 (w >>> 32) := rfl
@[simp] theorem State.putCommand_argLen (w : Nat) : (s.putCommand w).argLen = BitVec.ofNat 32 w := rfl
@[simp] theorem State.putCommand_phase (w : Nat) : (s.putCommand w).phase = s.phase := rfl
@[simp] theorem State.putCommand_hdrMethod (w : Nat) : (s.putCommand w).hdrMethod = s.hdrMethod := rfl
@[simp] theorem State.putCommand_hdrFactor (w : Nat) : (s.putCommand w).hdrFactor = s.hdrFactor := rfl
@[simp] theorem State.putCommand_hdrSrcLen (w : Nat) : (s.putCommand w).hdrSrcLen = s.hdrSrcLen := rfl
@[simp] theorem State.putCommand_err (w : Nat) : (s.putCommand w).err = s.err := rfl
@[simp] theorem State.putCommand_uncorrCnt (w : Nat) : (s.putCommand w).uncorrCnt = s.uncorrCnt := rfl
@[simp] theorem State.putCommand_tailDropped (w : Nat) : (s.putCommand w).tailDropped = s.tailDropped := rfl
@[simp] theorem State.putCommand_padAmount (w : Nat) : (s.putCommand w).padAmount = s.padAmount := rfl
@[simp] theorem State.putCommand_inBuf (w : Nat) : (s.putCommand w).inBuf = s.inBuf := rfl
@[simp] theorem State.putCommand_outBuf (w : Nat) : (s.putCommand w).outBuf = s.outBuf := rfl
@[simp] theorem State.putCommand_rom (w : Nat) : (s.putCommand w).rom = s.rom := rfl
@[simp] theorem State.putCommand_heldInReset (w : Nat) : (s.putCommand w).heldInReset = s.heldInReset := rfl

/-! ### State.putHeader -/

@[simp] theorem State.putHeader_cmd (w : Nat) : (s.putHeader w).cmd = 0x51 := rfl
@[simp] theorem State.putHeader_argMethod (w : Nat) : (s.putHeader w).argMethod = s.argMethod := rfl
@[simp] theorem State.putHeader_argFactor (w : Nat) : (s.putHeader w).argFactor = s.argFactor := rfl
@[simp] theorem State.putHeader_argLen (w : Nat) : (s.putHeader w).argLen = s.argLen := rfl
@[simp] theorem State.putHeader_phase (w : Nat) : (s.putHeader w).phase = s.phase := rfl
@[simp] theorem State.putHeader_hdrMethod (w : Nat) : (s.putHeader w).hdrMethod = s.hdrMethod := rfl
@[simp] theorem State.putHeader_hdrFactor (w : Nat) : (s.putHeader w).hdrFactor = s.hdrFactor := rfl
@[simp] theorem State.putHeader_hdrSrcLen (w : Nat) : (s.putHeader w).hdrSrcLen = s.hdrSrcLen := rfl
@[simp] theorem State.putHeader_err (w : Nat) : (s.putHeader w).err = s.err := rfl
@[simp] theorem State.putHeader_uncorrCnt (w : Nat) : (s.putHeader w).uncorrCnt = s.uncorrCnt := rfl
@[simp] theorem State.putHeader_tailDropped (w : Nat) : (s.putHeader w).tailDropped = s.tailDropped := rfl
@[simp] theorem State.putHeader_padAmount (w : Nat) : (s.putHeader w).padAmount = s.padAmount := rfl
@[simp] theorem State.putHeader_inBuf (w : Nat) : (s.putHeader w).inBuf = .bytes (layWord .hdr48 w ++ payloadBytes s.inBuf) := rfl
@[simp] theorem State.putHeader_outBuf (w : Nat) : (s.putHeader w).outBuf = s.outBuf := rfl
@[simp] theorem State.putHeader_rom (w : Nat) : (s.putHeader w).rom = s.rom := rfl
@[simp] theorem State.putHeader_heldInReset (w : Nat) : (s.putHeader w).heldInReset = s.heldInReset := rfl

/-- The clearing that starts every operation is the state the claims call `cleared`. -/
theorem State.fresh_eq_cleared : s.fresh = s.cleared := rfl

/-- Clearing twice is clearing once. -/
@[simp] theorem State.fresh_fresh : s.fresh.fresh = s.fresh := rfl

/-! ### Clearing forgets every write of a result register or of `OUT` -/

@[simp] theorem State.setPhase_fresh (p : Phase) : (s.setPhase p).fresh = s.fresh := rfl
@[simp] theorem State.setHeader_fresh (m f L : Nat) : (s.setHeader m f L).fresh = s.fresh := rfl
@[simp] theorem State.setUncorr_fresh (n : Nat) : (s.setUncorr n).fresh = s.fresh := rfl
@[simp] theorem State.setTail_fresh (n : Nat) : (s.setTail n).fresh = s.fresh := rfl
@[simp] theorem State.setPad_fresh (n : Nat) : (s.setPad n).fresh = s.fresh := rfl
@[simp] theorem State.setOut_fresh (b : Buffer) : (s.setOut b).fresh = s.fresh := rfl
@[simp] theorem State.raise_fresh (k : ErrorKind) : (s.raise k).fresh = s.fresh := rfl

end Sys2Proof.Machine
end

