-- ==== Sys2Proof/Laws/Ops.lean ====
section
/-! SUPPORT. For each shared operation, once, everything it can do (Machine/Ops.lean, Machine/Operands.lean): reading `IN` as
the kind an operation takes, the legality checks, the abort. -/
namespace Sys2Proof.Machine

/-! ### Legal operands -/

theorem legalRep_iff (n : Nat) : legalRep n = true ↔ n ∈ [3, 5, 7, 9] := by simp [legalRep, Config.repFactors]

theorem legalLb_iff (j : Nat) : legalLb j = true ↔ j ∈ [3, 4, 5] := by simp [legalLb, Config.lbParams]

theorem legalMethod_iff (m : Nat) : legalMethod m = true ↔ m = 0 ∨ m = 1 := by
  simp [legalMethod, Config.tagRepetition, Config.tagLinearBlock]

theorem factorSuits_iff {m f : Nat} (h : m = 0 ∨ m = 1) :
    factorSuits m f = true ↔ m = 0 ∧ f ∈ [3, 5, 7, 9] ∨ m = 1 ∧ f ∈ [3, 4, 5] := by
  rcases h with rfl | rfl
  · simp [factorSuits, Config.tagRepetition, legalRep_iff]
  · simp [factorSuits, Config.tagRepetition, legalLb_iff]

/-! ### The kinds of IN -/

theorem asBytes_eq_some {b : Buffer} {content : Bytes} : b.asBytes = some content ↔ b.isBytes content := by
  cases b <;> simp [Buffer.asBytes, Buffer.isBytes, eq_comm]

theorem asBits_eq_some {b : Buffer} {content : Bits} : b.asBits = some content ↔ b.isBits content := by
  cases b <;> simp [Buffer.asBits, Buffer.isBits, eq_comm]

theorem withBytes_of_isBytes {s : State} {content : Bytes} (h : s.inBuf.isBytes content) (run : Bytes → State) :
    withBytes s run = .next (run content) := by rw [withBytes, asBytes_eq_some.2 h]

theorem withBits_of_isBits {s : State} {content : Bits} (h : s.inBuf.isBits content) (run : Bits → State) :
    withBits s run = .next (run content) := by rw [withBits, asBits_eq_some.2 h]

theorem withBytes_of_bits {s : State} {content : Bits} (h : s.inBuf = .bits content) (run : Bytes → State) :
    withBytes s run = .refused .wrongBufferKind := by simp [withBytes, Buffer.asBytes, h]

theorem withBits_of_bytes {s : State} {content : Bytes} (h : s.inBuf = .bytes content) (run : Bits → State) :
    withBits s run = .refused .wrongBufferKind := by simp [withBits, Buffer.asBits, h]

/-- An operation on bytes goes on only with a byte buffer, and then to what it makes of its content. -/
theorem withBytes_eq_next {s t : State} {run : Bytes → State} :
    withBytes s run = .next t ↔ ∃ content, s.inBuf.isBytes content ∧ run content = t := by
  simp only [withBytes, ← asBytes_eq_some]
  cases s.inBuf.asBytes <;> simp

/-- An operation on bits goes on only with a bit sequence, and then to what it makes of its content. -/
theorem withBits_eq_next {s t : State} {run : Bits → State} :
    withBits s run = .next t ↔ ∃ content, s.inBuf.isBits content ∧ run content = t := by
  simp only [withBits, ← asBits_eq_some]
  cases s.inBuf.asBits <;> simp

/-- The content a buffer holds is one. -/
theorem isBytes_unique {b : Buffer} {x y : Bytes} (hx : b.isBytes x) (hy : b.isBytes y) : x = y :=
  Option.some.inj ((asBytes_eq_some.2 hx).symm.trans (asBytes_eq_some.2 hy))

theorem isBits_unique {b : Buffer} {x y : Bits} (hx : b.isBits x) (hy : b.isBits y) : x = y :=
  Option.some.inj ((asBits_eq_some.2 hx).symm.trans (asBits_eq_some.2 hy))

/-! ### Catalog read-out -/

theorem readCatalog_legal {j : Nat} (h : j ∈ [3, 4, 5]) (out : CodeTables → Buffer) (s : State) :
    readCatalog j out s = .next (s.fresh.setOut (out (s.rom.code j))) := by
  rw [readCatalog, if_pos ((legalLb_iff j).2 h)]

theorem readCatalog_illegal {j : Nat} (h : j ∉ [3, 4, 5]) (out : CodeTables → Buffer) (s : State) :
    readCatalog j out s = .next (s.fresh.raise .unsupportedParameter) := by
  rw [readCatalog, if_neg (mt (legalLb_iff j).1 h)]

/-- The tables a state that holds a valid catalog reads. -/
theorem holdsCatalog_code {s : State} {c : Catalog} (h : s.holdsCatalog c) {j : Nat} (hj : j ∈ Config.lbParams) :
    s.rom.code j = CodeTables.build j (c.p j) := by rw [h.2, ofCatalog_code c hj]

end Sys2Proof.Machine
end

