-- ==== Sys2Proof/Laws/Exec.lean ====
section
/-! SUPPORT. Said once, everything an instruction can leave behind: the shape of the next state of each instruction, in the
named updates of Machine/Flags.lean and Machine/Ops.lean. A claim about every instruction splits on this, and never unfolds
a meaning. -/
namespace Sys2Proof.Machine

/-- The states instruction i can end in from s. -/
def Leaves (s t : State) : Instr → Prop
  | .getg _ | .geth _ => (∃ l, t = s.fresh.setOut (.bits l)) ∨ t = s.fresh.raise .unsupportedParameter
  | .getsyn _ => (∃ l, t = s.fresh.setOut (.bytes l)) ∨ t = s.fresh.raise .unsupportedParameter
  | .b2bits | .trunc _ | .hdrenc _ _ _ => ∃ l, t = s.fresh.setOut (.bits l)
  | .bits2b => ∃ l p, t = (s.fresh.setOut (.bytes l)).setPad p
  | .padblk _ => (∃ l p, t = (s.fresh.setOut (.bits l)).setPad p) ∨ t = s.fresh.raise .unsupportedParameter
  | .hdrdec => (∃ m f L, t = (s.fresh.setHeader m f L).setTail 0) ∨ t = s.fresh.raise .headerCorrupt
  | .repenc _ | .lbenc _ => (∃ l, t = s.fresh.setOut (.bits l)) ∨ t = s.fresh.raise .unsupportedFactor
  | .repdec _ => (∃ l n, t = (s.fresh.setOut (.bits l)).setTail n) ∨ t = s.fresh.raise .unsupportedFactor
  | .lbdec _ =>
    (∃ l u n, t = ((s.fresh.setOut (.bits l)).setUncorr u).setTail n) ∨ t = s.fresh.raise .unsupportedFactor
  | .encode _ _ =>
    (∃ l, t = s.fresh.setOut (.bytes l)) ∨
      ∃ k, (k = .unsupportedParameter ∨ k = .unsupportedFactor ∨ k = .lengthOverflow) ∧ t = s.fresh.raise k
  | .decode =>
    (∃ m f L d u n, t = (s.headerSeen m f L).finishDecode d u n L) ∨
      (∃ m f L k, (k = .unsupportedFactor ∨ k = .unsupportedParameter) ∧ t = (s.headerSeen m f L).raise k) ∨
      t = s.fresh.raise .headerCorrupt
  | .hdrRep3 _ | .hdrRep5 _ | .hdrRep7 _ | .hdrRep9 _ | .hdrLb3 _ | .hdrLb4 _ | .hdrLb5 _ =>
    ∃ m f L d u n, t = (s.headerSeen m f L).finishDecode d u n L

theorem readCatalog_leaves {j : Nat} {out : CodeTables → Buffer} {s t : State} (h : readCatalog j out s = .next t) :
    (t = s.fresh.setOut (out (s.rom.code j))) ∨ t = s.fresh.raise .unsupportedParameter := by
  rw [readCatalog, Host.Outcome.next.injEq] at h
  subst h
  split
  · exact .inl rfl
  · exact .inr rfl

/-- The dispatch of `DECODE` on a recovered header (rule R109). -/
theorem dispatchHeader_leaves (h : HeaderFields) (s : State) (frame : Bytes) :
    (∃ m f L d u n, dispatchHeader h s frame = (s.headerSeen m f L).finishDecode d u n L) ∨
      ∃ m f L k, (k = .unsupportedFactor ∨ k = .unsupportedParameter) ∧
        dispatchHeader h s frame = (s.headerSeen m f L).raise k := by
  rw [dispatchHeader]
  split
  · split
    · exact .inl ⟨_, _, _, _, _, _, rfl⟩
    · exact .inr ⟨_, _, _, _, .inl rfl, rfl⟩
  · split
    · split
      · exact .inl ⟨_, _, _, _, _, _, rfl⟩
      · exact .inr ⟨_, _, _, _, .inl rfl, rfl⟩
    · exact .inr ⟨_, _, _, _, .inr rfl, rfl⟩

/-- Every instruction that goes on leaves one of its states. -/
theorem exec_leaves {i : Instr} {s t : State} (h : exec i s = .next t) : Leaves s t i := by
  cases i with
  | getg j => simp only [exec, execGetg] at h; exact (readCatalog_leaves h).imp (fun e => ⟨_, e⟩) id
  | geth j => simp only [exec, execGeth] at h; exact (readCatalog_leaves h).imp (fun e => ⟨_, e⟩) id
  | getsyn j => simp only [exec, execGetsyn] at h; exact (readCatalog_leaves h).imp (fun e => ⟨_, e⟩) id
  | b2bits => obtain ⟨_, -, rfl⟩ := withBytes_eq_next.1 h; exact ⟨_, rfl⟩
  | bits2b => obtain ⟨_, -, rfl⟩ := withBits_eq_next.1 h; exact ⟨_, _, rfl⟩
  | padblk S =>
    obtain ⟨_, -, rfl⟩ := withBits_eq_next.1 h
    simp only [Leaves]
    split
    · exact .inr rfl
    · exact .inl ⟨_, _, rfl⟩
  | trunc E => obtain ⟨_, -, rfl⟩ := withBits_eq_next.1 h; exact ⟨_, rfl⟩
  | hdrenc m f L => cases h; exact ⟨_, rfl⟩
  | hdrdec =>
    obtain ⟨_, -, rfl⟩ := withBits_eq_next.1 h
    simp only [Leaves]
    split
    · exact .inr rfl
    · exact .inl ⟨_, _, _, rfl⟩
  | repenc n =>
    obtain ⟨_, -, rfl⟩ := withBits_eq_next.1 h
    simp only [Leaves]
    split
    · exact .inl ⟨_, rfl⟩
    · exact .inr rfl
  | repdec n =>
    obtain ⟨_, -, rfl⟩ := withBits_eq_next.1 h
    simp only [Leaves]
    split
    · exact .inl ⟨_, _, rfl⟩
    · exact .inr rfl
  | lbenc j =>
    obtain ⟨_, -, rfl⟩ := withBits_eq_next.1 h
    simp only [Leaves]
    split
    · exact .inl ⟨_, rfl⟩
    · exact .inr rfl
  | lbdec j =>
    obtain ⟨_, -, rfl⟩ := withBits_eq_next.1 h
    simp only [Leaves]
    split
    · exact .inl ⟨_, _, _, rfl⟩
    · exact .inr rfl
  | encode m f =>
    obtain ⟨_, -, rfl⟩ := withBytes_eq_next.1 h
    simp only [Leaves]
    split
    · exact .inr ⟨_, .inl rfl, rfl⟩
    · split
      · exact .inr ⟨_, .inr (.inl rfl), rfl⟩
      · split
        · exact .inr ⟨_, .inr (.inr rfl), rfl⟩
        · exact .inl ⟨_, rfl⟩
  | decode =>
    obtain ⟨_, -, rfl⟩ := withBytes_eq_next.1 h
    simp only [Leaves]
    split
    · exact .inr (.inr rfl)
    · exact (dispatchHeader_leaves _ _ _).imp id .inl
  | hdrRep3 L => obtain ⟨_, -, rfl⟩ := withBytes_eq_next.1 h; exact ⟨_, _, _, _, _, _, rfl⟩
  | hdrRep5 L => obtain ⟨_, -, rfl⟩ := withBytes_eq_next.1 h; exact ⟨_, _, _, _, _, _, rfl⟩
  | hdrRep7 L => obtain ⟨_, -, rfl⟩ := withBytes_eq_next.1 h; exact ⟨_, _, _, _, _, _, rfl⟩
  | hdrRep9 L => obtain ⟨_, -, rfl⟩ := withBytes_eq_next.1 h; exact ⟨_, _, _, _, _, _, rfl⟩
  | hdrLb3 L => obtain ⟨_, -, rfl⟩ := withBytes_eq_next.1 h; exact ⟨_, _, _, _, _, _, rfl⟩
  | hdrLb4 L => obtain ⟨_, -, rfl⟩ := withBytes_eq_next.1 h; exact ⟨_, _, _, _, _, _, rfl⟩
  | hdrLb5 L => obtain ⟨_, -, rfl⟩ := withBytes_eq_next.1 h; exact ⟨_, _, _, _, _, _, rfl⟩

/-- The recovered header leaves the request and the ROM alone. -/
@[simp] theorem State.headerSeen_fresh (s : State) (m f L : Nat) : (s.headerSeen m f L).fresh = s.fresh := by
  simp only [State.headerSeen, State.setPhase_fresh, State.setHeader_fresh, State.fresh_fresh]

/-- The end of `DECODE` leaves the request and the ROM alone. -/
@[simp] theorem State.finishDecode_fresh (s : State) (d : Bits) (u n L : Nat) :
    (s.finishDecode d u n L).fresh = s.fresh := by
  simp only [State.finishDecode, State.setPhase_fresh, State.setOut_fresh, State.setTail_fresh, State.setUncorr_fresh]

/-- No instruction touches anything but the result registers and `OUT` (rules R17, R125). -/
theorem leaves_fresh {i : Instr} {s t : State} (h : Leaves s t i) : t.fresh = s.fresh := by
  cases i with
  | getg j => obtain ⟨_, rfl⟩ | rfl := h <;> simp
  | geth j => obtain ⟨_, rfl⟩ | rfl := h <;> simp
  | getsyn j => obtain ⟨_, rfl⟩ | rfl := h <;> simp
  | b2bits => obtain ⟨_, rfl⟩ := h; simp
  | trunc _ => obtain ⟨_, rfl⟩ := h; simp
  | hdrenc _ _ _ => obtain ⟨_, rfl⟩ := h; simp
  | bits2b => obtain ⟨_, _, rfl⟩ := h; simp
  | padblk _ => obtain ⟨_, _, rfl⟩ | rfl := h <;> simp
  | hdrdec => obtain ⟨_, _, _, rfl⟩ | rfl := h <;> simp
  | repenc _ => obtain ⟨_, rfl⟩ | rfl := h <;> simp
  | lbenc _ => obtain ⟨_, rfl⟩ | rfl := h <;> simp
  | repdec _ => obtain ⟨_, _, rfl⟩ | rfl := h <;> simp
  | lbdec _ => obtain ⟨_, _, _, rfl⟩ | rfl := h <;> simp
  | encode _ _ => obtain ⟨_, rfl⟩ | ⟨_, _, rfl⟩ := h <;> simp
  | decode => obtain ⟨_, _, _, _, _, _, rfl⟩ | ⟨_, _, _, _, _, rfl⟩ | rfl := h <;> simp
  | hdrRep3 _ => obtain ⟨_, _, _, _, _, _, rfl⟩ := h; simp
  | hdrRep5 _ => obtain ⟨_, _, _, _, _, _, rfl⟩ := h; simp
  | hdrRep7 _ => obtain ⟨_, _, _, _, _, _, rfl⟩ := h; simp
  | hdrRep9 _ => obtain ⟨_, _, _, _, _, _, rfl⟩ := h; simp
  | hdrLb3 _ => obtain ⟨_, _, _, _, _, _, rfl⟩ := h; simp
  | hdrLb4 _ => obtain ⟨_, _, _, _, _, _, rfl⟩ := h; simp
  | hdrLb5 _ => obtain ⟨_, _, _, _, _, _, rfl⟩ := h; simp

/-- The meaning of an instruction reads its start state through the cleared one only (rules R18, R31). -/
theorem exec_fresh (i : Instr) (s : State) : exec i s.fresh = exec i s := by
  cases i <;>
    simp only [exec, execGetg, execGeth, execGetsyn, readCatalog, execB2bits, execBits2b, execPadblk, execTrunc, execHdrenc,
      execHdrdec, execRepenc, execRepdec, execLbenc, execLbdec, execEncode, execDecode, dispatchHeader, execHdrRep3,
      execHdrRep5, execHdrRep7, execHdrRep9, execHdrLb3, execHdrLb4, execHdrLb5, withBytes, withBits, State.fresh_fresh,
      State.headerSeen, decodeRepFrame, decodeLbFrame, State.fresh_inBuf, State.fresh_rom]

/-- Equal cleared states: equal requests, equal `IN`, equal ROM. -/
theorem fresh_eq_iff (s s' : State) : s.fresh = s'.fresh ↔
    s.cmd = s'.cmd ∧ s.argMethod = s'.argMethod ∧ s.argFactor = s'.argFactor ∧ s.argLen = s'.argLen ∧
      s.inBuf = s'.inBuf ∧ s.rom = s'.rom ∧ s.heldInReset = s'.heldInReset := by
  simp only [State.fresh, State.mk.injEq, true_and]

/-- The four ends of `ENCODE`, in the order of its checks (rules R106, R124). -/
theorem execEncode_of_isBytes {s : State} {buf : Bytes} (h : s.inBuf.isBytes buf) (m f : Nat) :
    execEncode m f s = .next
      (if !legalMethod m then s.fresh.raise .unsupportedParameter
      else if !factorSuits m f then s.fresh.raise .unsupportedFactor
      else if 2 ^ 32 - 1 < 8 * buf.length then s.fresh.raise .lengthOverflow
      else s.fresh.setOut (.bytes (buildFrame s.rom m f buf))) := withBytes_of_isBytes h _

/-- An input whose bit count does not fit the header (rule R105). -/
theorem execEncode_overflow {s : State} {buf : Bytes} (h : s.inBuf.isBytes buf) {m f : Nat} (hm : legalMethod m = true)
    (hf : factorSuits m f = true) (hl : 2 ^ 29 ≤ buf.length) :
    execEncode m f s = .next (s.fresh.raise .lengthOverflow) := by
  rw [execEncode_of_isBytes h, hm, hf, if_neg (by decide), if_neg (by decide), if_pos (by omega)]

/-- A step that goes on runs an instruction, or takes the abort of a reserved command. -/
theorem step_next_cases {s t : State} (h : step s = .next t) :
    s.heldInReset = false ∧
      ((∃ i, fetchCommand s = .ok i ∧ exec i s = .next t) ∨ t = s.fresh.raise .illegalCommand) := by
  unfold step at h
  split at h
  · cases h
  · rename_i hr
    refine ⟨by simpa using hr, ?_⟩
    split at h
    · rename_i i hi
      exact .inl ⟨i, hi, h⟩
    · cases h
      exact .inr rfl

end Sys2Proof.Machine
end

