-- ==== Sys2Proof/Laws/LinearBlock.lean ====
section
/-! SUPPORT. The lemmas of the linear-block coder's functions (Machine/LinearBlock.lean): the bits of a codeword and of a
syndrome, zero syndromes, the locator and the corrector. -/
namespace Sys2Proof

/-! ### The row encoder -/

@[simp] theorem vecMat_nil_left (n : Nat) (M : Matrix) : vecMat n [] M = zeros n := by cases M <;> rfl

@[simp] theorem vecMat_nil_right (n : Nat) (u : Bits) : vecMat n u [] = zeros n := by cases u <;> rfl

@[simp] theorem vecMat_cons (n : Nat) (b : Bit) (u : Bits) (row : Bits) (M : Matrix) :
    vecMat n (b :: u) (row :: M) = xorBits (if b then row else zeros n) (vecMat n u M) := rfl

theorem vecMat_length {n : Nat} {M : Matrix} (h : ∀ row ∈ M, row.length = n) (u : Bits) : (vecMat n u M).length = n := by
  induction u generalizing M with
  | nil => simp
  | cons b u ih =>
    cases M with
    | nil => simp
    | cons row M =>
      have h1 : row.length = n := h row (by simp)
      have h2 := ih (M := M) fun r hr => h r (by simp [hr])
      cases b <;> simp [h1, h2]

/-- Bit `col` of `u · M` is the product of u and column `col` of M (rule R92). -/
theorem vecMat_getElem? {n : Nat} {M : Matrix} (h : ∀ row ∈ M, row.length = n) (u : Bits) {col : Nat} (hc : col < n) :
    (vecMat n u M)[col]? = some (dot u (column M col)) := by
  induction u generalizing M with
  | nil => simp [hc]
  | cons b u ih =>
    cases M with
    | nil => simp [column, hc]
    | cons row M =>
      have h1 : row.length = n := h row (by simp)
      have hM : ∀ r ∈ M, r.length = n := fun r hr => h r (by simp [hr])
      have h2 := ih hM
      have hl : (vecMat n u M).length = n := vecMat_length hM u
      rw [vecMat_cons, xorBits_getElem? _ _ _ (by cases b <;> simp [h1, hc]) (by omega),
        List.getD_eq_getElem?_getD (l := vecMat n u M), h2]
      cases b <;> simp [column, hc, List.getD_eq_getElem?_getD]

theorem dot_unitRow {m i : Nat} (h : i < m) (u : Bits) : dot u (unitRow m i) = u.getD i false := by
  rw [unitRow_eq_flipAt h, dot_comm, dot_flipAt_zeros m i u h]

section Code
variable {j k : Nat} {P : Matrix} (hk : P.length = k) (hj : ∀ row ∈ P, row.length = j)
include hk hj

theorem encRow_length (u : Bits) : (encRow (k + j) (generator k P) u).length = k + j :=
  vecMat_length (generator_row_length hk hj) u

/-- The information bits come first and unchanged (rule R92). -/
theorem encRow_take (u : Bits) (hu : u.length = k) : (encRow (k + j) (generator k P) u).take k = u := by
  apply List.ext_getElem?
  intro i
  by_cases hi : i < k
  · rw [List.getElem?_take_of_lt hi, encRow, vecMat_getElem? (generator_row_length hk hj) u (by omega),
      column_generator_info P hi, dot_unitRow hi]
    simp [List.getD_eq_getElem?_getD, List.getElem?_eq_getElem (hu ▸ hi)]
  · rw [List.getElem?_eq_none (by simp; omega), List.getElem?_eq_none (by omega)]

/-- The parity bits come last (rule R92). -/
theorem encRow_parity (u : Bits) {t : Nat} (ht : t < j) :
    (encRow (k + j) (generator k P) u)[k + t]? = some (dot u (column P t)) := by
  rw [encRow, vecMat_getElem? (generator_row_length hk hj) u (by omega), column_generator_parity hk]

/-! ### The syndrome -/

omit hj in
/-- Bit t of the syndrome: the parity of the received information bits against the received parity bit (rule R93). -/
theorem syndrome_getElem? (r : Bits) (hr : k ≤ r.length) {t : Nat} (ht : t < j) :
    (syndrome (parityCheck j k (generator k P)) r)[t]? =
      some (Bool.xor (dot (r.take k) (column P t)) (r.getD (k + t) false)) := by
  rw [syndrome, List.getElem?_map, parityCheck_getElem? hk t ht, Option.map_some]
  congr 1
  conv_lhs => rw [← List.take_append_drop k r]
  rw [dot_append _ _ (by simp only [List.length_take, column_length]; omega), dot_unitRow ht]
  simp [List.getD_eq_getElem?_getD]

/-- A codeword has zero syndrome (rule R100 (a)). -/
theorem syndrome_encRow (u : Bits) (hu : u.length = k) :
    syndrome (parityCheck j k (generator k P)) (encRow (k + j) (generator k P) u) = zeros j := by
  apply List.ext_getElem?
  intro t
  by_cases ht : t < j
  · rw [syndrome_getElem? hk _ (by rw [encRow_length hk hj]; omega) ht, encRow_take hk hj u hu,
      List.getD_eq_getElem?_getD, encRow_parity hk hj u ht]
    simp [ht]
  · rw [List.getElem?_eq_none (by simpa [syndrome] using ht), List.getElem?_eq_none (by simpa using ht)]

end Code

@[simp] theorem syndrome_length (H : Matrix) (r : Bits) : (syndrome H r).length = H.length := by simp [syndrome]

/-- The syndrome is linear (rule R100 (b)). -/
theorem syndrome_xorBits (H : Matrix) {r e : Bits} (h : r.length = e.length) :
    syndrome H (xorBits r e) = xorBits (syndrome H r) (syndrome H e) := by
  induction H with
  | nil => rfl
  | cons row H ih => simpa [syndrome, dot_xor_left row h] using ih

/-- The syndrome of a single error is its column of H (rule R100 (c)). -/
theorem syndrome_singleError (H : Matrix) {n p : Nat} (h : p < n) : syndrome H (flipAt (zeros n) p) = column H p := by
  simp [syndrome, column, dot_flipAt_zeros n p _ h]

/-! ### The locator and the corrector -/

theorem isZero_iff (s : Bits) : isZero s = true ↔ s = zeros s.length := by
  simp only [isZero, List.all_eq_true, Bool.not_eq_true', zeros, List.eq_replicate_iff, true_and]

theorem isZero_zeros (n : Nat) : isZero (zeros n) = true := by simp [isZero]

theorem val_ne_zero_of_mem {s : Bits} (h : ∃ b ∈ s, b = true) : val s ≠ 0 := by
  induction s with
  | nil => simp at h
  | cons b s ih =>
    cases b with
    | true => simp [val]
    | false =>
      simp only [val, Bool.toNat_false, Nat.zero_mul, Nat.zero_add]
      exact ih (by simpa using h)

/-- In a valid code the syndrome that is column c locates c (rule R94). -/
theorem locate_column {j : Nat} {P : Matrix} (hv : codeValid j P = true) {c : Nat} (hc : c < codeN j) :
    isZero (column (CodeTables.build j P).h c) = false ∧
      locate (CodeTables.build j P).syn (column (CodeTables.build j P).h c) = some c := by
  obtain ⟨-, -, hnz, hnd⟩ := (codeValid_iff j P).1 hv
  have hz : isZero (column (CodeTables.build j P).h c) = false := by
    obtain ⟨b, hb, rfl⟩ := hnz c hc
    simp only [isZero, List.all_eq_false]
    exact ⟨true, hb, by simp⟩
  refine ⟨hz, ?_⟩
  have := syndromeTable_column (j := j) (n := codeN j) (H := (CodeTables.build j P).h) (by simp [CodeTables.build]) hnd hc
    (val_ne_zero_of_mem (hnz c hc))
  rw [locate, hz, if_neg Bool.false_ne_true, List.getD_eq_getElem?_getD]
  exact congrArg (Option.getD · none) this

/-- A row with zero syndrome passes unchanged (rule R95). -/
theorem correctRow_of_zero {k : Nat} {T : CodeTables} {r : Bits} (h : isZero (syndrome T.h r) = true) :
    correctRow k T r = (r.take k, false) := by rw [correctRow, if_pos h]

/-- A row whose syndrome is column c of a valid code: the information bit c inverted and not counted, or, at a parity
position, the row as received and counted (rules R95, R99). -/
theorem correctRow_of_column {j : Nat} {P : Matrix} (hv : codeValid j P = true) {c : Nat} (hc : c < codeN j) {r : Bits}
    (h : syndrome (CodeTables.build j P).h r = column (CodeTables.build j P).h c) :
    correctRow (codeK j) (CodeTables.build j P) r = ((flipAt r c).take (codeK j), decide (codeK j ≤ c)) := by
  obtain ⟨hz, hl⟩ := locate_column hv hc
  rw [correctRow, h, hz, if_neg Bool.false_ne_true, hl]
  by_cases hk : c < codeK j
  · simp [hk]
  · simp [hk, flipAt_take_of_le r (Nat.le_of_not_lt hk), Nat.le_of_not_lt hk]

/-- A codeword with one wrong bit at p gives its information word back, and counts exactly when p is a parity position, for
every valid code (rule R100 (d)). -/
theorem correctRow_singleError {j : Nat} {P : Matrix} (hj : j ∈ Config.lbParams) (hv : codeValid j P = true) (u : Bits)
    (hu : u.length = codeK j) {p : Nat} (hp : p < codeN j) :
    correctRow (codeK j) (CodeTables.build j P) (flipAt (encRow (codeN j) (CodeTables.build j P).g u) p) =
      (u, decide (codeK j ≤ p)) := by
  obtain ⟨hk, hrow, -, -⟩ := (codeValid_iff j P).1 hv
  have hl : (encRow (codeN j) (CodeTables.build j P).g u).length = codeN j := by
    rw [codeN_eq hj]
    exact encRow_length hk hrow u
  have hz : syndrome (CodeTables.build j P).h (encRow (codeN j) (CodeTables.build j P).g u) = zeros j := by
    rw [codeN_eq hj]
    exact syndrome_encRow hk hrow u hu
  have hs : syndrome (CodeTables.build j P).h (flipAt (encRow (codeN j) (CodeTables.build j P).g u) p) =
      column (CodeTables.build j P).h p := by
    rw [flipAt_eq_xor _ _ (hl.symm ▸ hp), hl, syndrome_xorBits _ (by simp [hl]), syndrome_singleError _ hp, hz]
    simpa [CodeTables.build] using xorBits_zeros_left (column (CodeTables.build j P).h p)
  rw [correctRow_of_column hv hp hs, flipAt_flipAt]
  congr 1
  rw [codeN_eq hj]
  exact encRow_take hk hrow u hu

theorem correctRow_length (k : Nat) (T : CodeTables) {r : Bits} (h : k ≤ r.length) :
    (correctRow k T r).1.length = k := by
  simp only [correctRow]
  split
  · simpa using h
  · split
    · split <;> simpa using h
    · simpa using h

/-! ### Whole sequences -/

@[simp] theorem correctedRows_length (j : Nat) (T : CodeTables) (bits : Bits) :
    (correctedRows j T bits).length = bits.length / codeN j := by simp [correctedRows]

theorem correctedRows_getElem? (j : Nat) (T : CodeTables) (bits : Bits) {r : Nat} (h : r < bits.length / codeN j) :
    (correctedRows j T bits)[r]? =
      some (correctRow (codeK j) T (slice bits (codeN j * r) (codeN j * r + codeN j))) := by
  simp [correctedRows, groups_getElem? (codeN j) _ bits r h]

@[simp] theorem lbDecode_tail (j : Nat) (T : CodeTables) (bits : Bits) :
    (lbDecode j T bits).tail = bits.length % codeN j := rfl

/-- Rows times k bits (rule R97). -/
theorem lbDecode_length {j : Nat} (hj : j ∈ Config.lbParams) (T : CodeTables) (bits : Bits) :
    (lbDecode j T bits).decoded.length = codeK j * (bits.length / codeN j) := by
  rw [lbDecode, flatMap_length (codeK j) _ _ ?_, correctedRows_length]
  intro a ha
  simp only [correctedRows, List.mem_map] at ha
  obtain ⟨g, hg, rfl⟩ := ha
  have := mem_groups_length (by rw [Nat.mul_comm]; exact Nat.div_mul_le_self _ _) hg
  exact correctRow_length _ _ (by rw [this, codeN_eq hj]; omega)

end Sys2Proof
end

