-- ==== Sys2Proof/Laws/PerInstr.lean ====
section
/-! SUPPORT. One fact about every instruction as a term, one lemma per constructor: its word is a word of its row of
spec/opcode_table.json. -/
namespace Sys2Proof.Laws.RowWord

/-- The word of a well-formed instruction has the width of its row and the row's pattern under the row's mask (rules R56,
R59), and its row is one of its format. -/
def Statement (i : Instr) : Prop :=
  i.wellFormed = true →
    encodeWord i < 2 ^ i.tableRow.width ∧ encodeWord i &&& i.tableRow.mask = i.tableRow.pattern ∧
      i.tableRow.width = i.format.width

/-- A command word of fields that fit has its `op` and nothing else under the mask. -/
theorem command_row {op m f len : Nat} (ho : op < 256) (hm : m < 256) (hf : f < 256) (hl : len < 2 ^ 32) :
    commandWord op m f len < 2 ^ 56 ∧ commandWord op m f len &&& commandMask = op * 2 ^ 48 := by
  have hlt : m * 2 ^ 40 + f * 2 ^ 32 + len < 2 ^ 48 := by omega
  refine ⟨by simp only [commandWord]; linarith, ?_⟩
  have e : commandWord op m f len = 2 ^ 48 * op + (m * 2 ^ 40 + f * 2 ^ 32 + len) := by rw [commandWord]; ring
  apply Nat.eq_of_testBit_eq
  intro x
  have hmask : commandMask = 2 ^ 48 * (2 ^ 8 - 1) := by norm_num [commandMask]
  rw [Nat.testBit_and, hmask, e, Nat.testBit_two_pow_mul_add _ hlt, Nat.testBit_two_pow_mul, Nat.mul_comm op,
    Nat.testBit_two_pow_mul]
  by_cases hx : x < 48
  · simp [hx, Nat.not_le.2 hx]
  · have hx' : 48 ≤ x := Nat.le_of_not_lt hx
    rw [if_neg hx, Nat.testBit_two_pow_sub_one]
    by_cases h8 : x - 48 < 8
    · simp [hx', h8]
    · have : op.testBit (x - 48) = false :=
        Nat.testBit_lt_two_pow (Nat.lt_of_lt_of_le ho
          (Nat.pow_le_pow_right (n := 2) (by omega) (Nat.le_of_not_lt h8)))
      simp only [this, Bool.false_and, Bool.and_false]

/-- A header word of fields that fit has its method and factor and nothing else under the mask. -/
theorem header_row {m f L : Nat} (hm : m < 256) (hf : f < 256) (hl : L < 2 ^ 32) :
    headerWord m f L < 2 ^ 48 ∧ headerWord m f L &&& headerMask = m * 2 ^ 40 + f * 2 ^ 32 := by
  refine ⟨by rw [headerWord]; omega, ?_⟩
  have e : headerWord m f L = 2 ^ 32 * (m * 2 ^ 8 + f) + L := by rw [headerWord]; ring
  have e' : m * 2 ^ 40 + f * 2 ^ 32 = 2 ^ 32 * (m * 2 ^ 8 + f) := by ring
  have hb : m * 2 ^ 8 + f < 2 ^ 16 := by omega
  apply Nat.eq_of_testBit_eq
  intro x
  have hmask : headerMask = 2 ^ 32 * (2 ^ 16 - 1) := by norm_num [headerMask]
  rw [Nat.testBit_and, hmask, e, e', Nat.testBit_two_pow_mul_add _ hl, Nat.testBit_two_pow_mul,
    Nat.testBit_two_pow_mul]
  by_cases hx : x < 32
  · simp [hx, Nat.not_le.2 hx]
  · have hx' : 32 ≤ x := Nat.le_of_not_lt hx
    rw [if_neg hx, Nat.testBit_two_pow_sub_one]
    by_cases h8 : x - 32 < 16
    · simp [hx', h8]
    · have : (m * 2 ^ 8 + f).testBit (x - 32) = false :=
        Nat.testBit_lt_two_pow (Nat.lt_of_lt_of_le hb
          (Nat.pow_le_pow_right (n := 2) (by omega) (Nat.le_of_not_lt h8)))
      simp only [this, Bool.false_and, Bool.and_false]

theorem fits_byte {v : Nat} (h : fitsByte v = true) : v < 256 := of_decide_eq_true (p := v < 2 ^ Config.factorW) h

theorem fits_len {v : Nat} (h : fitsLen v = true) : v < 2 ^ 32 := of_decide_eq_true (p := v < 2 ^ Config.srcLenW) h

theorem getg (j : Nat) : Statement (.getg j) := fun h =>
  have r := command_row (op := 0x01) (m := 0) (len := 0) (by decide) (by decide) (fits_byte h) (by decide)
  ⟨r.1, r.2, rfl⟩

theorem geth (j : Nat) : Statement (.geth j) := fun h =>
  have r := command_row (op := 0x02) (m := 0) (len := 0) (by decide) (by decide) (fits_byte h) (by decide)
  ⟨r.1, r.2, rfl⟩

theorem getsyn (j : Nat) : Statement (.getsyn j) := fun h =>
  have r := command_row (op := 0x03) (m := 0) (len := 0) (by decide) (by decide) (fits_byte h) (by decide)
  ⟨r.1, r.2, rfl⟩

theorem b2bits : Statement .b2bits := fun _ => by decide

theorem bits2b : Statement .bits2b := fun _ => by decide

theorem padblk (blockSize : Nat) : Statement (.padblk blockSize) := fun h =>
  have r := command_row (op := 0x12) (m := 0) (f := 0) (by decide) (by decide) (by decide) (fits_len h)
  ⟨r.1, r.2, rfl⟩

theorem trunc (exactLength : Nat) : Statement (.trunc exactLength) := fun h =>
  have r := command_row (op := 0x13) (m := 0) (f := 0) (by decide) (by decide) (by decide) (fits_len h)
  ⟨r.1, r.2, rfl⟩

theorem hdrenc (method factor sourceLength : Nat) : Statement (.hdrenc method factor sourceLength) := fun h => by
  simp only [Instr.wellFormed, Bool.and_eq_true] at h
  have r := command_row (op := 0x20) (by decide) (fits_byte h.1.1) (fits_byte h.1.2) (fits_len h.2)
  exact ⟨r.1, r.2, rfl⟩

theorem hdrdec : Statement .hdrdec := fun _ => by decide

theorem repenc (n : Nat) : Statement (.repenc n) := fun h =>
  have r := command_row (op := 0x30) (m := 0) (len := 0) (by decide) (by decide) (fits_byte h) (by decide)
  ⟨r.1, r.2, rfl⟩

theorem repdec (n : Nat) : Statement (.repdec n) := fun h =>
  have r := command_row (op := 0x31) (m := 0) (len := 0) (by decide) (by decide) (fits_byte h) (by decide)
  ⟨r.1, r.2, rfl⟩

theorem lbenc (j : Nat) : Statement (.lbenc j) := fun h =>
  have r := command_row (op := 0x40) (m := 0) (len := 0) (by decide) (by decide) (fits_byte h) (by decide)
  ⟨r.1, r.2, rfl⟩

theorem lbdec (j : Nat) : Statement (.lbdec j) := fun h =>
  have r := command_row (op := 0x41) (m := 0) (len := 0) (by decide) (by decide) (fits_byte h) (by decide)
  ⟨r.1, r.2, rfl⟩

theorem encode (method factor : Nat) : Statement (.encode method factor) := fun h => by
  simp only [Instr.wellFormed, Bool.and_eq_true] at h
  have r := command_row (op := 0x50) (len := 0) (by decide) (fits_byte h.1) (fits_byte h.2) (by decide)
  exact ⟨r.1, r.2, rfl⟩

theorem decode : Statement .decode := fun _ => by decide

theorem hdrRep3 (sourceLength : Nat) : Statement (.hdrRep3 sourceLength) := fun h =>
  have r := header_row (m := 0) (f := 3) (by decide) (by decide) (fits_len h)
  ⟨r.1, r.2, rfl⟩

theorem hdrRep5 (sourceLength : Nat) : Statement (.hdrRep5 sourceLength) := fun h =>
  have r := header_row (m := 0) (f := 5) (by decide) (by decide) (fits_len h)
  ⟨r.1, r.2, rfl⟩

theorem hdrRep7 (sourceLength : Nat) : Statement (.hdrRep7 sourceLength) := fun h =>
  have r := header_row (m := 0) (f := 7) (by decide) (by decide) (fits_len h)
  ⟨r.1, r.2, rfl⟩

theorem hdrRep9 (sourceLength : Nat) : Statement (.hdrRep9 sourceLength) := fun h =>
  have r := header_row (m := 0) (f := 9) (by decide) (by decide) (fits_len h)
  ⟨r.1, r.2, rfl⟩

theorem hdrLb3 (sourceLength : Nat) : Statement (.hdrLb3 sourceLength) := fun h =>
  have r := header_row (m := 1) (f := 3) (by decide) (by decide) (fits_len h)
  ⟨r.1, r.2, rfl⟩

theorem hdrLb4 (sourceLength : Nat) : Statement (.hdrLb4 sourceLength) := fun h =>
  have r := header_row (m := 1) (f := 4) (by decide) (by decide) (fits_len h)
  ⟨r.1, r.2, rfl⟩

theorem hdrLb5 (sourceLength : Nat) : Statement (.hdrLb5 sourceLength) := fun h =>
  have r := header_row (m := 1) (f := 5) (by decide) (by decide) (fits_len h)
  ⟨r.1, r.2, rfl⟩

end Sys2Proof.Laws.RowWord
end

