-- ==== Sys2Proof/Machine/Asm.lean ====
section
/-! DEFINITION. The text form of an operation (spec 30_encoding.md rules R62, R63): the mnemonic, then the operands it
reads in the order `method, factor, len`, decimal or `0x` hex, separated by commas; `;` starts a comment; `REP` and `LB`
may stand for a method; `ENCODE.REP n` and `ENCODE.LB j` are aliases. -/
namespace Sys2Proof

/-- A separating blank. -/
def isBlank (c : Char) : Bool := c == ' ' || c == '\t'

/-- Text without its leading and trailing blanks. -/
def trimChars (cs : List Char) : List Char :=
  ((cs.dropWhile isBlank).reverse.dropWhile isBlank).reverse

/-- The value of a digit character, decimal or hexadecimal. -/
def digitValue (c : Char) : Option Nat :=
  ("0123456789abcdef".toList.idxOf? c).or ("0123456789ABCDEF".toList.idxOf? c)

/-- The number a string of digits of this base spells, most significant first; none if a character is no such digit. -/
def parseDigits (base : Nat) : Nat → List Char → Option Nat
  | acc, [] => some acc
  | acc, c :: cs =>
    match digitValue c with
    | some d => if d < base then parseDigits base (acc * base + d) cs else none
    | none => none

/-- A number: decimal, or hexadecimal after `0x`. -/
def parseNumber : List Char → Option Nat
  | [] => none
  | '0' :: 'x' :: c :: cs => parseDigits 16 0 (c :: cs)
  | c :: cs => parseDigits 10 0 (c :: cs)

/-- A method: `REP` = 0, `LB` = 1, or a number (rule R62). -/
def parseMethod (cs : List Char) : Option Nat :=
  if cs = "REP".toList then some Config.tagRepetition
  else if cs = "LB".toList then some Config.tagLinearBlock
  else parseNumber cs

/-- The comma-separated operands, each without blanks around it; no operand at all when there is no text. -/
def splitOperands (cs : List Char) : List (List Char) :=
  if trimChars cs = [] then [] else (cs.splitOn ',').map trimChars

/-- The operation a mnemonic and its operands name (rules R59, R62, R63). -/
def assembleParts (mnemonic : List Char) (operands : List (List Char)) : Option Instr :=
  match operands with
  | [] =>
    if mnemonic = "B2BITS".toList then some .b2bits
    else if mnemonic = "BITS2B".toList then some .bits2b
    else if mnemonic = "HDRDEC".toList then some .hdrdec
    else if mnemonic = "DECODE".toList then some .decode
    else none
  | [a] =>
    if mnemonic = "GETG".toList then (parseNumber a).map .getg
    else if mnemonic = "GETH".toList then (parseNumber a).map .geth
    else if mnemonic = "GETSYN".toList then (parseNumber a).map .getsyn
    else if mnemonic = "PADBLK".toList then (parseNumber a).map .padblk
    else if mnemonic = "TRUNC".toList then (parseNumber a).map .trunc
    else if mnemonic = "REPENC".toList then (parseNumber a).map .repenc
    else if mnemonic = "REPDEC".toList then (parseNumber a).map .repdec
    else if mnemonic = "LBENC".toList then (parseNumber a).map .lbenc
    else if mnemonic = "LBDEC".toList then (parseNumber a).map .lbdec
    else if mnemonic = "ENCODE.REP".toList then (parseNumber a).map (.encode Config.tagRepetition)
    else if mnemonic = "ENCODE.LB".toList then (parseNumber a).map (.encode Config.tagLinearBlock)
    else none
  | [a, b] =>
    if mnemonic = "ENCODE".toList then
      (parseMethod a).bind fun m => (parseNumber b).map fun f => .encode m f
    else none
  | [a, b, c] =>
    if mnemonic = "HDRENC".toList then
      (parseMethod a).bind fun m => (parseNumber b).bind fun f => (parseNumber c).map fun l => .hdrenc m f l
    else none
  | _ => none

/-- The operation a line of text names; none when it names none or an operand does not fit its field. -/
def assembleChars (line : List Char) : Option Instr :=
  let text := trimChars (line.takeWhile (· != ';'))
  let mnemonic := text.takeWhile fun c => !isBlank c
  ((assembleParts mnemonic (splitOperands (text.drop mnemonic.length))).filter Instr.wellFormed)

/-- The command bytes of a line of text (rules R58, R62). -/
def assemble (line : String) : Option Bytes := (assembleChars line.toList).map encode

end Sys2Proof
end

