-- ==== Sys2Proof/Tests/Slice0.lean ====
section
/-! SUPPORT. Tests, each on one word or one operation, expected values from spec 95_test_vectors.md (the vector's name
stands in the docstring) or written out from 30_encoding.md; and, for every statement of Obligations.lean that has
hypotheses, a witness that they can be met together. -/
namespace Sys2Proof.Tests
open Sys2Proof Sys2Proof.Machine

/-! ### WellFormed: for each check an ill-formed term it refuses, and the boundary it accepts -/

theorem test_wellFormed_refuses_wide_factor :
    [Instr.getg 256, .geth 256, .getsyn 256, .repenc 256, .repdec 256, .lbenc 256, .lbdec 256, .encode 0 256,
      .hdrenc 0 256 0].all (fun i => !i.wellFormed) = true := by decide

theorem test_wellFormed_refuses_wide_method :
    [Instr.encode 256 3, .hdrenc 256 3 8].all (fun i => !i.wellFormed) = true := by decide

theorem test_wellFormed_refuses_long_length :
    [Instr.padblk 4294967296, .trunc 4294967296, .hdrenc 0 3 4294967296, .hdrRep3 4294967296, .hdrRep5 4294967296,
      .hdrRep7 4294967296, .hdrRep9 4294967296, .hdrLb3 4294967296, .hdrLb4 4294967296,
      .hdrLb5 4294967296].all (fun i => !i.wellFormed) = true := by decide

theorem test_wellFormed_accepts_boundary :
    [Instr.getg 255, .geth 0, .getsyn 255, .b2bits, .bits2b, .padblk 4294967295, .trunc 0, .hdrenc 255 255 4294967295,
      .hdrdec, .repenc 255, .repdec 0, .lbenc 255, .lbdec 255, .encode 255 255, .decode, .hdrRep3 4294967295, .hdrRep5 0,
      .hdrRep7 4294967295, .hdrRep9 0, .hdrLb3 4294967295, .hdrLb4 0, .hdrLb5 4294967295].all Instr.wellFormed = true := by
  decide

/-! ### Decoding: words written out from rules R58 and R59 (op method factor len), fields not read filled with other values
(rule R61); and from rules R51, R53 and R56 -/

theorem test_decode_getg : decode .cmd56 [0x01, 0x07, 0x03, 0x01, 0x02, 0x03, 0x04] = .ok (.getg 3) := by decide
theorem test_decode_geth : decode .cmd56 [0x02, 0x00, 0x04, 0x00, 0x00, 0x00, 0x00] = .ok (.geth 4) := by decide
theorem test_decode_getsyn : decode .cmd56 [0x03, 0x00, 0x03, 0x00, 0x00, 0x00, 0x00] = .ok (.getsyn 3) := by decide
theorem test_decode_b2bits : decode .cmd56 [0x10, 0x01, 0x02, 0x03, 0x04, 0x05, 0x06] = .ok .b2bits := by decide
theorem test_decode_bits2b : decode .cmd56 [0x11, 0x00, 0x00, 0x00, 0x00, 0x00, 0x00] = .ok .bits2b := by decide
theorem test_decode_padblk : decode .cmd56 [0x12, 0x09, 0x09, 0x01, 0x02, 0x03, 0x04] = .ok (.padblk 0x01020304) := by decide
theorem test_decode_trunc : decode .cmd56 [0x13, 0x00, 0x00, 0xFF, 0xFF, 0xFF, 0xFF] = .ok (.trunc 4294967295) := by decide
theorem test_decode_hdrenc : decode .cmd56 [0x20, 0x01, 0x03, 0x00, 0x00, 0x00, 0x08] = .ok (.hdrenc 1 3 8) := by decide
theorem test_decode_hdrdec : decode .cmd56 [0x21, 0x00, 0x00, 0x00, 0x00, 0x00, 0x00] = .ok .hdrdec := by decide
theorem test_decode_repenc : decode .cmd56 [0x30, 0x00, 0x09, 0x00, 0x00, 0x00, 0x00] = .ok (.repenc 9) := by decide
theorem test_decode_repdec : decode .cmd56 [0x31, 0x00, 0x05, 0x00, 0x00, 0x00, 0x00] = .ok (.repdec 5) := by decide
theorem test_decode_lbenc : decode .cmd56 [0x40, 0x00, 0x03, 0x00, 0x00, 0x00, 0x00] = .ok (.lbenc 3) := by decide
theorem test_decode_lbdec : decode .cmd56 [0x41, 0x00, 0x05, 0x00, 0x00, 0x00, 0x00] = .ok (.lbdec 5) := by decide
theorem test_decode_encode : decode .cmd56 [0x50, 0x01, 0x04, 0x00, 0x00, 0x00, 0x07] = .ok (.encode 1 4) := by decide
theorem test_decode_decode : decode .cmd56 [0x51, 0x00, 0x00, 0x00, 0x00, 0x00, 0x00] = .ok .decode := by decide

set_option maxRecDepth 2000 in
/-- The header of V-PL-1; two payload bytes follow. -/
theorem test_decode_hdrRep3 : decode .hdr48
    [0, 0, 0, 0, 0, 0x3F, 0, 0, 0, 0, 0, 0, 0, 0, 0, 0, 0x0E, 0, 0xE3, 0x8F] = .ok (.hdrRep3 8) := by decide
set_option maxRecDepth 2000 in
/-- The header of V-PL-7. -/
theorem test_decode_hdrRep5 : decode .hdr48
    [0, 0, 0, 0, 0x01, 0xC7, 0, 0, 0, 0, 0, 0, 0, 0, 0, 0, 0x0E, 0] = .ok (.hdrRep5 8) := by decide
set_option maxRecDepth 2000 in
/-- The header of V-PL-8. -/
theorem test_decode_hdrRep7 : decode .hdr48
    [0, 0, 0, 0, 0x01, 0xFF, 0, 0, 0, 0, 0, 0, 0, 0, 0, 0, 0x0E, 0] = .ok (.hdrRep7 8) := by decide
set_option maxRecDepth 2000 in
/-- V-HD-5. -/
theorem test_decode_hdrRep9 : decode .hdr48
    [0, 0, 0, 0, 0x0E, 0x07, 0, 0, 0, 0, 0, 0, 0, 0, 0, 0, 0, 0] = .ok (.hdrRep9 0) := by decide
set_option maxRecDepth 2000 in
/-- V-HD-9: every group of the header of V-PL-2 with its first bit inverted. -/
theorem test_decode_hdrLb3 : decode .hdr48
    [0x92, 0x49, 0x23, 0x92, 0x49, 0x1B, 0x92, 0x49, 0x24, 0x92, 0x49, 0x24, 0x92, 0x49, 0x24, 0x92, 0x47, 0x24] =
      .ok (.hdrLb3 8) := by decide
set_option maxRecDepth 2000 in
/-- V-HD-3. -/
theorem test_decode_hdrLb4 : decode .hdr48
    [0, 0, 0x07, 0, 0x01, 0xC0, 0, 0, 0, 0, 0, 0, 0, 0, 0, 0, 0x70, 0] = .ok (.hdrLb4 16) := by decide
set_option maxRecDepth 2000 in
/-- V-HD-6. -/
theorem test_decode_hdrLb5 : decode .hdr48
    [0, 0, 0x07, 0, 0x01, 0xC7, 0xFF, 0xFF, 0xFF, 0xFF, 0xFF, 0xFF, 0xFF, 0xFF, 0xFF, 0xFF, 0xFF, 0xFF] =
      .ok (.hdrLb5 4294967295) := by decide

/-- Reserved codes, and a command word of another length (rules R60, R64). -/
theorem test_decode_rejects_commands :
    decode .cmd56 [0x00, 0, 0, 0, 0, 0, 0] = .error (.reservedOp 0) ∧
    decode .cmd56 [0x52, 0, 0, 0, 0, 0, 0] = .error (.reservedOp 0x52) ∧
    decode .cmd56 [0xFF, 0, 0, 0, 0, 0, 0] = .error (.reservedOp 0xFF) ∧
    decode .cmd56 [0x51, 0, 0, 0, 0, 0] = .error (.commandLength 6) := by decide

set_option maxRecDepth 2000 in
/-- The illegal headers of V-PL-17 and V-HD-7, and a frame of 17 bytes (rule R57). -/
theorem test_decode_rejects_headers :
    decode .hdr48 [0, 0, 0x07, 0, 0, 0x39, 0, 0, 0, 0, 0, 0, 0, 0, 0, 0, 0x0E, 0] = .error (.illegalFactor 1 2) ∧
    decode .hdr48 [0xFF, 0xFF, 0xFF, 0xFF, 0xFF, 0xFF, 0, 0, 0, 0, 0, 0, 0, 0, 0, 0, 0, 0] =
      .error (.illegalMethod 255) ∧
    decode .hdr48 [0, 0, 0, 0, 0, 0x3F, 0, 0, 0, 0, 0, 0, 0, 0, 0, 0, 0x0E] = .error (.headerShort 136) := by decide

/-- One instruction of every row. -/
def oneOfEach : List Instr :=
  [.getg 0, .geth 0, .getsyn 0, .b2bits, .bits2b, .padblk 0, .trunc 0, .hdrenc 0 0 0, .hdrdec, .repenc 0, .repdec 0, .lbenc 0,
    .lbdec 0, .encode 0 0, .decode, .hdrRep3 0, .hdrRep5 0, .hdrRep7 0, .hdrRep9 0, .hdrLb3 0, .hdrLb4 0, .hdrLb5 0]

/-- No word matches two rows of the opcode table of its width. -/
theorem test_table_rows_disjoint :
    (oneOfEach.map Instr.tableRow).Pairwise fun a b =>
      a.width ≠ b.width ∨ (a.mask = b.mask ∧ a.pattern ≠ b.pattern) := by decide

/-- The texts of rule R62, one pseudo-operation of rule R63, and texts that name no operation. -/
theorem test_assemble :
    assemble "ENCODE REP, 3" = some [0x50, 0x00, 0x03, 0x00, 0x00, 0x00, 0x00] ∧
    assemble "ENCODE LB, 4 ; a comment" = some [0x50, 0x01, 0x04, 0x00, 0x00, 0x00, 0x00] ∧
    assemble "DECODE" = some [0x51, 0x00, 0x00, 0x00, 0x00, 0x00, 0x00] ∧
    assemble "HDRENC 1, 3, 8" = some [0x20, 0x01, 0x03, 0x00, 0x00, 0x00, 0x08] ∧
    assemble "PADBLK 4" = some [0x12, 0x00, 0x00, 0x00, 0x00, 0x00, 0x04] ∧
    assemble "TRUNC 8" = some [0x13, 0x00, 0x00, 0x00, 0x00, 0x00, 0x08] ∧
    assemble "REPDEC 0x5" = some [0x31, 0x00, 0x05, 0x00, 0x00, 0x00, 0x00] ∧
    assemble "GETSYN 3" = some [0x03, 0x00, 0x03, 0x00, 0x00, 0x00, 0x00] ∧
    assemble "ENCODE.LB 3" = some [0x50, 0x01, 0x03, 0x00, 0x00, 0x00, 0x00] ∧
    assemble "GETSYN 256" = none ∧ assemble "GETSYN" = none ∧ assemble "HDRDEC 1" = none := by decide

/-! ### One operation on a small state -/

/-- The default catalog, `IN` with this content, and stale results everywhere. -/
def given (b : Buffer) : State :=
  { State.resetWith defaultCatalog with
    inBuf := b, phase := .done, hdrMethod := 7, hdrFactor := 7, hdrSrcLen := 7, err := .illegalCommand, uncorrCnt := 7,
    tailDropped := 7, padAmount := 7, outBuf := .bits [true], heldInReset := false }

/-- `OUT`, `ERR`, `UNCORR_CNT`, `TAIL_DROPPED`, `PAD_AMOUNT` after a step that goes on. -/
def results : Result → Option (Buffer × ErrorKind × Nat × Nat × Nat)
  | .next t => some (t.outBuf, t.err, t.uncorrCnt, t.tailDropped, t.padAmount)
  | _ => none

/-- `PHASE`, `HDR_METHOD`, `HDR_FACTOR`, `HDR_SRCLEN` after a step that goes on. -/
def headerRegs : Result → Option (Phase × Nat × Nat × Nat)
  | .next t => some (t.phase, t.hdrMethod.toNat, t.hdrFactor.toNat, t.hdrSrcLen.toNat)
  | _ => none

/-- A bit sequence written as a binary numeral of w digits. -/
def seq (w v : Nat) : Buffer := .bits (be w v)

/-- The notation `be_W`, which `seq` uses, and the order of the bits of a byte (rule R37). -/
theorem test_seq : seq 5 0b10110 = .bits [true, false, true, true, false] ∧
    bytesToBits [0xAC] = [true, false, true, false, true, true, false, false] := by decide

/-- V-CAT-1. -/
theorem test_getg : results (exec (.getg 3) (given .empty)) =
    some (seq 28 0b1000011_0100101_0010110_0001111, .noError, 0, 0, 0) := by decide
/-- V-CAT-11. -/
theorem test_getg_illegal : results (exec (.getg 6) (given .empty)) = some (.empty, .unsupportedParameter, 0, 0, 0) := by
  decide
/-- V-CAT-2. -/
theorem test_geth : results (exec (.geth 3) (given .empty)) =
    some (seq 21 0b0111100_1011010_1101001, .noError, 0, 0, 0) := by decide
set_option maxRecDepth 4000 in
/-- V-CAT-6. -/
theorem test_geth_5 : results (exec (.geth 5) (given .empty)) =
    some (seq 155 0b0000000000011111111111111110000_0000111111100000001111111101000_0111000111100011110000111100100_1011011001101100110011001100010_1101101010110101010101010100001,
      .noError, 0, 0, 0) := by decide
/-- V-CAT-3. -/
theorem test_getsyn : results (exec (.getsyn 3) (given .empty)) =
    some (.bytes [0xFF, 0x06, 0x05, 0x00, 0x04, 0x01, 0x02, 0x03], .noError, 0, 0, 0) := by decide
set_option maxRecDepth 4000 in
/-- V-CAT-5. -/
theorem test_getsyn_4 : results (exec (.getsyn 4) (given .empty)) =
    some (.bytes [0xFF, 0x0E, 0x0D, 0x00, 0x0C, 0x01, 0x02, 0x03, 0x0B, 0x04, 0x05, 0x06, 0x07, 0x08, 0x09, 0x0A],
      .noError, 0, 0, 0) := by decide

/-- V-BF-3, its last two bytes. -/
theorem test_b2bits : results (exec .b2bits (given (.bytes [0x80, 0x01]))) =
    some (seq 16 0b10000000_00000001, .noError, 0, 0, 0) := by decide
/-- V-BF-7. -/
theorem test_bits2b : results (exec .bits2b (given (seq 9 0b111111111))) =
    some (.bytes [0xFF, 0x80], .noError, 0, 0, 7) := by decide
/-- V-BF-9. -/
theorem test_padblk : results (exec (.padblk 4) (given (seq 5 0b10101))) =
    some (seq 8 0b10101000, .noError, 0, 0, 3) := by decide
/-- V-BF-14. -/
theorem test_padblk_zero : results (exec (.padblk 0) (given (seq 3 0b101))) =
    some (.empty, .unsupportedParameter, 0, 0, 0) := by decide
/-- V-BF-15. -/
theorem test_trunc : results (exec (.trunc 3) (given (seq 8 0b10101100))) = some (seq 3 0b101, .noError, 0, 0, 0) := by
  decide
/-- V-BF-20. -/
theorem test_trunc_long : results (exec (.trunc 4294967295) (given (seq 8 0b10101100))) =
    some (seq 8 0b10101100, .noError, 0, 0, 0) := by decide

set_option maxRecDepth 2000 in
/-- V-HD-8. -/
theorem test_hdrenc : results (exec (.hdrenc 0 3 0x01020304) (given .empty)) =
    some (seq 144 0x00000000003F000007000038_00003F0001C0, .noError, 0, 0, 0) := by decide
set_option maxRecDepth 2000 in
/-- V-HD-9. -/
theorem test_hdrdec : headerRegs (exec .hdrdec (given (seq 144 0x92492392491B92492492492492492492_4724))) =
    some (.header, 1, 3, 8) := by decide
set_option maxRecDepth 2000 in
/-- V-HD-13. -/
theorem test_hdrdec_short : results (exec .hdrdec (given (seq 143 0))) = some (.empty, .headerCorrupt, 0, 0, 0) := by decide

/-- V-REP-2. -/
theorem test_repenc : results (exec (.repenc 5) (given (seq 2 0b10))) = some (seq 10 0b11111_00000, .noError, 0, 0, 0) := by
  decide
/-- V-REP-6. -/
theorem test_repenc_illegal : results (exec (.repenc 4) (given (seq 1 1))) = some (.empty, .unsupportedFactor, 0, 0, 0) := by
  decide
/-- V-REP-9. -/
theorem test_repdec : results (exec (.repdec 3) (given (seq 8 0b11000111))) = some (seq 2 0b10, .noError, 0, 2, 0) := by
  decide
/-- S2, n = 9: four flips in the first group are corrected. -/
theorem test_repdec_9 : results (exec (.repdec 9) (given (seq 18 0b000011111_000000000))) =
    some (seq 2 0b10, .noError, 0, 0, 0) := by decide

/-- V-LB-2. -/
theorem test_lbenc : results (exec (.lbenc 3) (given (seq 5 0b10101))) =
    some (seq 16 0b1010101_1000011_00, .noError, 0, 0, 0) := by decide
set_option maxRecDepth 4000 in
/-- S3, j = 5. -/
theorem test_lbenc_5 : results (exec (.lbenc 5) (given (seq 26 0b11011110101011011011111011))) =
    some (seq 32 0b1101111010101101101111101110100_0, .noError, 0, 0, 0) := by decide
/-- V-LB-13: a parity error is counted, an information error corrected. -/
theorem test_lbdec : results (exec (.lbdec 3) (given (seq 15 0b1011110_1001010_0))) =
    some (seq 8 0b1011_1011, .noError, 1, 1, 0) := by decide
/-- Rule R101: codeword 1010101 with bits 0 and 3 wrong, left alone and counted. -/
theorem test_lbdec_double : results (exec (.lbdec 3) (given (seq 7 0b0011101))) =
    some (seq 4 0b0011, .noError, 1, 0, 0) := by decide

set_option maxRecDepth 4000 in
/-- V-PL-3. -/
theorem test_encode : results (exec (.encode 1 4) (given (.bytes [0x12, 0x34]))) =
    some (.bytes [0, 0, 0x07, 0, 0x01, 0xC0, 0, 0, 0, 0, 0, 0, 0, 0, 0, 0, 0x70, 0, 0x12, 0x27, 0x40, 0x14],
      .noError, 0, 0, 0) := by decide
/-- P5: method before factor (rule R124). -/
theorem test_encode_method_first : results (exec (.encode 7 4) (given (.bytes [0xAC]))) =
    some (.empty, .unsupportedParameter, 0, 0, 0) := by decide
/-- Rule R105: 2^29 bytes do not fit. -/
theorem test_encode_overflow :
    results (exec (.encode 0 3) (given (.bytes (List.replicate 536870912 0)))) =
      some (.empty, .lengthOverflow, 0, 0, 0) := by
  generalize hs : given (.bytes (List.replicate 536870912 0)) = s
  have hb : s.inBuf.isBytes (List.replicate 536870912 0) := Or.inl (by rw [← hs]; rfl)
  have hl : (2 : Nat) ^ 29 ≤ (List.replicate 536870912 (0 : Byte)).length := by
    rw [List.length_replicate]
    norm_num
  rw [exec, execEncode_overflow hb (by decide) (by decide) hl]
  rfl
set_option maxRecDepth 4000 in
/-- P2 after its two flips: an information bit of row 0, a parity bit of row 1. -/
theorem test_decode :
    results (exec .decode (given (.bytes [0, 0, 0x07, 0, 0, 0x3F, 0, 0, 0, 0, 0, 0, 0, 0, 0, 0, 0x0E, 0, 0xEB, 0x90]))) =
      some (.bytes [0xAC], .noError, 1, 2, 0) := by decide
set_option maxRecDepth 4000 in
/-- V-PL-17: the phase and the header survive the abort. -/
theorem test_decode_illegal_factor :
    headerRegs (exec .decode (given (.bytes [0, 0, 0x07, 0, 0, 0x39, 0, 0, 0, 0, 0, 0, 0, 0, 0, 0, 0x0E, 0, 0xAB, 0x98]))) =
      some (.payload, 1, 2, 8) := by decide

set_option maxRecDepth 4000 in
/-- P1 as a step of a header form: the word 0003_0000_0008 put before the payload E3 8F C0 with bit 0 of it inverted. -/
theorem test_step_hdrRep3 :
    results (step ((given (.bytes (List.replicate 18 0xFF ++ [0x63, 0x8F, 0xC0]))).withFetchWord 48 0x000300000008)) =
      some (.bytes [0xAC], .noError, 0, 0, 0) := by decide
set_option maxRecDepth 4000 in
/-- V-PL-7. -/
theorem test_hdrRep5 : results (exec (.hdrRep5 8) (given (.bytes (List.replicate 18 0 ++ [0x00, 0x00, 0x0F, 0xFF, 0xFF])))) =
    some (.bytes [0x0F], .noError, 0, 0, 0) := by decide
set_option maxRecDepth 4000 in
/-- V-PL-8. -/
theorem test_hdrRep7 :
    results (exec (.hdrRep7 8) (given (.bytes (List.replicate 18 0 ++ [0x01, 0xFC, 0x07, 0xFF, 0xE0, 0x3F, 0x80])))) =
      some (.bytes [0x5A], .noError, 0, 0, 0) := by decide
set_option maxRecDepth 4000 in
/-- V-PL-9. -/
theorem test_hdrRep9 : headerRegs (exec (.hdrRep9 8) (given (.bytes (List.replicate 18 0 ++ [0xFF, 0x80])))) =
    some (.done, 0, 9, 8) := by decide
set_option maxRecDepth 4000 in
/-- V-PL-13. -/
theorem test_hdrLb3 : results (exec (.hdrLb3 8) (given (.bytes (List.replicate 18 0 ++ [0xAF, 0x98])))) =
    some (.bytes [0xAC], .noError, 1, 2, 0) := by decide
set_option maxRecDepth 4000 in
/-- P3. -/
theorem test_hdrLb4 : results (exec (.hdrLb4 16) (given (.bytes (List.replicate 18 0 ++ [0x02, 0x27, 0x40, 0x04])))) =
    some (.bytes [0x12, 0x34], .noError, 1, 2, 0) := by decide
set_option maxRecDepth 8000 in
/-- V-PL-4. -/
theorem test_hdrLb5 :
    results (exec (.hdrLb5 32)
      (given (.bytes (List.replicate 18 0 ++ [0xDE, 0xAD, 0xBE, 0xE9, 0x78, 0x00, 0x00, 0x04])))) =
      some (.bytes [0xDE, 0xAD, 0xBE, 0xEF], .noError, 0, 2, 0) := by decide

set_option maxRecDepth 4000 in
/-- ErrorTable, the cells that count: P2's frame after its flips, method 1, ends normally with one row counted, and so does
`LBDEC` on V-LB-13. -/
theorem witness_errorTable_counts :
    (parseRaw (recoverRaw (bytesToBits
      [0, 0, 0x07, 0, 0, 0x3F, 0, 0, 0, 0, 0, 0, 0, 0, 0, 0, 0x0E, 0, 0xEB, 0x90]))).method = 1 ∧
    results (exec .decode (given (.bytes
      [0, 0, 0x07, 0, 0, 0x3F, 0, 0, 0, 0, 0, 0, 0, 0, 0, 0, 0x0E, 0, 0xEB, 0x90]))) =
        some (.bytes [0xAC], .noError, 1, 2, 0) ∧
    results (exec (.lbdec 3) (given (seq 15 0b1011110_1001010_0))) = some (seq 8 0b1011_1011, .noError, 1, 1, 0) :=
  ⟨by decide, test_decode, test_lbdec⟩

/-- ErrorTable's last clause: a request that selects no operation. -/
theorem witness_illegalCommand : (given .empty).heldInReset = false ∧
    decode .cmd56 (given .empty).commandBytes = .error (.reservedOp 0) ∧
    ∃ t, step (given .empty) = .next t := ⟨rfl, by decide, _, rfl⟩

/-- Rules R60, R120: from reset with nothing written, the first request is the reserved code 0. -/
theorem test_step_reserved : results (rejectCommand State.reset) = some (.empty, .illegalCommand, 0, 0, 0) ∧
    decode .cmd56 State.reset.commandBytes = .error (.reservedOp 0) := by decide

/-- `.flip 149` of P1 on the payload bytes: bit index 5 of byte 0 is its bit 2 (rule R63). -/
theorem test_flip : (Buffer.bytes [0xE3, 0x8F]).flip 5 = .bytes [0xE7, 0x8F] := by decide


/-! ### Witnesses: the hypotheses of each statement of Obligations.lean that has any can be met together -/

set_option maxRecDepth 4000 in
/-- The catalog of every `given` state is valid. -/
theorem default_valid : defaultCatalog.valid = true := by decide

/-- A catalog of the right shape that is not valid: `P_3` has two equal rows. -/
def doubledRow : Catalog where
  p3 := [[false, true, true], [false, true, true], [true, true, false], [true, true, true]]
  p4 := defaultP 4
  p5 := defaultP 5

set_option maxRecDepth 4000 in
theorem doubledRow_invalid : doubledRow.valid = false := by decide

set_option maxRecDepth 4000 in
theorem doubledRow_shaped : doubledRow.shaped := by
  intro j hj
  rcases mem_lbParams.1 hj with rfl | rfl | rfl <;> decide

set_option maxRecDepth 4000 in
theorem default_shaped : defaultCatalog.shaped := by
  intro j hj
  rcases mem_lbParams.1 hj with rfl | rfl | rfl <;> decide

theorem given_holdsCatalog (b : Buffer) : (given b).holdsCatalog defaultCatalog := ⟨default_valid, rfl⟩

theorem given_isBytes (l : Bytes) : (given (.bytes l)).inBuf.isBytes l := Or.inl rfl

theorem given_isBits (l : Bits) : (given (.bits l)).inBuf.isBits l := Or.inl rfl

/-- The groups past the end of a pattern are empty, so a sparse pattern is one with finitely many sparse groups. -/
theorem sparse_of_bounded {n t : Nat} {e : Bits} (hn : 0 < n)
    (h : ∀ g < e.length, popcount (slice e (n * g) (n * g + n)) ≤ t) : sparseErrors n t e := by
  intro g
  by_cases hg : g < e.length
  · exact h g hg
  · have hle : e.length ≤ n * g := Nat.le_trans (Nat.le_of_not_lt hg) (Nat.le_mul_of_pos_left g hn)
    rw [slice, List.drop_of_length_le hle, List.take_nil]
    exact Nat.zero_le t

/-- DecodeInvertsEncode: see `test_wellFormed_accepts_boundary`; of both formats, at the largest operands. -/
theorem witness_decodeInvertsEncode : (Instr.hdrenc 255 255 4294967295).wellFormed = true ∧
    (Instr.hdrLb5 4294967295).wellFormed = true := by decide

/-- ReservedOpsAreRejected, ReservedCommandAborts: both cases, at the ends of a run of codes. -/
theorem witness_reservedOps :
    (0x51#8).toNat ∈ [0x01, 0x02, 0x03, 0x10, 0x11, 0x12, 0x13, 0x20, 0x21, 0x30, 0x31, 0x40, 0x41, 0x50, 0x51] ∧
    (0x01#8).toNat ∈ [0x01, 0x02, 0x03, 0x10, 0x11, 0x12, 0x13, 0x20, 0x21, 0x30, 0x31, 0x40, 0x41, 0x50, 0x51] ∧
    (0x52#8).toNat ∉ [0x01, 0x02, 0x03, 0x10, 0x11, 0x12, 0x13, 0x20, 0x21, 0x30, 0x31, 0x40, 0x41, 0x50, 0x51] ∧
    (given .empty).cmd.toNat ∉
      [0x01, 0x02, 0x03, 0x10, 0x11, 0x12, 0x13, 0x20, 0x21, 0x30, 0x31, 0x40, 0x41, 0x50, 0x51] ∧
    (given .empty).heldInReset = false := by decide

/-- IgnoredFieldsHaveNoEffect: one operation per clause, the fields not read at two different values. -/
theorem witness_ignoredFields :
    decode .cmd56 (wordBytes 7 (commandWord 0x31 0 5 0)) = decode .cmd56 (wordBytes 7 (commandWord 0x31 255 5 4294967295)) ∧
    decode .cmd56 (wordBytes 7 (commandWord 0x51 0 0 0)) = decode .cmd56 (wordBytes 7 (commandWord 0x51 255 255 1)) ∧
    decode .cmd56 (wordBytes 7 (commandWord 0x12 0 0 4)) = decode .cmd56 (wordBytes 7 (commandWord 0x12 255 255 4)) ∧
    decode .cmd56 (wordBytes 7 (commandWord 0x50 1 4 0)) = decode .cmd56 (wordBytes 7 (commandWord 0x50 1 4 9)) := by decide

set_option maxRecDepth 2000 in
/-- ExactlySevenHeaderForms: a legal header, an illegal factor of each method, the smallest illegal method. -/
theorem witness_sevenHeaderForms :
    decode .hdr48 (bitsToBytes (encodeHeader 0 9 0) ++ []) = .ok (.hdrRep9 0) ∧
    decode .hdr48 (bitsToBytes (encodeHeader 0 4 0) ++ [0]) = .error (.illegalFactor 0 4) ∧
    decode .hdr48 (bitsToBytes (encodeHeader 1 7 0) ++ []) = .error (.illegalFactor 1 7) ∧
    decode .hdr48 (bitsToBytes (encodeHeader 2 3 0) ++ []) = .error (.illegalMethod 2) := by decide

/-- StepRunsTheDecodedCommand: both parts. -/
theorem witness_stepRuns : (given .empty).heldInReset = false ∧
    decode .cmd56 ((given .empty).putCommand 0x01000300000000).commandBytes = .ok (.getg 3) ∧
    (Instr.getg 3).wellFormed = true ∧ (Instr.getg 3).format = .cmd56 := by decide

/-- The frame of V-PL-2. -/
def frameLb3 : Bytes := [0, 0, 0x07, 0, 0, 0x3F, 0, 0, 0, 0, 0, 0, 0, 0, 0, 0, 0x0E, 0, 0xAB, 0x98]

/-- The frame of V-PL-1. -/
def frameRep3 : Bytes := [0, 0, 0, 0, 0, 0x3F, 0, 0, 0, 0, 0, 0, 0, 0, 0, 0, 0x0E, 0, 0xE3, 0x8F, 0xC0]

/-- The frame of V-PL-17: method 1, factor 2. -/
def frameLb2 : Bytes := [0, 0, 0x07, 0, 0, 0x39, 0, 0, 0, 0, 0, 0, 0, 0, 0, 0, 0x0E, 0, 0xAB, 0x98]

/-- A header with method 255. -/
def frameMethod255 : Bytes := [0xFF, 0xFF, 0xFF, 0, 0, 0x3F, 0, 0, 0, 0, 0, 0, 0, 0, 0, 0, 0, 0]

set_option maxRecDepth 4000 in
/-- DecodeRunsTheFetchedHeader: both parts. -/
theorem witness_decodeRunsHeader : (given (.bytes frameLb3)).inBuf.isBytes frameLb3 ∧
    decode .hdr48 frameLb3 = .ok (.hdrLb3 8) ∧ (given (.bytes frameLb3)).heldInReset = false ∧
    (Instr.hdrLb3 8).wellFormed = true ∧ (Instr.hdrLb3 8).format = .hdr48 :=
  ⟨given_isBytes _, by decide⟩

/-- InvalidCatalogAcceptsNothing: host actions that reset nothing, an invalid catalog, a valid one. -/
theorem witness_invalidCatalog :
    (∀ a ∈ [HostAction.putIn (.bytes [1]), .flip 0, .mov, .request 1 0 3 0], ∀ c, a ≠ .reset c) ∧
    doubledRow.valid = false ∧ defaultCatalog.valid = true := by
  refine ⟨?_, doubledRow_invalid, default_valid⟩
  simp

/-- ResetBuildsTheTables: with a valid and with an invalid catalog, at both ends of the parameters. -/
theorem witness_resetBuildsTheTables : defaultCatalog.shaped ∧ doubledRow.shaped ∧ 3 ∈ Config.lbParams ∧
    5 ∈ Config.lbParams ∧ defaultCatalog.valid = true :=
  ⟨default_shaped, doubledRow_shaped, by decide, by decide, default_valid⟩

/-- A state of the invariant, held in reset or not, after an abort in the `PAYLOAD` phase. -/
theorem witness_inv : ({ given .empty with
      phase := .payload, err := .unsupportedFactor, uncorrCnt := 0, tailDropped := 0, padAmount := 0,
      outBuf := .empty } : State).Inv where
  rom _ := ⟨defaultCatalog, given_holdsCatalog .empty⟩
  abort _ := ⟨rfl, rfl, rfl, rfl⟩
  payload _ := Or.inl rfl
  done h := by cases h
  noHeader _ h := by cases h

/-- A step that goes on, as the statements name it. -/
theorem next_of_results {r : Result} {out : Buffer} {k : ErrorKind} {u n p : Nat} (h : results r = some (out, k, u, n, p)) :
    ∃ t, r = .next t ∧ t.outBuf = out ∧ t.err = k := by
  cases r with
  | next t =>
    simp only [results, Option.some.injEq, Prod.mk.injEq] at h
    exact ⟨t, rfl, h.1, h.2.1⟩
  | fault f => cases h
  | refused k => cases h

/-- StepKeepsTheInvariant, StepIsIdempotent, RequestAndRomAreNeverWritten: a step that goes on, and a run that does. -/
theorem witness_step : ∃ t u, step (given .empty) = .next t ∧ run [.operate, .host .mov, .operate] (given .empty) = .next u :=
  ⟨_, _, rfl, rfl⟩

/-- OutcomeDependsOnTheRequestOnly: two states that differ in every result register and `OUT`. -/
theorem witness_outcomeDepends : (given .empty).cmd = (given .empty).fresh.cmd ∧
    (given .empty).argMethod = (given .empty).fresh.argMethod ∧
    (given .empty).argFactor = (given .empty).fresh.argFactor ∧ (given .empty).argLen = (given .empty).fresh.argLen ∧
    (given .empty).inBuf = (given .empty).fresh.inBuf ∧ (given .empty).rom = (given .empty).fresh.rom ∧
    (given .empty).heldInReset = (given .empty).fresh.heldInReset ∧ (given .empty).err ≠ (given .empty).fresh.err := by
  simp [given]

/-- ResultRegistersAreFresh: one instruction meets the hypotheses of every clause. -/
theorem witness_resultsFresh : (∃ t, exec (.getg 3) (given .empty) = .next t) ∧ Instr.getg 3 ≠ .decode ∧
    Instr.getg 3 ≠ .hdrdec ∧ (∀ j, Instr.getg 3 ≠ .lbdec j) ∧ (∀ n, Instr.getg 3 ≠ .repdec n) ∧
    Instr.getg 3 ≠ .bits2b ∧ (∀ n, Instr.getg 3 ≠ .padblk n) ∧ (Instr.getg 3).format = .cmd56 := by
  refine ⟨⟨_, rfl⟩, ?_⟩
  simp [Instr.format]

set_option maxRecDepth 4000 in
/-- BufferKindsAsTabled: a wrong kind either way, and a normal end with each kind of output. -/
theorem witness_bufferKinds : (given (seq 1 1)).inBuf = .bits (be 1 1) ∧ (given (.bytes [1])).inBuf = .bytes [1] ∧
    (∃ t, exec (.trunc 1) (given (seq 1 1)) = .next t ∧ t.err = .noError) ∧
    (∃ t, exec .bits2b (given (seq 1 1)) = .next t ∧ t.err = .noError) ∧
    (∃ t, exec .hdrdec (given (seq 144 0)) = .next t ∧ t.err = .noError) :=
  ⟨rfl, rfl, ⟨_, rfl, rfl⟩, ⟨_, rfl, rfl⟩, by
    obtain ⟨t, h, -, e⟩ : ∃ t, exec .hdrdec (given (seq 144 0)) = .next t ∧ t.outBuf = .empty ∧ t.err = .noError :=
      next_of_results (u := 0) (n := 0) (p := 0) (by decide)
    exact ⟨t, h, e⟩⟩

/-- EveryRequestEnds: an `IN` of either kind. -/
theorem witness_everyRequestEnds : (∃ buf, (given (.bytes [0xAC])).inBuf.isBytes buf) ∧
    (∃ bits, (given (seq 1 1)).inBuf.isBits bits) := ⟨⟨_, given_isBytes _⟩, ⟨_, given_isBits _⟩⟩

set_option maxRecDepth 4000 in
/-- AbortLeavesOnlyTheCode: an abort of `DECODE` in the `PAYLOAD` phase, and one of another operation. -/
theorem witness_abort : (∃ t, exec .decode (given (.bytes frameLb2)) = .next t ∧ t.err ≠ .noError ∧ t.phase ≠ .header) ∧
    ∃ t, exec (.getg 6) (given .empty) = .next t ∧ t.err ≠ .noError := by
  refine ⟨?_, _, rfl, by decide⟩
  obtain ⟨t, h, -, e⟩ : ∃ t, exec .decode (given (.bytes frameLb2)) = .next t ∧ t.outBuf = .empty ∧
      t.err = .unsupportedFactor := next_of_results (u := 0) (n := 0) (p := 0) (by decide)
  have hp : headerRegs (exec .decode (given (.bytes frameLb2))) = some (.payload, 1, 2, 8) := test_decode_illegal_factor
  rw [h] at hp
  simp only [headerRegs, Option.some.injEq, Prod.mk.injEq] at hp
  refine ⟨t, h, ?_, ?_⟩
  · rw [e]
    decide
  · rw [hp.1]
    decide

set_option maxRecDepth 4000 in
/-- ErrorTable: each operation of the table goes on, with legal and with illegal operands. -/
theorem witness_errorTable :
    (∀ i ∈ [Instr.getg 3, .getg 6, .geth 3, .geth 6, .getsyn 3, .getsyn 6, .hdrenc 0 3 8],
      (results (exec i (given .empty))).isSome = true) ∧
    (∀ i ∈ [Instr.bits2b, .trunc 0, .padblk 0, .padblk 4, .hdrdec, .repenc 3, .repenc 4, .repdec 9, .repdec 2, .lbenc 3,
      .lbenc 6, .lbdec 5, .lbdec 2], (results (exec i (given (seq 8 0xAC)))).isSome = true) ∧
    (∀ i ∈ [Instr.b2bits, .encode 0 3, .encode 1 9, .encode 2 3, .decode],
      (results (exec i (given (.bytes [0xAC])))).isSome = true) ∧
    (given (seq 8 0xAC)).inBuf.isBits (be 8 0xAC) ∧ (given (.bytes [0xAC])).inBuf.isBytes [0xAC] := by
  refine ⟨?_, ?_, ?_, given_isBits _, given_isBytes _⟩
  · decide
  · decide
  · decide

/-- GetgGivesTheGenerator, GethGivesTheParityCheck, GetsynGivesTheTable, LbencEncodesRowByRow, LbdecCorrectsRowByRow: a state
with a valid catalog, legal parameters, and the nearest illegal ones. -/
theorem witness_catalogOperations : (given (seq 7 0)).holdsCatalog defaultCatalog ∧ (given (seq 7 0)).inBuf.isBits (be 7 0) ∧
    3 ∈ [3, 4, 5] ∧ 5 ∈ [3, 4, 5] ∧ 2 ∉ [3, 4, 5] ∧ 6 ∉ [3, 4, 5] :=
  ⟨given_holdsCatalog _, given_isBits _, by decide⟩

/-- ValidCatalogHoldsEveryColumnOnce: a valid catalog and a nonzero vector. -/
theorem witness_validCatalog : defaultCatalog.valid = true ∧ ([false, false, true] : Bits).length = 3 ∧
    ∃ b ∈ ([false, false, true] : Bits), b = true := ⟨default_valid, rfl, true, by simp⟩

/-- B2bitsUnpacksMsbFirst, Bits2bPacksAndPads, PadblkPadsToTheBlock, TruncNeverExtends: an `IN` of the kind each takes, the
empty buffer without a kind among them; and a block size of 1. -/
theorem witness_framer : (given (.bytes [0xAC])).inBuf.isBytes [0xAC] ∧ (given .empty).inBuf.isBytes [] ∧
    (given (seq 3 5)).inBuf.isBits (be 3 5) ∧ (given .empty).inBuf.isBits [] ∧ (1 : Nat) ≠ 0 :=
  ⟨given_isBytes _, Or.inr ⟨rfl, rfl⟩, given_isBits _, Or.inr ⟨rfl, rfl⟩, by decide⟩

/-- HostFlipAndMov: the last bit of a byte buffer and of a bit sequence. -/
theorem witness_hostFlip : (given (.bytes [0xE3, 0x8F])).inBuf = .bytes [0xE3, 0x8F] ∧ 15 < 8 * [0xE3, 0x8F].length ∧
    (given (seq 3 5)).inBuf = .bits (be 3 5) ∧ 2 < (be 3 5).length := ⟨rfl, by decide, rfl, by decide⟩

/-- HdrdecRecoversTheFields: exactly 144 bits, and one fewer. -/
theorem witness_hdrdec : (given (seq 144 0)).inBuf.isBits (be 144 0) ∧ 144 ≤ (be 144 0).length ∧
    (given (seq 143 0)).inBuf.isBits (be 143 0) ∧ (be 143 0).length < 144 := by
  refine ⟨given_isBits _, ?_, given_isBits _, ?_⟩ <;> rw [be_length]
  decide

/-- The pattern of V-HD-9: the first bit of each of the 48 groups. -/
def firstOfEach : Bits := be 144 0x924924924924924924924924924924924924

set_option maxRecDepth 4000 in
/-- HeaderSurvivesOneFlipPerGroup, second part: V-HD-11, two flips in group 15. -/
theorem witness_headerGroupLost : (flipAt (flipAt (zeros 144) 45) 46).length = 144 ∧
    2 ≤ popcount (slice (flipAt (flipAt (zeros 144) 45) 46) (3 * 15) (3 * 15 + 3)) := by decide

set_option maxRecDepth 4000 in
/-- HeaderSurvivesOneFlipPerGroup: V-HD-9 with something after the header, at the largest fields. -/
theorem witness_headerSurvives : firstOfEach.length = 144 ∧ popcount firstOfEach = 48 ∧ sparseErrors 3 1 firstOfEach ∧
    (given (.bits (xorBits (encodeHeader 255 255 4294967295) firstOfEach ++ [true]))).inBuf =
      .bits (xorBits (encodeHeader 255 255 4294967295) firstOfEach ++ [true]) ∧ 255 < 256 ∧ 4294967295 < 2 ^ 32 := by
  refine ⟨be_length _ _, by decide, sparse_of_bounded (by decide) ?_, rfl, by decide, by decide⟩
  decide

/-- RepencCopiesEachBit, RepdecVotesPerGroup: legal factors, and the nearest illegal ones. -/
theorem witness_repetition : (given (seq 10 0)).inBuf.isBits (be 10 0) ∧ 3 ∈ [3, 5, 7, 9] ∧ 9 ∈ [3, 5, 7, 9] ∧
    2 ∉ [3, 5, 7, 9] ∧ 4 ∉ [3, 5, 7, 9] ∧ 10 ∉ [3, 5, 7, 9] := ⟨given_isBits _, by decide⟩

/-- RepetitionTolerance: two groups of three with one error each and a tail of two; and two groups with two errors in the
last one and one in the other, followed by a whole group and a bit. -/
theorem witness_repetitionTolerance :
    ([true, false, false, false, false, true] : Bits).length = 3 * [true, false].length ∧
    sparseErrors 3 ((3 - 1) / 2) [true, false, false, false, false, true] ∧ ([true, true] : Bits).length < 3 ∧
    (given (.bits (xorBits (repEncode [true, false] 3) [true, false, false, false, false, true] ++ [true, true]))).inBuf =
      .bits (xorBits (repEncode [true, false] 3) [true, false, false, false, false, true] ++ [true, true]) ∧
    ([false, true, false, true, true, false] : Bits).length = 3 * [true, false].length ∧
    (3 - 1) / 2 < popcount (slice [false, true, false, true, true, false] (3 * 1) (3 * 1 + 3)) ∧ 1 < [true, false].length ∧
    (given (.bits (xorBits (repEncode [true, false] 3) [false, true, false, true, true, false] ++ be 4 9))).inBuf =
      .bits (xorBits (repEncode [true, false] 3) [false, true, false, true, true, false] ++ be 4 9) := by
  refine ⟨by decide, sparse_of_bounded (by decide) ?_, by decide, rfl, by decide, by decide, by decide, rfl⟩
  decide

/-- LbdecCorrectsRowByRow: in one input of three rows a codeword, an information error at position 2, a parity error at
position 5. -/
theorem witness_lbdecRows :
    (∀ t < 3, rowSyndromeBit defaultCatalog 3 (be 21 0b1011010_1001010_1011000) 0 t = false) ∧
    (∀ t < 3, rowSyndromeBit defaultCatalog 3 (be 21 0b1011010_1001010_1011000) 1 t = entry (defaultCatalog.p 3) 2 t) ∧
    (∀ t < 3, rowSyndromeBit defaultCatalog 3 (be 21 0b1011010_1001010_1011000) 2 t = decide (t = 1)) := by decide

/-- SingleErrorsAreCorrected: S8, position 2, and a parity position. -/
theorem witness_singleError : defaultCatalog.shaped ∧ (be 4 0b1011).length = 4 ∧
    (∀ p, (given (.bits (flipAt (encRow 7 ((given .empty).rom.code 3).g (be 4 0b1011)) p))).inBuf =
      .bits (flipAt (encRow 7 ((given .empty).rom.code 3).g (be 4 0b1011)) p)) ∧
    flipAt (encRow 7 ((given .empty).rom.code 3).g (be 4 0b1011)) 2 = be 7 0b1001010 :=
  ⟨default_shaped, be_length _ _, fun _ => rfl, by decide⟩

/-- DoubleErrorsAreMiscorrected: codeword 1010101, errors 0 and 1 (the third position is 2, an information bit), errors 0
and 3 (the third is 4, a parity bit). -/
theorem witness_doubleError :
    flipAt (flipAt (encRow 7 ((given .empty).rom.code 3).g (be 4 0b1010)) 0) 1 = be 7 0b0110101 ∧
    column ((given .empty).rom.code 3).h 2 =
      xorBits (column ((given .empty).rom.code 3).h 0) (column ((given .empty).rom.code 3).h 1) ∧
    column ((given .empty).rom.code 3).h 4 =
      xorBits (column ((given .empty).rom.code 3).h 0) (column ((given .empty).rom.code 3).h 3) := by decide

set_option maxRecDepth 4000 in
/-- LinearBlockRoundTrip: one block of k bits, and V-LB-9, 28 ones, whose seven rows get seven alignment zeros. -/
theorem witness_linearBlockRoundTrip : (given (.bits (lbEncode 3 ((given .empty).rom.code 3) (be 4 0b1011)))).inBuf =
      .bits (lbEncode 3 ((given .empty).rom.code 3) (be 4 0b1011)) ∧ (be 4 0b1011).length = 4 ∧
    lbEncode 3 ((given .empty).rom.code 3) (be 28 0xFFFFFFF) = be 56 0xFFFFFFFFFFFF80 ∧ (28 + 4 - 1) / 4 % 8 = 7 := by
  refine ⟨rfl, be_length _ _, ?_, by decide⟩
  decide

/-- EncodeBuildsTheFrame, EncodeDecodeRoundTrip, DecodeCorrectsChannelErrors: each case of method, factor and length. -/
theorem witness_encode : (given (.bytes [0xAC])).inBuf.isBytes [0xAC] ∧
    (given (.bytes [0xAC])).holdsCatalog defaultCatalog ∧ [(0xAC : Byte)].length < 2 ^ 29 ∧
    (0 = 0 ∧ 9 ∈ [3, 5, 7, 9] ∨ 0 = 1 ∧ 9 ∈ [3, 4, 5]) ∧ (1 = 0 ∧ 5 ∈ [3, 5, 7, 9] ∨ 1 = 1 ∧ 5 ∈ [3, 4, 5]) ∧
    (0 = 0 ∧ 4 ∉ [3, 5, 7, 9] ∨ 0 = 1 ∧ 4 ∉ [3, 4, 5]) ∧ (1 = 0 ∧ 7 ∉ [3, 5, 7, 9] ∨ 1 = 1 ∧ 7 ∉ [3, 4, 5]) ∧
    2 ^ 29 ≤ (List.replicate 536870912 (0 : Byte)).length := by
  refine ⟨given_isBytes _, given_holdsCatalog _, by decide, by decide, by decide, by decide, by decide, ?_⟩
  rw [List.length_replicate]
  norm_num

/-- FrameSizes: an `ENCODE` that does not abort, of either method. -/
theorem witness_frameSizes : ∃ t, exec (.encode 1 4) (given (.bytes [0x12, 0x34])) = .next t ∧ t.err = .noError := by
  obtain ⟨t, h, -, e⟩ := next_of_results test_encode
  exact ⟨t, h, e⟩

set_option maxRecDepth 4000 in
/-- DecodeByTheHeader: a frame for every case of the header, and one of 17 bytes. -/
theorem witness_decodeByTheHeader :
    (List.replicate 17 (0 : Byte)).length < 18 ∧ 18 ≤ frameRep3.length ∧ 18 ≤ frameMethod255.length ∧
    decodeHeader (bytesToBits frameRep3) = some ⟨0, 3, 8⟩ ∧ decodeHeader (bytesToBits frameLb3) = some ⟨1, 3, 8⟩ ∧
    decodeHeader (bytesToBits frameLb2) = some ⟨1, 2, 8⟩ ∧
    decodeHeader (bytesToBits frameMethod255) = some ⟨255, 3, 0⟩ := by decide

set_option maxRecDepth 4000 in
/-- DecodeOutputLength, DecodeFromComponents, PhaseTellsHowDecodeEnded: `DECODE` ends normally on a frame of each method. -/
theorem witness_decodeEnds :
    (∃ t, exec .decode (given (.bytes frameLb3)) = .next t ∧ t.outBuf = .bytes [0xAC] ∧ t.err = .noError) ∧
    (∃ t, exec .decode (given (.bytes frameRep3)) = .next t ∧ t.outBuf = .bytes [0xAC] ∧ t.err = .noError) :=
  ⟨next_of_results (u := 0) (n := 2) (p := 0) (by decide), next_of_results (u := 0) (n := 0) (p := 0) (by decide)⟩

/-- Errors on the frame of V-PL-2: one in a header group, P2's two in the rows, and one in the alignment zeros. -/
def channelLb : Bits := flipAt (flipAt (flipAt (flipAt (zeros 160) 0) 145) 156) 159

/-- Errors on the frame of V-PL-1: P1's three, and one more in another header group. -/
def channelRep : Bits := flipAt (flipAt (flipAt (flipAt (zeros 168) 0) 144) 149) 143

set_option maxRecDepth 4000 in
/-- DecodeCorrectsChannelErrors: both patterns are within the codes' power. -/
theorem witness_channel : channelLb.length = 8 * frameLb3.length ∧ sparseErrors 3 1 (channelLb.take 144) ∧
    oneErrorPerRow 7 2 (channelLb.drop 144) ∧ channelRep.length = 8 * frameRep3.length ∧
    sparseErrors 3 1 (channelRep.take 144) ∧ sparseErrors 3 ((3 - 1) / 2) (channelRep.drop 144) ∧
    (2 * 4 : Nat) = (8 * [(0xAC : Byte)].length + 4 - 1) / 4 * 4 := by
  refine ⟨by decide, sparse_of_bounded (by decide) ?_, ?_, by decide, sparse_of_bounded (by decide) ?_,
    sparse_of_bounded (by decide) ?_, by decide⟩
  · decide
  · unfold oneErrorPerRow
    decide
  · decide
  · decide

end Sys2Proof.Tests
end

/-! Rule R31: a step reads its start state through the cleared one, `State.fresh`, alone. -/
namespace Sys2Proof.Machine

/-- What the operand registers select does not depend on the result registers. -/
@[simp] theorem fetchCommand_fresh (s : State) : fetchCommand s.fresh = fetchCommand s := by
  simp only [fetchCommand, State.commandBytes, State.commandWord, State.fresh_cmd, State.fresh_argMethod,
    State.fresh_argFactor, State.fresh_argLen]

@[simp] theorem rejectCommand_fresh (s : State) : rejectCommand s.fresh = rejectCommand s := by
  rw [rejectCommand, rejectCommand, State.fresh_fresh]

/-- `exec_fresh` for a whole step: whether it is accepted, what it fetches and what it runs. -/
theorem step_fresh (s : State) : step s.fresh = step s := by
  simp only [step, State.fresh_heldInReset, fetchCommand_fresh, exec_fresh, rejectCommand_fresh]

/-- Settles O15: states that agree on the request, the ROM and being held in reset have the same cleared state, and a step
sees no more of its start state than that. -/
theorem outcomeDependsOnTheRequestOnly : Obligations.OutcomeDependsOnTheRequestOnly := by
  intro s s' hcmd hmethod hfactor hlen hin hrom hheld
  have hfresh : s.fresh = s'.fresh := (fresh_eq_iff s s').2 ⟨hcmd, hmethod, hfactor, hlen, hin, hrom, hheld⟩
  calc step s = step s.fresh := (step_fresh s).symm
    _ = step s'.fresh := by rw [hfresh]
    _ = step s' := step_fresh s'

end Sys2Proof.Machine

/-! Rule R45: a step that goes on keeps the cleared state `State.fresh`, which is all that the next step reads. -/
namespace Sys2Proof.Machine

/-- `leaves_fresh` for a whole step: the end of an operation, or the abort of a command word that selects none. -/
theorem step_keeps_fresh {s t : State} (h : step s = .next t) : t.fresh = s.fresh := by
  obtain ⟨-, ⟨i, -, hexec⟩ | rfl⟩ := step_next_cases h
  · exact leaves_fresh (exec_leaves hexec)
  · rw [State.raise_fresh, State.fresh_fresh]

/-- Settles O14: a step and the step after it read the same cleared state, so they have the same outcome. -/
theorem stepIsIdempotent : Obligations.StepIsIdempotent := by
  intro s t h
  have hfresh : t.fresh = s.fresh := step_keeps_fresh h
  have hagain : step t = .next t :=
    calc step t = step t.fresh := (step_fresh t).symm
      _ = step s.fresh := by rw [hfresh]
      _ = step s := step_fresh s
      _ = .next t := h
  obtain ⟨hcmd, hmethod, hfactor, hlen, hin, hrom, -⟩ := (fresh_eq_iff t s).1 hfresh
  have hbytes : t.commandBytes = s.commandBytes := by
    simp only [State.commandBytes, State.commandWord, hcmd, hmethod, hfactor, hlen]
  exact ⟨hagain, hin, hrom, hbytes⟩

end Sys2Proof.Machine

/-! Rules R58, R60: what a step fetches is decided by the operand registers' fields; a command word that selects no
operation is an abort. -/
namespace Sys2Proof.Machine

/-- The fetched command word decodes by the four operand registers (rule R58). -/
theorem fetchCommand_eq_decodeFields (s : State) :
    fetchCommand s = decodeFields s.cmd.toNat s.argMethod.toNat s.argFactor.toNat s.argLen.toNat :=
  decodeCommand_wordBytes s.cmd.isLt s.argMethod.isLt s.argFactor.isLt s.argLen.isLt

/-- A block out of reset whose command word selects no operation takes the abort (rule R60). -/
theorem step_of_fetchCommand_error {s : State} (hheld : s.heldInReset = false) {r : Reject}
    (hfetch : fetchCommand s = .error r) : step s = rejectCommand s := by
  simp [step, hheld, hfetch]

/-- The abort of a rejected command, over the state the claims call `cleared` (rule R120). -/
theorem rejectCommand_eq_cleared (s : State) :
    rejectCommand s = .next { s.cleared with err := .illegalCommand } := rfl

/-- Settles O8: a reserved `CMD` is rejected by the decoder whatever the other operand registers hold, so the step is the
abort. -/
theorem reservedCommandAborts : Obligations.ReservedCommandAborts := by
  intro s hheld hreserved
  have hfetch : fetchCommand s = .error (.reservedOp s.cmd.toNat) :=
    (fetchCommand_eq_decodeFields s).trans (decodeFields_reserved _ _ _ hreserved)
  rw [step_of_fetchCommand_error hheld hfetch, rejectCommand_eq_cleared]

end Sys2Proof.Machine

/-! Rules R65 to R67, R70: the tables that catalog initialisation builds for one code parameter, entry by entry, and what
reset puts into the ROM. -/
namespace Sys2Proof

section
variable {j : Nat} {P : Matrix} (hj : j ∈ Config.lbParams) (hlen : P.length = codeK j) (hrow : ∀ row ∈ P, row.length = j)

theorem build_g_length (j : Nat) (P : Matrix) : (CodeTables.build j P).g.length = codeK j := generator_length _ _

include hj hlen hrow in
theorem build_g_row_length : ∀ row ∈ (CodeTables.build j P).g, row.length = codeN j := by
  rw [codeN_eq hj]
  exact generator_row_length hlen hrow

/-- The entries of G (rule R66). -/
theorem build_g_entry (P : Matrix) {i : Nat} (hi : i < codeK j) (col : Nat) :
    entry (CodeTables.build j P).g i col = if col < codeK j then decide (col = i) else entry P i (col - codeK j) :=
  generator_entry _ P i col hi

theorem build_h_length (j : Nat) (P : Matrix) : (CodeTables.build j P).h.length = j := parityCheck_length _ _ _

include hj hlen in
theorem build_h_row_length : ∀ row ∈ (CodeTables.build j P).h, row.length = codeN j := by
  rw [codeN_eq hj]
  exact parityCheck_row_length hlen

include hj hlen in
/-- The entries of H (rule R67). -/
theorem build_h_entry {t col : Nat} (ht : t < j) (hcol : col < codeN j) :
    entry (CodeTables.build j P).h t col = if col < codeK j then entry P col t else decide (col - codeK j = t) :=
  parityCheck_entry hlen t col ht (codeN_eq hj ▸ hcol)

end

theorem build_syn_length (j : Nat) (P : Matrix) : (CodeTables.build j P).syn.length = 2 ^ j := syndromeTable_length _ _ _

theorem build_syn_zero (j : Nat) (P : Matrix) : (CodeTables.build j P).syn[0]? = some none := syndromeTable_zero _ _ _

/-- The slot of a column's syndrome, in a valid code (rule R70). -/
theorem build_syn_column {j : Nat} {P : Matrix} (hv : codeValid j P = true) {col : Nat} (hcol : col < codeN j) :
    (CodeTables.build j P).syn[val (column (CodeTables.build j P).h col)]? = some (some col) := by
  obtain ⟨-, -, hnonzero, hnodup⟩ := (codeValid_iff j P).1 hv
  exact syndromeTable_column (build_h_length j P) hnodup hcol (val_ne_zero_of_mem (hnonzero col hcol))

end Sys2Proof

namespace Sys2Proof.Machine

/-- Settles O11: the ROM after reset holds the tables built from `P_j`, whose entries and slots the lemmas on
`CodeTables.build` give. -/
theorem resetBuildsTheTables : Obligations.ResetBuildsTheTables := by
  intro c hshaped j hj T hT n k hn hk
  obtain ⟨hlen, hrow⟩ := hshaped j hj
  obtain rfl : n = codeN j := hn
  obtain rfl : k = codeK j := hk
  obtain rfl : T = CodeTables.build j (c.p j) := hT.trans (ofCatalog_code c hj)
  exact ⟨build_g_length j _, build_g_row_length hj hlen hrow, build_h_length j _, build_h_row_length hj hlen,
    build_syn_length j _, build_syn_zero j _, fun i hi col _ => build_g_entry _ hi col,
    fun t ht col hcol => build_h_entry hj hlen ht hcol,
    fun hvalid col hcol => build_syn_column (valid_codeValid hvalid hj) hcol⟩

end Sys2Proof.Machine

/-! Rules R71, R72: `GETG` and `GETH` read a matrix out row after row. -/
namespace Sys2Proof

theorem flatten_length_of_rows {M : Matrix} {n : Nat} (hrow : ∀ row ∈ M, row.length = n) :
    M.flatten.length = M.length * n := by
  rw [← List.flatMap_id, flatMap_length n id M hrow, Nat.mul_comm]

/-- Bit r·n + col of a matrix written row after row is its entry in row r and column col. -/
theorem flatten_getElem?_entry {M : Matrix} {n : Nat} (hrow : ∀ row ∈ M, row.length = n) {r col : Nat}
    (hr : r < M.length) (hcol : col < n) : M.flatten[r * n + col]? = some (entry M r col) := by
  have hin : col < M[r].length := by rwa [hrow _ (List.getElem_mem hr)]
  rw [← List.flatMap_id, Nat.mul_comm, flatMap_getElem? n id M hrow r col hcol, List.getElem?_eq_getElem hr,
    Option.bind_some, id, List.getElem?_eq_getElem hin, entry, List.getD_eq_getElem _ _ hr, List.getD_eq_getElem _ _ hin]

end Sys2Proof

namespace Sys2Proof.Machine

theorem exec_getg (j : Nat) (s : State) : exec (.getg j) s = readCatalog j (fun T => .bits T.g.flatten) s := rfl

theorem exec_geth (j : Nat) (s : State) : exec (.geth j) s = readCatalog j (fun T => .bits T.h.flatten) s := rfl

theorem exec_getsyn (j : Nat) (s : State) :
    exec (.getsyn j) s = readCatalog j (fun T => .bytes (T.syn.map synByte)) s := rfl

/-- A read-out of a held catalog, over the tables built from its `P_j` and the state the claims call `cleared`. -/
theorem readCatalog_of_holdsCatalog {s : State} {c : Catalog} (h : s.holdsCatalog c) {j : Nat} (hj : j ∈ [3, 4, 5])
    (out : CodeTables → Buffer) :
    readCatalog j out s = .next { s.cleared with outBuf := out (CodeTables.build j (c.p j)) } := by
  rw [readCatalog_legal hj, holdsCatalog_code h hj]
  rfl

/-- The abort of a read-out for a j that is no code parameter, over the state the claims call `cleared`. -/
theorem readCatalog_illegal_cleared {j : Nat} (hj : j ∉ [3, 4, 5]) (out : CodeTables → Buffer) (s : State) :
    readCatalog j out s = .next { s.cleared with err := .unsupportedParameter } := readCatalog_illegal hj out s

/-- A matrix of a held catalog, read out: m rows of n bits, its entry (r, col) at r·n + col. -/
theorem readCatalog_matrix {s : State} {c : Catalog} (h : s.holdsCatalog c) {j : Nat} (hj : j ∈ [3, 4, 5])
    (mat : CodeTables → Matrix) {m n : Nat} (hlen : (mat (CodeTables.build j (c.p j))).length = m)
    (hrow : ∀ row ∈ mat (CodeTables.build j (c.p j)), row.length = n) :
    ∃ out, readCatalog j (fun T => .bits (mat T).flatten) s = .next { s.cleared with outBuf := .bits out } ∧
      out.length = m * n ∧
      ∀ r < m, ∀ col < n, out[r * n + col]? = some (entry (mat (CodeTables.build j (c.p j))) r col) :=
  ⟨_, readCatalog_of_holdsCatalog h hj _, by rw [flatten_length_of_rows hrow, hlen],
    fun _ hr _ hcol => flatten_getElem?_entry hrow (by rwa [hlen]) hcol⟩

/-- Settles O22: the read-out of G, with the entries of the G that is built from `P_j`. -/
theorem getgGivesTheGenerator : Obligations.GetgGivesTheGenerator := by
  refine ⟨fun _ _ _ _ _ _ => rfl, ?_, fun s j hj => (exec_getg j s).trans (readCatalog_illegal_cleared hj _ s)⟩
  intro s c j hholds hj n k hn hk
  obtain rfl : n = codeN j := hn
  obtain rfl : k = codeK j := hk
  obtain ⟨hlen, hrow, -, -⟩ := (codeValid_iff j _).1 (valid_codeValid hholds.1 hj)
  obtain ⟨out, hexec, hlength, hbits⟩ :=
    readCatalog_matrix hholds hj CodeTables.g (build_g_length j _) (build_g_row_length hj hlen hrow)
  refine ⟨out, (exec_getg j s).trans hexec, hlength, fun r hr col hcol => ?_⟩
  rw [hbits r hr col hcol, build_g_entry _ hr]

/-- Settles O23: the read-out of H, with the entries of the H that is built from `P_j`. -/
theorem gethGivesTheParityCheck : Obligations.GethGivesTheParityCheck := by
  refine ⟨fun _ _ _ _ _ _ => rfl, ?_, fun s j hj => (exec_geth j s).trans (readCatalog_illegal_cleared hj _ s)⟩
  intro s c j hholds hj n k hn hk
  obtain rfl : n = codeN j := hn
  obtain rfl : k = codeK j := hk
  obtain ⟨hlen, -, -, -⟩ := (codeValid_iff j _).1 (valid_codeValid hholds.1 hj)
  obtain ⟨out, hexec, hlength, hbits⟩ :=
    readCatalog_matrix hholds hj CodeTables.h (build_h_length j _) (build_h_row_length hj hlen)
  refine ⟨out, (exec_geth j s).trans hexec, hlength, fun t ht col hcol => ?_⟩
  rw [hbits t ht col hcol, build_h_entry hj hlen ht hcol]

end Sys2Proof.Machine

/-! Rules R70, R73: the slots of a valid code's syndrome table, and their bytes. -/
namespace Sys2Proof

/-- The unit vector with its 1 at index t spells 2^(m − 1 − t). -/
theorem val_unitRow {m t : Nat} (ht : t < m) : val (unitRow m t) = 2 ^ (m - 1 - t) := by
  have hbe : unitRow m t = be m (2 ^ (m - 1 - t)) := by
    apply List.ext_getElem?
    intro c
    by_cases hc : c < m
    · rw [unitRow_getElem? m t c hc, be_getElem? m _ c hc, Nat.testBit_two_pow]
      congr 2
      exact propext (by omega)
    · rw [List.getElem?_eq_none (by simpa using hc), List.getElem?_eq_none (by simpa using hc)]
  rw [hbe, val_be_of_lt (Nat.pow_lt_pow_right (by decide) (by omega))]

section
variable {j : Nat} {P : Matrix} (hv : codeValid j P = true)
include hv

/-- The slot of the syndrome that is row i of `P_j` holds i. -/
theorem build_syn_info (hj : j ∈ Config.lbParams) {i : Nat} (hi : i < codeK j) :
    (CodeTables.build j P).syn[val (P.getD i [])]? = some (some i) := by
  obtain ⟨hlen, hrow, -, -⟩ := (codeValid_iff j P).1 hv
  have hcolumn : column (CodeTables.build j P).h i = P.getD i [] := column_parityCheck_info hlen hrow hi
  have hin : i < codeN j := by rw [codeN_eq hj]; omega
  rw [← hcolumn, build_syn_column hv hin]

/-- The slot of the syndrome with a single 1 at index t holds k + t. -/
theorem build_syn_parity (hj : j ∈ Config.lbParams) {t : Nat} (ht : t < j) :
    (CodeTables.build j P).syn[2 ^ (j - 1 - t)]? = some (some (codeK j + t)) := by
  obtain ⟨hlen, -, -, -⟩ := (codeValid_iff j P).1 hv
  have hcolumn : column (CodeTables.build j P).h (codeK j + t) = unitRow j t := column_parityCheck_parity hlen ht
  have hin : codeK j + t < codeN j := by rw [codeN_eq hj]; omega
  rw [← val_unitRow ht, ← hcolumn, build_syn_column hv hin]

/-- Every nonzero syndrome is a column of H: the 2^j − 1 columns are distinct and nonzero, so they spell all of
1 … 2^j − 1. -/
theorem exists_column_of_syndrome {v : Nat} (hpos : 0 < v) (hlt : v < 2 ^ j) :
    ∃ col < codeN j, val (column (CodeTables.build j P).h col) = v := by
  obtain ⟨-, -, hnonzero, -⟩ := (codeValid_iff j P).1 hv
  have hmaps : ∀ col ∈ Finset.range (codeN j), val (column (CodeTables.build j P).h col) ∈ Finset.Ioo 0 (2 ^ j) := by
    intro col hcol
    have hbound := val_lt (column (CodeTables.build j P).h col)
    rw [column_length, build_h_length] at hbound
    exact Finset.mem_Ioo.2 ⟨Nat.pos_of_ne_zero (val_ne_zero_of_mem (hnonzero col (Finset.mem_range.1 hcol))), hbound⟩
  have hinj : Set.InjOn (fun col => val (column (CodeTables.build j P).h col)) (Finset.range (codeN j)) := by
    intro a ha b hb hab
    have hslots := (build_syn_column hv (Finset.mem_range.1 ha)).symm.trans
      ((congrArg _ hab).trans (build_syn_column hv (Finset.mem_range.1 hb)))
    simpa using hslots
  have hcard : (Finset.Ioo 0 (2 ^ j)).card ≤ (Finset.range (codeN j)).card := by simp [codeN]
  obtain ⟨col, hcol, hval⟩ := Finset.surjOn_of_injOn_of_card_le _ hmaps hinj hcard
    (Finset.mem_coe.2 (Finset.mem_Ioo.2 ⟨hpos, hlt⟩))
  exact ⟨col, Finset.mem_range.1 hcol, hval⟩

/-- Every slot but slot 0 of a valid code's table holds a column index. -/
theorem build_syn_defined {v : Nat} (hpos : 0 < v) (hlt : v < 2 ^ j) :
    ∃ col < codeN j, (CodeTables.build j P).syn[v]? = some (some col) := by
  obtain ⟨col, hcol, rfl⟩ := exists_column_of_syndrome hv hpos hlt
  exact ⟨col, hcol, build_syn_column hv hcol⟩

end

end Sys2Proof

namespace Sys2Proof.Machine

/-- The byte of a slot that holds a column index (rule R73). -/
theorem map_synByte_getElem? {syn : List (Option Nat)} {v col : Nat} (h : syn[v]? = some (some col)) :
    (syn.map synByte)[v]? = some (BitVec.ofNat 8 col) := by
  rw [List.getElem?_map, h]
  rfl

/-- Settles O24: each byte is the byte of its slot, and the columns of a valid code's H fill every slot but slot 0. -/
theorem getsynGivesTheTable : Obligations.GetsynGivesTheTable := by
  refine ⟨fun _ _ _ _ _ _ => rfl, ?_, fun s j hj => (exec_getsyn j s).trans (readCatalog_illegal_cleared hj _ s)⟩
  intro s c j hholds hj n k hn hk
  obtain rfl : n = codeN j := hn
  obtain rfl : k = codeK j := hk
  have hv := valid_codeValid hholds.1 hj
  refine ⟨(CodeTables.build j (c.p j)).syn.map synByte, ?_, ?_, ?_, ?_, ?_, ?_⟩
  · rw [exec_getsyn, readCatalog_of_holdsCatalog hholds hj]
  · rw [List.length_map, build_syn_length]
  · rw [List.getElem?_map, build_syn_zero]
    rfl
  · exact fun i hi => map_synByte_getElem? (build_syn_info hv hj hi)
  · exact fun t ht => map_synByte_getElem? (build_syn_parity hv hj ht)
  · intro v hpos hlt
    obtain ⟨col, hcol, hslot⟩ := build_syn_defined hv hpos hlt
    exact ⟨col, hcol, map_synByte_getElem? hslot⟩

end Sys2Proof.Machine

/-! Rules R74, R75, R78: unpacking bit by bit, and unpacking and packing as inverses up to the alignment zeros. -/
namespace Sys2Proof

/-- The bits of a byte, the most significant at index 0 (rule R37). -/
theorem byteBits_getElem? (v : Byte) {t : Nat} (ht : t < 8) : (byteBits v)[t]? = some (v.getLsbD (7 - t)) :=
  be_getElem? 8 v.toNat t ht

/-- Bit t of byte i of an unpacked buffer (rule R74). -/
theorem bytesToBits_getElem? {buf : Bytes} {i t : Nat} (hi : i < buf.length) (ht : t < 8) :
    (bytesToBits buf)[8 * i + t]? = some ((buf.getD i 0).getLsbD (7 - t)) := by
  rw [bytesToBits, flatMap_getElem? 8 byteBits buf (fun v _ => byteBits_length v) i t ht, List.getElem?_eq_getElem hi,
    Option.bind_some, byteBits_getElem? _ ht, List.getD_eq_getElem _ _ hi]

/-- Packing undoes unpacking (rule R78). -/
theorem bitsToBytes_bytesToBits (buf : Bytes) : bitsToBytes (bytesToBits buf) = buf := by
  have hlen : (bytesToBits buf).length = 8 * buf.length := bytesToBits_length buf
  have hgroups : groups 8 buf.length (bytesToBits buf) = buf.map byteBits :=
    groups_flatMap 8 byteBits buf fun v _ => byteBits_length v
  rw [bitsToBytes_of_mod_zero (by omega), hlen, Nat.mul_div_cancel_left _ (by decide), hgroups, List.map_map]
  exact List.map_id'' bitsByte_byteBits buf

/-- The packed bytes have as many bits as the sequence with its alignment zeros (rule R75). -/
theorem eight_mul_bitsToBytes_length (bits : Bits) :
    8 * (bitsToBytes bits).length = bits.length + padLen 8 bits.length := by
  rw [bitsToBytes_length, Nat.mul_div_cancel' (Nat.dvd_of_mod_eq_zero (add_padLen_mod (by decide) _))]

/-- Unpacking undoes packing but for the alignment zeros (rule R78). -/
theorem bytesToBits_bitsToBytes (bits : Bits) :
    bytesToBits (bitsToBytes bits) = bits ++ zeros (padLen 8 bits.length) := by
  have hcover : 8 * ((bits.length + padLen 8 bits.length) / 8) = (padToBlock bits 8).1.length := by
    rw [← bitsToBytes_length, eight_mul_bitsToBytes_length, padToBlock_length]
  rw [bitsToBytes, bytesToBits_map_bitsByte fun _ hg => mem_groups_length hcover.le hg, groups_flatten _ _ _ hcover.le,
    hcover, List.take_length, padToBlock]

/-- Bit t of byte i of a packed sequence: the sequence's own bit, or a zero past its end (rule R75). -/
theorem bitsToBytes_bit (bits : Bits) {i t : Nat} (hi : i < (bitsToBytes bits).length) (ht : t < 8) :
    ((bitsToBytes bits).getD i 0).getLsbD (7 - t) = bits.getD (8 * i + t) false := by
  have hbit := bytesToBits_getElem? hi ht
  have hlen := eight_mul_bitsToBytes_length bits
  rw [bytesToBits_bitsToBytes] at hbit
  by_cases hin : 8 * i + t < bits.length
  · rw [List.getElem?_append_left hin] at hbit
    rw [List.getD_eq_getElem?_getD (l := bits), hbit, Option.getD_some]
  · rw [List.getElem?_append_right (by omega), List.getElem?_replicate_of_lt (by omega), Option.some.injEq] at hbit
    rw [← hbit, List.getD_eq_default _ _ (by omega)]

/-- Cutting a sequence back to its own length drops whatever was put after it (rule R78). -/
theorem truncate_append_length (s t : Bits) : truncate (s ++ t) s.length = s := by
  rw [truncate_eq_take, List.take_left]

theorem truncate_truncate (s : Bits) (E E' : Nat) : truncate (truncate s E) E' = truncate s (min E E') := by
  simp only [truncate_eq_take, List.take_take, Nat.min_comm]

/-- Settles O30: packing and unpacking are inverses up to the alignment zeros, and truncation is a `take`, which drops
what padding appends. -/
theorem framerLaws : Obligations.FramerLaws := by
  refine ⟨bitsToBytes_bytesToBits, fun s => ⟨bytesToBits_bitsToBytes s, ?_⟩, fun s S hS => ⟨?_, ?_⟩,
    fun s E E' => ⟨?_, truncate_truncate s E E'⟩⟩
  · rw [bytesToBits_bitsToBytes, truncate_append_length]
  · exact truncate_append_length s _
  · rw [padToBlock_length, add_padLen_eq hS]
  · rw [truncate_eq_take]
    exact ⟨s.drop E, List.take_append_drop E s⟩

end Sys2Proof

/-! Rules R74 to R77: the framer's four operations on an `IN` of their kind, over the state the claims call `cleared`. -/
namespace Sys2Proof.Machine

section
variable {s : State} {bits : Bits}

theorem exec_b2bits {buf : Bytes} (h : s.inBuf.isBytes buf) :
    exec .b2bits s = .next { s.cleared with outBuf := .bits (bytesToBits buf) } := withBytes_of_isBytes h _

theorem exec_bits2b (h : s.inBuf.isBits bits) :
    exec .bits2b s =
      .next { s.cleared with outBuf := .bytes (bitsToBytes bits), padAmount := padLen 8 bits.length } :=
  withBits_of_isBits h _

theorem exec_padblk (h : s.inBuf.isBits bits) {S : Nat} (hS : S ≠ 0) :
    exec (.padblk S) s =
      .next { s.cleared with outBuf := .bits (padToBlock bits S).1, padAmount := padLen S bits.length } := by
  refine (withBits_of_isBits h _).trans ?_
  rw [if_neg hS]
  rfl

theorem exec_padblk_zero (h : s.inBuf.isBits bits) :
    exec (.padblk 0) s = .next { s.cleared with err := .unsupportedParameter } := withBits_of_isBits h _

theorem exec_trunc (h : s.inBuf.isBits bits) (E : Nat) :
    exec (.trunc E) s = .next { s.cleared with outBuf := .bits (truncate bits E) } := withBits_of_isBits h _

end

/-- Settles O26: `B2BITS` leaves the unpacked buffer, whose bits `bytesToBits_getElem?` gives. -/
theorem b2bitsUnpacksMsbFirst : Obligations.B2bitsUnpacksMsbFirst :=
  ⟨fun _ _ _ _ _ _ => rfl, fun _ buf h =>
    ⟨bytesToBits buf, exec_b2bits h, bytesToBits_length buf, fun _ hi _ ht => bytesToBits_getElem? hi ht⟩⟩

/-- Settles O27: `BITS2B` leaves the packed sequence, whose bits are those of unpacking it again: the sequence and its
alignment zeros. -/
theorem bits2bPacksAndPads : Obligations.Bits2bPacksAndPads := by
  refine ⟨fun _ _ _ _ _ _ => rfl, fun s bits h => ⟨bitsToBytes bits, exec_bits2b h, ?_, ?_, ?_⟩⟩
  · rw [bitsToBytes_length, add_padLen_div (by decide)]
    rfl
  · exact eight_mul_bitsToBytes_length bits
  · exact fun i hi t ht => bitsToBytes_bit bits hi ht

/-- Settles O28: for S not 0 the zeros appended are `padLen S`, which is below S and brings the length to a multiple of
S; S = 0 is the abort. -/
theorem padblkPadsToTheBlock : Obligations.PadblkPadsToTheBlock := by
  refine ⟨fun _ _ _ _ _ _ => rfl, fun s bits S h hS => ?_, fun s bits h => exec_padblk_zero h⟩
  have hpos : 0 < S := Nat.pos_of_ne_zero hS
  exact ⟨padLen S bits.length, exec_padblk h hS, padLen_lt hpos _, add_padLen_mod hpos _, rfl⟩

/-- Settles O29: `TRUNC` leaves a `take` of the sequence, which is the whole of it from its length on. -/
theorem truncNeverExtends : Obligations.TruncNeverExtends := by
  refine ⟨fun _ _ _ _ _ _ => rfl, fun s bits E h => ⟨truncate bits E, exec_trunc h E, ?_, ?_, ?_⟩⟩
  · rw [truncate_eq_take, List.length_take]
  · intro i hi
    rw [truncate_eq_take, List.length_take] at hi
    rw [truncate_eq_take, List.getElem?_take_of_lt (by omega)]
  · intro hle
    rw [truncate_eq_take, List.take_of_length_le hle]

end Sys2Proof.Machine

/-! Rules R53, R80: the protected header bit by bit. -/
namespace Sys2Proof

/-- Bit t of the raw word, as a bit of the header's number (rules R51, R52). -/
theorem rawHeader_getElem? {m f L t : Nat} (hm : m < 256) (hf : f < 256) (hL : L < 2 ^ 32) (ht : t < 48) :
    (rawHeader m f L)[t]? = some ((headerWord m f L).testBit (47 - t)) := by
  rw [← be_headerWord hm hf hL, be_getElem? 48 _ t ht]

/-- Copy c of raw bit t (rule R53). -/
theorem encodeHeader_getElem? (m f L t : Nat) {c : Nat} (hc : c < 3) :
    (encodeHeader m f L)[3 * t + c]? = (rawHeader m f L)[t]? :=
  repEncode_getElem? (rawHeader m f L) 3 t c hc

end Sys2Proof

namespace Sys2Proof.Machine

/-- Settles O32: `HDRENC` leaves the protected header, each bit of which is a copy of a bit of the raw word. -/
theorem hdrencTriplesTheRawWord : Obligations.HdrencTriplesTheRawWord := by
  refine ⟨fun _ _ _ _ _ _ => rfl, fun s m f L hm hf hL => ⟨encodeHeader m f L, rfl, encodeHeader_length m f L, ?_⟩⟩
  intro t ht c hc
  rw [encodeHeader_getElem? m f L t hc, rawHeader_getElem? hm hf hL ht, headerWord]

end Sys2Proof.Machine

/-! Rule R81: the vote over three frame bits, and `HDRDEC` on an `IN` of its kind, over the state the claims call
`cleared`. -/
namespace Sys2Proof

/-- Three bits inside a sequence, one by one. -/
theorem slice_three {F : Bits} {i : Nat} (h : i + 3 ≤ F.length) :
    slice F i (i + 3) = [F.getD i false, F.getD (i + 1) false, F.getD (i + 2) false] := by
  rw [slice, Nat.add_sub_cancel_left, List.drop_eq_getElem_cons (by omega), List.drop_eq_getElem_cons (by omega),
    List.drop_eq_getElem_cons (by omega), List.getD_eq_getElem _ _ (by omega), List.getD_eq_getElem _ _ (by omega),
    List.getD_eq_getElem _ _ (by omega)]
  rfl

/-- The majority of three bits is 1 when two of them are (rule R86). -/
theorem majority_three :
    ∀ a b c : Bit, majority [a, b, c] = decide (2 ≤ a.toNat + b.toNat + c.toNat) := by decide

/-- Raw bit t of a received header, from its three frame bits (rule R81). -/
theorem recoverRaw_vote {F : Bits} (hF : 144 ≤ F.length) {t : Nat} (ht : t < 48) :
    (recoverRaw F)[t]? = some (decide (2 ≤ (F.getD (3 * t) false).toNat + (F.getD (3 * t + 1) false).toNat +
      (F.getD (3 * t + 2) false).toNat)) := by
  rw [recoverRaw_getElem? F t ht, slice_three (by omega), majority_three]

end Sys2Proof

namespace Sys2Proof.Machine

/-- `HDRDEC` records the fields that `DecodeHeader` gives. -/
theorem exec_hdrdec_of_some {s : State} {F : Bits} (h : s.inBuf.isBits F) {fields : HeaderFields}
    (hdec : decodeHeader F = some fields) :
    exec .hdrdec s = .next { s.cleared with
      hdrMethod := BitVec.ofNat 8 fields.method, hdrFactor := BitVec.ofNat 8 fields.factor,
      hdrSrcLen := BitVec.ofNat 32 fields.sourceLength } := by
  refine (withBits_of_isBits h _).trans ?_
  rw [hdec]
  rfl

/-- `HDRDEC` aborts where `DecodeHeader` gives none (rule R81). -/
theorem exec_hdrdec_of_none {s : State} {F : Bits} (h : s.inBuf.isBits F) (hdec : decodeHeader F = none) :
    exec .hdrdec s = .next { s.cleared with err := .headerCorrupt } := by
  refine (withBits_of_isBits h _).trans ?_
  rw [hdec]
  rfl

/-- Settles O33: from 144 bits on `HDRDEC` records the fields of the recovered raw bits, below that it is the abort. -/
theorem hdrdecRecoversTheFields : Obligations.HdrdecRecoversTheFields := by
  refine ⟨fun _ _ _ _ _ _ => rfl, fun s F h hF => ?_, fun s F h hF => exec_hdrdec_of_none h (decodeHeader_short hF)⟩
  refine ⟨recoverRaw F, recoverRaw_length F, fun _ ht => recoverRaw_vote hF ht, ?_⟩
  rw [exec_hdrdec_of_some h (decodeHeader_of_length hF), parseRaw]
  rfl

end Sys2Proof.Machine

/-! Rule R83: a protected header under errors. -/
namespace Sys2Proof

/-- Raw bit t recovered from a header under errors: right exactly when fewer than half of its group's bits are
flipped, and inverted otherwise. -/
theorem recoverRaw_xor_getElem? (m f L : Nat) {e : Bits} (rest : Bits) (he : e.length = 144) {t : Nat} (ht : t < 48) :
    (recoverRaw (xorBits (encodeHeader m f L) e ++ rest))[t]? =
      if 2 * popcount (slice e (3 * t) (3 * t + 3)) < 3 then (rawHeader m f L)[t]?
      else (rawHeader m f L)[t]?.map not := by
  have hraw : t < (rawHeader m f L).length := by rwa [rawHeader_length]
  have hgroup : (slice e (3 * t) (3 * t + 3)).length = 3 := by rw [slice_three (by omega)]; rfl
  have hvote := majority_xor_replicate ((rawHeader m f L).getD t false) (slice e (3 * t) (3 * t + 3)) (by rw [hgroup])
  rw [hgroup] at hvote
  rw [recoverRaw_append rest (by rw [xorBits_length, encodeHeader_length, he, Nat.min_self]), recoverRaw_getElem? _ t ht,
    encodeHeader, Config.hdrFactorN, slice_xor_repEncode _ e 3 t hraw, hvote, List.getElem?_eq_getElem hraw,
    List.getD_eq_getElem _ _ hraw, Option.map_some, apply_ite some]

/-- At most one flip in each group leaves the raw word as it was. -/
theorem recoverRaw_of_sparseErrors (m f L : Nat) {e : Bits} (rest : Bits) (he : e.length = 144)
    (hsparse : sparseErrors 3 1 e) : recoverRaw (xorBits (encodeHeader m f L) e ++ rest) = rawHeader m f L := by
  apply List.ext_getElem?
  intro t
  by_cases ht : t < 48
  · have hone := hsparse t
    rw [recoverRaw_xor_getElem? m f L rest he ht, if_pos (by omega)]
  · rw [List.getElem?_eq_none (by rw [recoverRaw_length]; omega),
      List.getElem?_eq_none (by rw [rawHeader_length]; omega)]

/-- The header round trip (rule R83). -/
theorem decodeHeader_of_sparseErrors {m f L : Nat} (hm : m < 256) (hf : f < 256) (hL : L < 2 ^ 32) {e : Bits}
    (rest : Bits) (he : e.length = 144) (hsparse : sparseErrors 3 1 e) :
    decodeHeader (xorBits (encodeHeader m f L) e ++ rest) = some ⟨m, f, L⟩ := by
  have hlen : 144 ≤ (xorBits (encodeHeader m f L) e ++ rest).length := by
    rw [List.length_append, xorBits_length, encodeHeader_length, he]
    omega
  rw [decodeHeader_of_length hlen, recoverRaw_of_sparseErrors m f L rest he hsparse, parseRaw_rawHeader hm hf hL]

end Sys2Proof

namespace Sys2Proof.Machine

/-- Settles O34: sparse errors leave every raw bit right, so the fields come back; two or three flips in a group are no
longer fewer than half of it. -/
theorem headerSurvivesOneFlipPerGroup : Obligations.HeaderSurvivesOneFlipPerGroup := by
  refine ⟨fun s m f L e rest hm hf hL he hsparse hin => ?_, fun m f L e rest t he ht htwo => ?_⟩
  · have hdec := decodeHeader_of_sparseErrors hm hf hL rest he hsparse
    exact ⟨exec_hdrdec_of_some (.inl hin) hdec, hdec⟩
  · rw [recoverRaw_xor_getElem? m f L rest he ht, if_neg (by omega)]

end Sys2Proof.Machine

/-! Rules R86 to R89: the vote over one group, and the repetition coder's two operations on an `IN` of their kind, over
the state the claims call `cleared`. -/
namespace Sys2Proof

/-- A slice inside a sequence has its full length. -/
theorem slice_length_of_le {s : Bits} {a n : Nat} (h : a + n ≤ s.length) : (slice s a (a + n)).length = n := by
  rw [slice, List.length_take, List.length_drop]
  omega

/-- Bit i of a decoded sequence, from the ones among the n bits of group i (rules R86, R88). -/
theorem repDecode_vote (bits : Bits) (n : Nat) {i : Nat} (hi : i < bits.length / n) :
    (repDecode bits n).1[i]? = some (decide (n < 2 * popcount (slice bits (n * i) (n * i + n)))) := by
  have hin : n * i + n ≤ bits.length :=
    calc n * i + n = n * (i + 1) := (Nat.mul_succ n i).symm
      _ ≤ n * (bits.length / n) := Nat.mul_le_mul_left n hi
      _ ≤ bits.length := Nat.mul_div_le _ _
  rw [repDecode_getElem? bits n i hi, majority, slice_length_of_le hin]

end Sys2Proof

namespace Sys2Proof.Machine

section
variable {s : State} {bits : Bits} (h : s.inBuf.isBits bits) {n : Nat}
include h

theorem exec_repenc_legal (hn : n ∈ [3, 5, 7, 9]) :
    exec (.repenc n) s = .next { s.cleared with outBuf := .bits (repEncode bits n) } := by
  refine (withBits_of_isBits h _).trans ?_
  rw [if_pos ((legalRep_iff n).2 hn)]
  rfl

theorem exec_repenc_illegal (hn : n ∉ [3, 5, 7, 9]) :
    exec (.repenc n) s = .next { s.cleared with err := .unsupportedFactor } := by
  refine (withBits_of_isBits h _).trans ?_
  rw [if_neg (mt (legalRep_iff n).1 hn)]
  rfl

theorem exec_repdec_legal (hn : n ∈ [3, 5, 7, 9]) :
    exec (.repdec n) s =
      .next { s.cleared with outBuf := .bits (repDecode bits n).1, tailDropped := bits.length % n } := by
  refine (withBits_of_isBits h _).trans ?_
  rw [if_pos ((legalRep_iff n).2 hn)]
  rfl

theorem exec_repdec_illegal (hn : n ∉ [3, 5, 7, 9]) :
    exec (.repdec n) s = .next { s.cleared with err := .unsupportedFactor } := by
  refine (withBits_of_isBits h _).trans ?_
  rw [if_neg (mt (legalRep_iff n).1 hn)]
  rfl

end

/-- Settles O35: `REPENC` leaves the encoded sequence, whose copies `repEncode_getElem?` places; a factor that is not
legal is the abort. -/
theorem repencCopiesEachBit : Obligations.RepencCopiesEachBit := by
  refine ⟨fun _ _ _ _ _ _ => rfl, fun s bits n h => ⟨fun hn => ?_, exec_repenc_illegal h⟩⟩
  exact ⟨repEncode bits n, exec_repenc_legal h hn, repEncode_length bits n,
    fun i _ c hc => repEncode_getElem? bits n i c hc⟩

/-- Settles O36: `REPDEC` leaves the decoded sequence, each bit of which is the vote of its group; a factor that is not
legal is the abort. -/
theorem repdecVotesPerGroup : Obligations.RepdecVotesPerGroup := by
  refine ⟨fun _ _ _ _ _ _ => rfl, fun s bits n h => ⟨fun hn => ?_, exec_repdec_illegal h⟩⟩
  exact ⟨(repDecode bits n).1, exec_repdec_legal h hn, repDecode_length bits n, fun _ hi => repDecode_vote bits n hi⟩

end Sys2Proof.Machine

/-! Rule R90: a repetition-coded sequence under errors, and what follows it. -/
namespace Sys2Proof

theorem groups_add (n g g' : Nat) (s : Bits) : groups n (g + g') s = groups n g s ++ groups n g' (s.drop (n * g)) := by
  induction g generalizing s with
  | zero => simp [groups]
  | succ g ih =>
    have hdrop : (s.drop n).drop (n * g) = s.drop (n * (g + 1)) := by
      rw [List.drop_drop, Nat.mul_succ, Nat.add_comm]
    rw [Nat.succ_add, groups, ih, hdrop, groups, List.cons_append]

/-- After whole groups, what follows is decoded for itself (rule R88). -/
theorem repDecode_append {n : Nat} (hn : 0 < n) {coded : Bits} {g : Nat} (hlen : coded.length = n * g) (rest : Bits) :
    repDecode (coded ++ rest) n = ((repDecode coded n).1 ++ (repDecode rest n).1, rest.length % n) := by
  have hdrop : (coded ++ rest).drop (n * g) = rest := by rw [← hlen, List.drop_left]
  simp only [repDecode, List.length_append, hlen, Nat.mul_add_div hn, Nat.mul_div_cancel_left g hn, Nat.mul_add_mod,
    groups_add, hdrop, groups_append n g coded rest hlen.ge, List.map_append]

/-- An error pattern as long as the encoded sequence keeps its length. -/
theorem xor_repEncode_length {bits e : Bits} {n : Nat} (he : e.length = n * bits.length) :
    (xorBits (repEncode bits n) e).length = n * bits.length := by
  rw [xorBits_length, repEncode_length, he, Nat.min_self]

section
variable {n : Nat} (hodd : n % 2 = 1) {bits e : Bits} (he : e.length = n * bits.length)
include hodd he

/-- Bit i decoded under errors: right exactly when fewer than half of its group's bits are flipped, and inverted
otherwise. -/
theorem repDecode_xor_getElem? {i : Nat} (hi : i < bits.length) :
    (repDecode (xorBits (repEncode bits n) e) n).1[i]? =
      if 2 * popcount (slice e (n * i) (n * i + n)) < n then bits[i]? else bits[i]?.map not := by
  have hgroup : (slice e (n * i) (n * i + n)).length = n :=
    slice_length_of_le (he ▸ Nat.mul_succ n i ▸ Nat.mul_le_mul_left n hi)
  have hcount : i < (xorBits (repEncode bits n) e).length / n := by
    rwa [xor_repEncode_length he, Nat.mul_div_cancel_left _ (by omega)]
  have hvote := majority_xor_replicate (bits.getD i false) (slice e (n * i) (n * i + n)) (by rwa [hgroup])
  rw [hgroup] at hvote
  rw [repDecode_getElem? _ n i hcount, slice_xor_repEncode bits e n i hi, hvote, List.getElem?_eq_getElem hi,
    List.getD_eq_getElem _ _ hi, Option.map_some, apply_ite some]

/-- Up to ⌊(n−1)/2⌋ flips in each group leave the sequence as it was (rule R90). -/
theorem repDecode_of_sparseErrors (hsparse : sparseErrors n ((n - 1) / 2) e) :
    (repDecode (xorBits (repEncode bits n) e) n).1 = bits := by
  apply List.ext_getElem?
  intro i
  by_cases hi : i < bits.length
  · have hfew := hsparse i
    rw [repDecode_xor_getElem? hodd he hi, if_pos (by omega)]
  · rw [List.getElem?_eq_none, List.getElem?_eq_none (by omega)]
    rw [repDecode_length, xor_repEncode_length he, Nat.mul_div_cancel_left _ (by omega)]
    omega

end

/-- No errors are few errors. -/
theorem sparseErrors_zeros (n t m : Nat) : sparseErrors n t (zeros m) := by
  intro g
  rw [slice, zeros, List.drop_replicate, List.take_replicate, popcount_zeros]
  exact Nat.zero_le t

/-- The round trip without errors (rule R90). -/
theorem repDecode_repEncode {n : Nat} (hodd : n % 2 = 1) (bits : Bits) : (repDecode (repEncode bits n) n).1 = bits := by
  have hclean := repDecode_of_sparseErrors hodd (bits := bits) (e := zeros (n * bits.length)) List.length_replicate
    (sparseErrors_zeros _ _ _)
  rwa [← repEncode_length, xorBits_zeros_right] at hclean

/-- A group of zeros is the code of one 0 (rule R90). -/
theorem repEncode_append_zeros (bits : Bits) (n : Nat) : repEncode bits n ++ zeros n = repEncode (bits ++ [false]) n := by
  rw [repEncode_append]
  simp [repEncode]

end Sys2Proof

namespace Sys2Proof.Machine

/-- The legal factors are odd, so that no vote is a tie (rule R86). -/
theorem odd_of_legalRep : ∀ n ∈ [3, 5, 7, 9], n % 2 = 1 := by decide

/-- Settles O37: what follows an encoded sequence is decoded for itself, and the vote of each group of the sequence is
right exactly when fewer than half of its bits are flipped; a group of zeros is the code of one 0. -/
theorem repetitionTolerance : Obligations.RepetitionTolerance := by
  refine ⟨fun s bits e tail n hn he hsparse htail hin => ?_, fun s bits e rest n hn he hin => ?_, fun bits n hn => ?_⟩ <;>
    have hodd := odd_of_legalRep n hn
  · have hlen := xor_repEncode_length he
    have hnone : (repDecode tail n).1 = [] :=
      List.eq_nil_of_length_eq_zero (by rw [repDecode_length, Nat.div_eq_of_lt htail])
    rw [exec_repdec_legal (.inl hin) hn, repDecode_append (by omega) hlen, repDecode_of_sparseErrors hodd he hsparse,
      hnone, List.append_nil, List.length_append, hlen, Nat.mul_add_mod, Nat.mod_eq_of_lt htail]
  · have hlen := xor_repEncode_length he
    have hpos : 0 < n := by omega
    have hcount : (repDecode (xorBits (repEncode bits n) e) n).1.length = bits.length := by
      rw [repDecode_length, hlen, Nat.mul_div_cancel_left _ hpos]
    refine ⟨(repDecode (xorBits (repEncode bits n) e) n).1 ++ (repDecode rest n).1, ?_, ?_, fun i hi hmany => ?_⟩
    · rw [exec_repdec_legal (.inl hin) hn, repDecode_append hpos hlen, List.length_append, hlen, Nat.mul_add_mod]
    · rw [List.length_append, hcount, repDecode_length]
    · rw [List.getElem?_append_left (hcount.symm ▸ hi), repDecode_xor_getElem? hodd he hi, if_neg (by omega)]
  · rw [repEncode_append_zeros, repDecode_repEncode hodd]

end Sys2Proof.Machine

/-! Rules R91 to R93, R96, R97: `LBENC` and `LBDEC` on an `IN` of their kind, over the state the claims call `cleared`, and
the coder's functions over the tables built from `P_j`. -/
namespace Sys2Proof.Machine

section
variable {s : State} {bits : Bits} (h : s.inBuf.isBits bits) {j : Nat}
include h

theorem exec_lbenc_of_holdsCatalog {c : Catalog} (hholds : s.holdsCatalog c) (hj : j ∈ [3, 4, 5]) :
    exec (.lbenc j) s = .next { s.cleared with outBuf := .bits (lbEncode j (CodeTables.build j (c.p j)) bits) } := by
  refine (withBits_of_isBits h _).trans ?_
  rw [if_pos ((legalLb_iff j).2 hj), holdsCatalog_code hholds hj]
  rfl

theorem exec_lbenc_illegal (hj : j ∉ [3, 4, 5]) :
    exec (.lbenc j) s = .next { s.cleared with err := .unsupportedFactor } := by
  refine (withBits_of_isBits h _).trans ?_
  rw [if_neg (mt (legalLb_iff j).1 hj)]
  rfl

theorem exec_lbdec_of_holdsCatalog {c : Catalog} (hholds : s.holdsCatalog c) (hj : j ∈ [3, 4, 5]) :
    exec (.lbdec j) s = .next { s.cleared with
      outBuf := .bits (lbDecode j (CodeTables.build j (c.p j)) bits).decoded,
      uncorrCnt := (lbDecode j (CodeTables.build j (c.p j)) bits).uncorrectable,
      tailDropped := bits.length % codeN j } := by
  refine (withBits_of_isBits h _).trans ?_
  rw [if_pos ((legalLb_iff j).2 hj), holdsCatalog_code hholds hj]
  rfl

theorem exec_lbdec_illegal (hj : j ∉ [3, 4, 5]) :
    exec (.lbdec j) s = .next { s.cleared with err := .unsupportedFactor } := by
  refine (withBits_of_isBits h _).trans ?_
  rw [if_neg (mt (legalLb_iff j).1 hj)]
  rfl

end

end Sys2Proof.Machine

namespace Sys2Proof

/-! ### Sums over GF(2) and slices -/

theorem xorOver_succ (m : Nat) (f : Nat → Bit) :
    xorOver (m + 1) f = Bool.xor (f 0) (xorOver m fun i => f (i + 1)) := by
  simp [xorOver, List.range_succ_eq_map, List.foldr_map]

theorem xorOver_congr {m : Nat} {f g : Nat → Bit} (h : ∀ i < m, f i = g i) : xorOver m f = xorOver m g := by
  induction m generalizing f g with
  | zero => rfl
  | succ m ih => rw [xorOver_succ, xorOver_succ, h 0 (by omega), ih fun i hi => h (i + 1) (by omega)]

/-- The product over GF(2) as the sum that the rules write out (rule R147 (a)). -/
theorem dot_eq_xorOver (u v : Bits) : dot u v = xorOver u.length fun i => u.getD i false && v.getD i false := by
  induction u generalizing v with
  | nil => rw [dot_nil_left]; rfl
  | cons a u ih =>
    rw [List.length_cons, xorOver_succ]
    cases v with
    | nil => simpa using ih []
    | cons b v => simp [ih v]

/-- A product with a column, entry by entry. -/
theorem dot_column {k : Nat} {u : Bits} (hu : u.length = k) (P : Matrix) (t : Nat) :
    dot u (column P t) = xorOver k fun i => u.getD i false && entry P i t := by
  simp only [dot_eq_xorOver, hu, column_getD]

theorem slice_getElem? (s : Bits) (a : Nat) {n i : Nat} (hi : i < n) : (slice s a (a + n))[i]? = s[a + i]? := by
  rw [slice, List.getElem?_take_of_lt (by omega), List.getElem?_drop]

theorem slice_getD (s : Bits) (a : Nat) {n i : Nat} (hi : i < n) :
    (slice s a (a + n)).getD i false = s.getD (a + i) false := by
  simp only [List.getD_eq_getElem?_getD, slice_getElem? s a hi]

/-! ### Padded sequences -/

theorem padToBlock_length_eq_mul (bits : Bits) {S : Nat} (hS : 0 < S) :
    (padToBlock bits S).1.length = S * ((bits.length + S - 1) / S) := by
  rw [padToBlock_length, add_padLen_eq hS]

theorem padToBlock_getElem?_of_lt (bits : Bits) (S : Nat) {x : Nat} (hx : x < bits.length) :
    (padToBlock bits S).1[x]? = bits[x]? := List.getElem?_append_left hx

theorem padToBlock_getElem?_of_ge (bits : Bits) (S : Nat) {x : Nat} (hge : bits.length ≤ x)
    (hlt : x < (padToBlock bits S).1.length) : (padToBlock bits S).1[x]? = some false := by
  rw [padToBlock_length] at hlt
  rw [padToBlock, List.getElem?_append_right hge, List.getElem?_replicate_of_lt (by omega)]

/-- Read with zeros past the end, a padded sequence is the sequence. -/
theorem padToBlock_getD (bits : Bits) (S x : Nat) : (padToBlock bits S).1.getD x false = bits.getD x false := by
  by_cases hx : x < bits.length
  · simp only [List.getD_eq_getElem?_getD, padToBlock_getElem?_of_lt bits S hx]
  · rw [List.getD_eq_default (l := bits) _ (by omega)]
    by_cases hlt : x < (padToBlock bits S).1.length
    · rw [List.getD_eq_getElem?_getD, padToBlock_getElem?_of_ge bits S (by omega) hlt, Option.getD_some]
    · rw [List.getD_eq_default _ _ (by omega)]

/-! ### Codewords and syndromes over the tables built from `P_j` -/

section
variable {j : Nat} {P : Matrix} (hj : j ∈ Config.lbParams) (hlen : P.length = codeK j)
include hj hlen

/-- Bit t of a syndrome (rule R93). -/
theorem build_syndrome_getElem? {r : Bits} (hr : r.length = codeN j) {t : Nat} (ht : t < j) :
    (syndrome (CodeTables.build j P).h r)[t]? =
      some (Bool.xor (dot (r.take (codeK j)) (column P t)) (r.getD (codeK j + t) false)) :=
  syndrome_getElem? hlen r (by rw [hr, codeN_eq hj]; omega) ht

variable (hrow : ∀ row ∈ P, row.length = j)
include hrow

theorem build_encRow_length (u : Bits) : (encRow (codeN j) (CodeTables.build j P).g u).length = codeN j :=
  vecMat_length (build_g_row_length hj hlen hrow) u

/-- A codeword begins with its information word (rule R92). -/
theorem build_encRow_take {u : Bits} (hu : u.length = codeK j) :
    (encRow (codeN j) (CodeTables.build j P).g u).take (codeK j) = u := by
  rw [codeN_eq hj]
  exact encRow_take hlen hrow u hu

/-- The information bits of a codeword (rule R92). -/
theorem build_encRow_info {u : Bits} (hu : u.length = codeK j) {i : Nat} (hi : i < codeK j) :
    (encRow (codeN j) (CodeTables.build j P).g u)[i]? = some (u.getD i false) := by
  rw [← List.getElem?_take_of_lt hi, build_encRow_take hj hlen hrow hu, List.getD_eq_getElem _ _ (hu ▸ hi),
    List.getElem?_eq_getElem]

/-- The parity bits of a codeword (rule R92). -/
theorem build_encRow_parity {u : Bits} (hu : u.length = codeK j) {t : Nat} (ht : t < j) :
    (encRow (codeN j) (CodeTables.build j P).g u)[codeK j + t]? =
      some (xorOver (codeK j) fun i => u.getD i false && entry P i t) := by
  rw [codeN_eq hj, ← dot_column hu]
  exact encRow_parity hlen hrow u ht

/-- A codeword has zero syndrome (rule R100 (a)). -/
theorem build_syndrome_encRow {u : Bits} (hu : u.length = codeK j) :
    syndrome (CodeTables.build j P).h (encRow (codeN j) (CodeTables.build j P).g u) = zeros j := by
  rw [codeN_eq hj]
  exact syndrome_encRow hlen hrow u hu

/-! ### Whole sequences encoded -/

/-- The block-padded words, one codeword each (rule R96). -/
theorem codewords_length (bits : Bits) :
    (codewords (codeN j) (codeK j) (CodeTables.build j P).g bits).length =
      codeN j * ((bits.length + codeK j - 1) / codeK j) := by
  have hk := codeK_pos hj
  rw [codewords, flatMap_length _ _ _ fun u _ => build_encRow_length hj hlen hrow u, groups_length,
    padToBlock_length_eq_mul bits hk, Nat.mul_div_cancel_left _ hk]

/-- Bit x of row r of the codewords is bit x of the codeword of word r (rule R96). -/
theorem codewords_getElem? (bits : Bits) {r : Nat} (hr : r < (bits.length + codeK j - 1) / codeK j) {x : Nat}
    (hx : x < codeN j) :
    (codewords (codeN j) (codeK j) (CodeTables.build j P).g bits)[codeN j * r + x]? =
      (encRow (codeN j) (CodeTables.build j P).g
        (slice (padToBlock bits (codeK j)).1 (codeK j * r) (codeK j * r + codeK j)))[x]? := by
  have hk := codeK_pos hj
  rw [codewords, flatMap_getElem? _ _ _ (fun u _ => build_encRow_length hj hlen hrow u) r x hx, groups_getElem?,
    Option.bind_some]
  rwa [padToBlock_length_eq_mul bits hk, Nat.mul_div_cancel_left _ hk]

/-- The codewords with their alignment zeros (rule R96). -/
theorem lbEncode_length (bits : Bits) :
    (lbEncode j (CodeTables.build j P) bits).length =
      8 * ((codeN j * ((bits.length + codeK j - 1) / codeK j) + 7) / 8) := by
  rw [lbEncode, padToBlock_length_eq_mul _ (by decide), codewords_length hj hlen hrow]
  rfl

/-- The rows of an encoded sequence are the codewords (rule R96). -/
theorem lbEncode_getElem?_row (bits : Bits) {r : Nat} (hr : r < (bits.length + codeK j - 1) / codeK j) {x : Nat}
    (hx : x < codeN j) :
    (lbEncode j (CodeTables.build j P) bits)[codeN j * r + x]? =
      (encRow (codeN j) (CodeTables.build j P).g
        (slice (padToBlock bits (codeK j)).1 (codeK j * r) (codeK j * r + codeK j)))[x]? := by
  have hinside : codeN j * r + x < (codewords (codeN j) (codeK j) (CodeTables.build j P).g bits).length :=
    calc codeN j * r + x < codeN j * (r + 1) := by rw [Nat.mul_succ]; omega
      _ ≤ codeN j * ((bits.length + codeK j - 1) / codeK j) := Nat.mul_le_mul_left _ hr
      _ = _ := (codewords_length hj hlen hrow bits).symm
  rw [lbEncode, padToBlock_getElem?_of_lt _ _ hinside, codewords_getElem? hj hlen hrow bits hr hx]

/-- After the codewords come the alignment zeros (rule R96). -/
theorem lbEncode_getElem?_align (bits : Bits) {x : Nat}
    (hge : codeN j * ((bits.length + codeK j - 1) / codeK j) ≤ x)
    (hlt : x < (lbEncode j (CodeTables.build j P) bits).length) :
    (lbEncode j (CodeTables.build j P) bits)[x]? = some false :=
  padToBlock_getElem?_of_ge _ 8 ((codewords_length hj hlen hrow bits).symm ▸ hge) hlt

end

/-- A word of a block-padded sequence has k bits. -/
theorem slice_padToBlock_length (bits : Bits) {k r : Nat} (hk : 0 < k) (hr : r < (bits.length + k - 1) / k) :
    (slice (padToBlock bits k).1 (k * r) (k * r + k)).length = k := by
  refine slice_length_of_le ?_
  rw [padToBlock_length_eq_mul bits hk, ← Nat.mul_succ]
  exact Nat.mul_le_mul_left k hr

theorem slice_padToBlock_getD (bits : Bits) (k r : Nat) {i : Nat} (hi : i < k) :
    (slice (padToBlock bits k).1 (k * r) (k * r + k)).getD i false = bits.getD (k * r + i) false := by
  rw [slice_getD _ _ hi, padToBlock_getD]

end Sys2Proof

namespace Sys2Proof.Machine

/-- Settles O38: `LBENC` leaves the codewords of the block-padded words and the alignment zeros; a factor that is not
legal is the abort. -/
theorem lbencEncodesRowByRow : Obligations.LbencEncodesRowByRow := by
  refine ⟨fun _ _ _ _ _ _ => rfl, ?_, fun s bits j hin hj => exec_lbenc_illegal hin hj⟩
  intro s c bits j hholds hin hj n k R hn hk hR
  obtain rfl : n = codeN j := hn
  obtain rfl : k = codeK j := hk
  subst hR
  obtain ⟨hlen, hrow, -, -⟩ := (codeValid_iff j _).1 (valid_codeValid hholds.1 hj)
  have hpos := codeK_pos hj
  have hN := codeN_eq hj
  refine ⟨_, exec_lbenc_of_holdsCatalog hin hholds hj, lbEncode_length hj hlen hrow bits, fun r hr i hi => ?_,
    fun r hr t ht => ?_, fun x hge hlt => lbEncode_getElem?_align hj hlen hrow bits hge hlt⟩
  · rw [lbEncode_getElem?_row hj hlen hrow bits hr (by omega),
      build_encRow_info hj hlen hrow (slice_padToBlock_length bits hpos hr) hi, slice_padToBlock_getD bits _ _ hi]
  · rw [Nat.add_assoc, lbEncode_getElem?_row hj hlen hrow bits hr (by omega),
      build_encRow_parity hj hlen hrow (slice_padToBlock_length bits hpos hr) ht]
    exact congrArg some (xorOver_congr fun i hi => by rw [slice_padToBlock_getD bits _ _ hi])

end Sys2Proof.Machine

/-! Rules R93 to R95, R97 to R99: the syndrome of each row of a received sequence, and what the corrector makes of it in a
valid code. -/
namespace Sys2Proof

/-- Row r of the whole n-bit rows of a sequence lies inside it. -/
theorem row_le_length {n r L : Nat} (hr : r < L / n) : n * r + n ≤ L :=
  calc n * r + n = n * (r + 1) := (Nat.mul_succ n r).symm
    _ ≤ n * (L / n) := Nat.mul_le_mul_left n hr
    _ ≤ L := Nat.mul_div_le _ _

/-! ### The syndrome of a row -/

section
variable {c : Catalog} {j : Nat} (hj : j ∈ Config.lbParams) (hlen : (c.p j).length = codeK j) {bits : Bits} {r : Nat}
  (hr : r < bits.length / codeN j)
include hj hlen hr

theorem rowSyndrome_getElem? {t : Nat} (ht : t < j) :
    (syndrome (CodeTables.build j (c.p j)).h (slice bits (codeN j * r) (codeN j * r + codeN j)))[t]? =
      some (rowSyndromeBit c j bits r t) := by
  have hN := codeN_eq hj
  have hin := row_le_length hr
  have hslice := slice_length_of_le hin
  have hword : ((slice bits (codeN j * r) (codeN j * r + codeN j)).take (codeK j)).length = codeK j := by
    rw [List.length_take, hslice]
    omega
  have hinfo : ∀ i < codeK j, ((slice bits (codeN j * r) (codeN j * r + codeN j)).take (codeK j)).getD i false =
      bits.getD (codeN j * r + i) false := by
    intro i hi
    rw [List.getD_eq_getElem?_getD, List.getElem?_take_of_lt hi, ← List.getD_eq_getElem?_getD,
      slice_getD _ _ (by omega)]
  rw [build_syndrome_getElem? hj hlen hslice ht, dot_column hword, slice_getD _ _ (by omega), rowSyndromeBit,
    ← Nat.add_assoc]
  congr 2
  exact xorOver_congr fun i hi => by rw [hinfo i hi]

/-- A row's syndrome is the sequence that its bits spell. -/
theorem rowSyndrome_eq_iff {v : Bits} (hv : v.length = j) :
    syndrome (CodeTables.build j (c.p j)).h (slice bits (codeN j * r) (codeN j * r + codeN j)) = v ↔
      ∀ t < j, rowSyndromeBit c j bits r t = v.getD t false := by
  have hbit := fun t ht => rowSyndrome_getElem? hj hlen hr (t := t) ht
  constructor
  · intro h t ht
    rw [List.getD_eq_getElem?_getD, ← h, hbit t ht, Option.getD_some]
  · intro h
    apply List.ext_getElem?
    intro t
    by_cases ht : t < j
    · rw [hbit t ht, h t ht, List.getD_eq_getElem _ _ (hv ▸ ht), List.getElem?_eq_getElem]
    · rw [List.getElem?_eq_none (by rw [syndrome_length, build_h_length]; omega), List.getElem?_eq_none (by omega)]

theorem rowSyndrome_eq_zeros_iff :
    syndrome (CodeTables.build j (c.p j)).h (slice bits (codeN j * r) (codeN j * r + codeN j)) = zeros j ↔
      ∀ t < j, rowSyndromeBit c j bits r t = false := by
  rw [rowSyndrome_eq_iff hj hlen hr List.length_replicate]
  refine forall₂_congr fun t ht => ?_
  rw [List.getD_replicate _ ht]

/-- A row's syndrome is an information column: that row of `P_j`. -/
theorem rowSyndrome_eq_info_iff {pos : Nat} (hpos : pos < codeK j) :
    syndrome (CodeTables.build j (c.p j)).h (slice bits (codeN j * r) (codeN j * r + codeN j)) =
        column (CodeTables.build j (c.p j)).h pos ↔
      ∀ t < j, rowSyndromeBit c j bits r t = entry (c.p j) pos t := by
  have hN := codeN_eq hj
  rw [rowSyndrome_eq_iff hj hlen hr (by rw [column_length, build_h_length])]
  refine forall₂_congr fun t ht => ?_
  rw [column_getD, build_h_entry hj hlen ht (by omega), if_pos hpos]

/-- A row's syndrome is a parity column: a unit vector. -/
theorem rowSyndrome_eq_parity_iff {u : Nat} (hu : u < j) :
    syndrome (CodeTables.build j (c.p j)).h (slice bits (codeN j * r) (codeN j * r + codeN j)) =
        column (CodeTables.build j (c.p j)).h (codeK j + u) ↔
      ∀ t < j, rowSyndromeBit c j bits r t = decide (t = u) := by
  have hN := codeN_eq hj
  rw [rowSyndrome_eq_iff hj hlen hr (by rw [column_length, build_h_length])]
  refine forall₂_congr fun t ht => ?_
  rw [column_getD, build_h_entry hj hlen ht (by omega), if_neg (by omega), Nat.add_sub_cancel_left]
  simp only [eq_comm (a := u)]

end

/-! ### Which rows are counted -/

/-- In a valid code every nonzero syndrome is a column of H (rule R68). -/
theorem exists_column_eq {j : Nat} {P : Matrix} (hv : codeValid j P = true) {v : Bits} (hlen : v.length = j)
    (hnonzero : isZero v = false) : ∃ col < codeN j, column (CodeTables.build j P).h col = v := by
  have hmem : ∃ b ∈ v, b = true := by simpa [isZero] using hnonzero
  obtain ⟨col, hcol, hval⟩ :=
    exists_column_of_syndrome hv (Nat.pos_of_ne_zero (val_ne_zero_of_mem hmem)) (hlen ▸ val_lt v)
  exact ⟨col, hcol, val_injective (by rw [column_length, build_h_length, hlen]) hval⟩

/-- A row is counted exactly when its syndrome is a parity column (rules R95, R99). -/
theorem correctRow_counted_iff {j : Nat} {P : Matrix} (hj : j ∈ Config.lbParams) (hv : codeValid j P = true)
    (r : Bits) :
    (correctRow (codeK j) (CodeTables.build j P) r).2 = true ↔
      ∃ u < j, syndrome (CodeTables.build j P).h r = column (CodeTables.build j P).h (codeK j + u) := by
  have hN := codeN_eq hj
  constructor
  · intro hcounted
    cases hzero : isZero (syndrome (CodeTables.build j P).h r) with
    | true => simp [correctRow_of_zero hzero] at hcounted
    | false =>
      obtain ⟨col, hcol, hsyn⟩ := exists_column_eq hv (by rw [syndrome_length, build_h_length]) hzero
      rw [correctRow_of_column hv hcol hsyn.symm, decide_eq_true_iff] at hcounted
      exact ⟨col - codeK j, by omega, by rw [Nat.add_sub_cancel' hcounted, hsyn]⟩
  · rintro ⟨u, hu, hsyn⟩
    rw [correctRow_of_column hv (by omega) hsyn]
    exact decide_eq_true (Nat.le_add_right _ _)

/-! ### Whole sequences decoded -/

theorem correctedRows_eq_map_range (j : Nat) (T : CodeTables) (bits : Bits) :
    correctedRows j T bits = (List.range (bits.length / codeN j)).map fun r =>
      correctRow (codeK j) T (slice bits (codeN j * r) (codeN j * r + codeN j)) := by
  apply List.ext_getElem?
  intro r
  by_cases hr : r < bits.length / codeN j
  · rw [correctedRows_getElem? j T bits hr, List.getElem?_map, List.getElem?_range hr, Option.map_some]
  · rw [List.getElem?_eq_none (by rw [correctedRows_length]; omega), List.getElem?_eq_none (by simpa using hr)]

/-- The count of a decoded sequence, row by row (rule R99). -/
theorem lbDecode_uncorrectable (j : Nat) (T : CodeTables) (bits : Bits) :
    (lbDecode j T bits).uncorrectable = (List.range (bits.length / codeN j)).countP fun r =>
      (correctRow (codeK j) T (slice bits (codeN j * r) (codeN j * r + codeN j))).2 := by
  rw [lbDecode, correctedRows_eq_map_range, List.countP_map]
  rfl

/-- The bits of a decoded sequence, row by row (rule R97). -/
theorem lbDecode_getElem? {j : Nat} (hj : j ∈ Config.lbParams) (T : CodeTables) {bits : Bits} {r : Nat}
    (hr : r < bits.length / codeN j) {i : Nat} (hi : i < codeK j) :
    (lbDecode j T bits).decoded[codeK j * r + i]? =
      (correctRow (codeK j) T (slice bits (codeN j * r) (codeN j * r + codeN j))).1[i]? := by
  have hrows : ∀ a ∈ correctedRows j T bits, a.1.length = codeK j := by
    intro a ha
    rw [correctedRows_eq_map_range] at ha
    obtain ⟨q, hq, rfl⟩ := List.mem_map.1 ha
    refine correctRow_length _ _ ?_
    rw [slice_length_of_le (row_le_length (List.mem_range.1 hq)), codeN_eq hj]
    omega
  rw [lbDecode, flatMap_getElem? (codeK j) _ _ hrows r i hi, correctedRows_getElem? j T bits hr, Option.bind_some]

end Sys2Proof

namespace Sys2Proof.Machine

/-- Settles O39: each row of k bits is what the corrector makes of its row, by the row's syndrome, and the rows counted
are those whose syndrome is a parity column; a factor that is not legal is the abort. -/
theorem lbdecCorrectsRowByRow : Obligations.LbdecCorrectsRowByRow := by
  refine ⟨fun _ _ _ _ _ _ => rfl, ?_, fun s bits j hin hj => exec_lbdec_illegal hin hj⟩
  intro s c bits j hholds hin hj n k R hn hk hR
  obtain rfl : n = codeN j := hn
  obtain rfl : k = codeK j := hk
  subst hR
  have hv := valid_codeValid hholds.1 hj
  obtain ⟨hlen, -, -, -⟩ := (codeValid_iff j _).1 hv
  have hN := codeN_eq hj
  refine ⟨_, _, exec_lbdec_of_holdsCatalog hin hholds hj, lbDecode_length hj _ bits, fun r hr hsyn i hi => ?_,
    fun r hr pos hpos hsyn i hi => ?_, fun r hr u hu hsyn i hi => ?_, ?_⟩
  · have hzero := (rowSyndrome_eq_zeros_iff hj hlen hr).2 hsyn
    rw [lbDecode_getElem? hj _ hr hi, correctRow_of_zero (hzero ▸ isZero_zeros j), List.getElem?_take_of_lt hi,
      slice_getElem? _ _ (by omega)]
  · have hcolumn := (rowSyndrome_eq_info_iff hj hlen hr hpos).2 hsyn
    rw [lbDecode_getElem? hj _ hr hi, correctRow_of_column hv (by omega) hcolumn, List.getElem?_take_of_lt hi,
      flipAt_getElem?, slice_getElem? _ _ (by omega)]
  · have hcolumn := (rowSyndrome_eq_parity_iff hj hlen hr hu).2 hsyn
    rw [lbDecode_getElem? hj _ hr hi, correctRow_of_column hv (by omega) hcolumn,
      flipAt_take_of_le _ (Nat.le_add_right _ u), List.getElem?_take_of_lt hi, slice_getElem? _ _ (by omega)]
  · rw [lbDecode_uncorrectable]
    refine List.countP_congr fun r hr => ?_
    have hparity := fun u (hu : u < j) => rowSyndrome_eq_parity_iff hj hlen (List.mem_range.1 hr) hu
    simp only [correctRow_counted_iff hj hv, List.any_eq_true, List.all_eq_true, List.mem_range, beq_iff_eq]
    exact exists_congr fun u => and_congr_right fun hu => hparity u hu

end Sys2Proof.Machine

/-! Rules R98, R100, R101: one received row under one, two or three wrong bits. -/
namespace Sys2Proof

theorem correctedRows_single {j : Nat} (hj : j ∈ Config.lbParams) (T : CodeTables) {r : Bits}
    (hr : r.length = codeN j) : correctedRows j T r = [correctRow (codeK j) T r] := by
  rw [correctedRows, hr, Nat.div_self (codeN_pos hj), groups, groups, List.take_of_length_le hr.le, List.map_singleton]

/-- A sequence that leaves another one as it was is zero. -/
theorem eq_zeros_of_xorBits_eq_left {s t : Bits} (hl : s.length = t.length) (h : xorBits s t = s) :
    t = zeros t.length :=
  calc t = xorBits (zeros t.length) t := (xorBits_zeros_left t).symm
    _ = xorBits (xorBits s s) t := by rw [xorBits_self, hl]
    _ = xorBits s s := by rw [xorBits_assoc, h]
    _ = zeros t.length := by rw [xorBits_self, hl]

/-- The syndrome of a row with one more wrong bit (rule R100 (b), (c)). -/
theorem syndrome_flipAt (H : Matrix) {r : Bits} {p : Nat} (hp : p < r.length) :
    syndrome H (flipAt r p) = xorBits (syndrome H r) (column H p) := by
  rw [flipAt_eq_xor r p hp, syndrome_xorBits H (by simp), syndrome_singleError H hp]

/-! ### The columns of H -/

theorem build_column_length (j : Nat) (P : Matrix) (x : Nat) : (column (CodeTables.build j P).h x).length = j := by
  rw [column_length, build_h_length]

section
variable {j : Nat} {P : Matrix} (hv : codeValid j P = true) {a b : Nat} (ha : a < codeN j)
include hv ha

/-- No column of a valid code is zero (rule R68). -/
theorem column_ne_zeros : column (CodeTables.build j P).h a ≠ zeros j := by
  intro hzero
  have hnonzero := (locate_column hv ha).1
  rw [hzero, isZero_zeros] at hnonzero
  exact Bool.noConfusion hnonzero

variable (hb : b < codeN j)
include hb

/-- Columns of a valid code differ, since the locator tells them apart (rule R68). -/
theorem column_injective (h : column (CodeTables.build j P).h a = column (CodeTables.build j P).h b) : a = b :=
  Option.some.inj ((locate_column hv ha).2.symm.trans (h ▸ (locate_column hv hb).2))

omit ha in
/-- A column is not the sum of itself and another one. -/
theorem xorBits_column_ne_left :
    xorBits (column (CodeTables.build j P).h a) (column (CodeTables.build j P).h b) ≠
      column (CodeTables.build j P).h a := by
  intro h
  have hzero := eq_zeros_of_xorBits_eq_left (by rw [build_column_length, build_column_length]) h
  rw [build_column_length] at hzero
  exact column_ne_zeros hv hb hzero

/-- The sum of two columns of a valid code is a third one (rule R101). -/
theorem exists_third_column (hne : a ≠ b) :
    ∃ d < codeN j, d ≠ a ∧ d ≠ b ∧ column (CodeTables.build j P).h d =
      xorBits (column (CodeTables.build j P).h a) (column (CodeTables.build j P).h b) := by
  have hlen : (xorBits (column (CodeTables.build j P).h a) (column (CodeTables.build j P).h b)).length = j := by
    rw [xorBits_length, build_column_length, build_column_length, Nat.min_self]
  have hnonzero : isZero (xorBits (column (CodeTables.build j P).h a) (column (CodeTables.build j P).h b)) = false := by
    rw [Bool.eq_false_iff, ne_eq, isZero_iff, hlen]
    intro hzero
    exact hne (column_injective hv ha hb (xorBits_eq_zeros (by rw [build_column_length, build_column_length])
      (hzero.trans (by rw [build_column_length]))))
  obtain ⟨d, hd, hcolumn⟩ := exists_column_eq hv hlen hnonzero
  refine ⟨d, hd, ?_, ?_, hcolumn⟩
  · rintro rfl
    exact xorBits_column_ne_left hv hb hcolumn.symm
  · rintro rfl
    exact xorBits_column_ne_left hv ha ((xorBits_comm _ _).trans hcolumn.symm)

end

/-! ### A codeword with wrong bits -/

section
variable {j : Nat} {P : Matrix} (hj : j ∈ Config.lbParams) (hlen : P.length = codeK j) (hrow : ∀ row ∈ P, row.length = j)
  {u : Bits} (hu : u.length = codeK j) {a b : Nat} (ha : a < codeN j) (hb : b < codeN j)
include hj hlen hrow hu ha hb

/-- The syndrome of two wrong bits is the sum of their columns (rule R101). -/
theorem syndrome_doubleError :
    syndrome (CodeTables.build j P).h (flipAt (flipAt (encRow (codeN j) (CodeTables.build j P).g u) a) b) =
      xorBits (column (CodeTables.build j P).h a) (column (CodeTables.build j P).h b) := by
  have hword := build_encRow_length hj hlen hrow u
  have hcolumn := xorBits_zeros_left (column (CodeTables.build j P).h a)
  rw [build_column_length] at hcolumn
  rw [syndrome_flipAt _ (by rwa [flipAt_length, hword]), syndrome_flipAt _ (by rwa [hword]),
    build_syndrome_encRow hj hlen hrow hu, hcolumn]

/-- A third wrong bit whose column is that sum leaves no syndrome (rule R101). -/
theorem syndrome_tripleError {d : Nat} (hd : d < codeN j) (hsum : column (CodeTables.build j P).h d =
      xorBits (column (CodeTables.build j P).h a) (column (CodeTables.build j P).h b)) :
    syndrome (CodeTables.build j P).h
      (flipAt (flipAt (flipAt (encRow (codeN j) (CodeTables.build j P).g u) a) b) d) = zeros j := by
  have hword := build_encRow_length hj hlen hrow u
  rw [syndrome_flipAt _ (by rwa [flipAt_length, flipAt_length, hword]), syndrome_doubleError hj hlen hrow hu ha hb,
    ← hsum, xorBits_self, build_column_length]

end

end Sys2Proof

namespace Sys2Proof.Machine

/-- `LBDEC` of one row, over the state the claims call `cleared` (rule R97). -/
theorem exec_lbdec_row {s : State} {c : Catalog} {j : Nat} (hholds : s.holdsCatalog c) (hj : j ∈ [3, 4, 5]) {r : Bits}
    (hin : s.inBuf = .bits r) (hr : r.length = codeN j) {out : Bits} {counted : Bool}
    (hrow : correctRow (codeK j) (CodeTables.build j (c.p j)) r = (out, counted)) :
    exec (.lbdec j) s = .next { s.cleared with outBuf := .bits out, uncorrCnt := counted.toNat } := by
  rw [exec_lbdec_of_holdsCatalog (.inl hin) hholds hj, lbDecode, correctedRows_single hj _ hr, hrow, hr, Nat.mod_self,
    List.flatMap_singleton, List.countP_singleton]
  cases counted <;> rfl

/-- Settles O40: the lemmas on the syndrome for any catalog; for a valid one the corrector undoes the single error and
counts it by its position. -/
theorem singleErrorsAreCorrected : Obligations.SingleErrorsAreCorrected := by
  refine ⟨fun c hshaped j hj T hT n k hn hk => ?_, fun s c j u p hholds hj n k hn hk hu hp hin => ?_⟩ <;>
    obtain rfl : n = codeN j := hn <;>
    obtain rfl : k = codeK j := hk
  · obtain ⟨hlen, hrow⟩ := hshaped j hj
    obtain rfl : T = CodeTables.build j (c.p j) := hT.trans (ofCatalog_code c hj)
    exact ⟨fun u hu => build_syndrome_encRow hj hlen hrow hu,
      fun r e hr he => syndrome_xorBits _ (hr.trans he.symm), fun p hp => syndrome_singleError _ hp⟩
  · have hv := valid_codeValid hholds.1 hj
    obtain ⟨hlen, hrow, -, -⟩ := (codeValid_iff j _).1 hv
    rw [holdsCatalog_code hholds hj] at hin
    have hcount : (decide (codeK j ≤ p)).toNat = if p < codeK j then 0 else 1 := by
      by_cases hinfo : p < codeK j
      · rw [if_pos hinfo, decide_eq_false (by omega), Bool.toNat_false]
      · rw [if_neg hinfo, decide_eq_true (by omega), Bool.toNat_true]
    rw [exec_lbdec_row hholds hj hin (by rw [flipAt_length, build_encRow_length hj hlen hrow])
      (correctRow_singleError hj hv u hu hp), hcount]

/-- Settles O41: two errors leave the syndrome of a third column, at which the corrector acts as for a single error; with
an error there too no syndrome is left. -/
theorem doubleErrorsAreMiscorrected : Obligations.DoubleErrorsAreMiscorrected := by
  intro s c j u a b hholds hj n k hn hk hu ha hb hne r hr
  obtain rfl : n = codeN j := hn
  obtain rfl : k = codeK j := hk
  rw [holdsCatalog_code hholds hj] at hr ⊢
  have hv := valid_codeValid hholds.1 hj
  obtain ⟨hlen, hrow, -, -⟩ := (codeValid_iff j _).1 hv
  obtain ⟨d, hd, hda, hdb, hsum⟩ := exists_third_column hv ha hb hne
  have hlength : r.length = codeN j := by
    rw [hr, flipAt_length, flipAt_length, build_encRow_length hj hlen hrow]
  have hdouble : syndrome (CodeTables.build j (c.p j)).h r = column (CodeTables.build j (c.p j)).h d := by
    rw [hr, hsum, syndrome_doubleError hj hlen hrow hu ha hb]
  have htriple : syndrome (CodeTables.build j (c.p j)).h (flipAt r d) = zeros j := by
    rw [hr, syndrome_tripleError hj hlen hrow hu ha hb hd hsum]
  have hcorrect := correctRow_of_column hv hd hdouble
  refine ⟨d, hd, hda, hdb, hsum, fun hin hinfo => ?_, fun hin hparity => ?_, fun hin => ?_⟩
  · rw [decide_eq_false (by omega)] at hcorrect
    exact exec_lbdec_row hholds hj hin hlength hcorrect
  · rw [decide_eq_true hparity, flipAt_take_of_le r hparity] at hcorrect
    exact exec_lbdec_row hholds hj hin hlength hcorrect
  · exact exec_lbdec_row hholds hj hin (by rw [flipAt_length, hlength])
      (correctRow_of_zero (htriple ▸ isZero_zeros j))

end Sys2Proof.Machine

/-! Rule R102: an encoded sequence decoded without errors, its alignment zeros among the rows. -/
namespace Sys2Proof

/-- After whole rows, what follows is decoded for itself (rules R97, R98). -/
theorem lbDecode_append {j : Nat} (hj : j ∈ Config.lbParams) (T : CodeTables) {coded : Bits} {R : Nat}
    (hlen : coded.length = codeN j * R) (rest : Bits) :
    lbDecode j T (coded ++ rest) = ⟨(lbDecode j T coded).decoded ++ (lbDecode j T rest).decoded,
      (lbDecode j T coded).uncorrectable + (lbDecode j T rest).uncorrectable, rest.length % codeN j⟩ := by
  have hn := codeN_pos hj
  have hdrop : (coded ++ rest).drop (codeN j * R) = rest := by rw [← hlen, List.drop_left]
  have hrows : correctedRows j T (coded ++ rest) = correctedRows j T coded ++ correctedRows j T rest := by
    simp only [correctedRows, List.length_append, hlen, Nat.mul_add_div hn, Nat.mul_div_cancel_left R hn, groups_add,
      hdrop, groups_append _ R coded rest hlen.ge, List.map_append]
  simp only [lbDecode, hrows, List.flatMap_append, List.countP_append, List.length_append, hlen, Nat.mul_add_mod]

/-- Rows of zeros are not counted. -/
theorem lbDecode_zeros_uncorrectable (j : Nat) (T : CodeTables) (p : Nat) :
    (lbDecode j T (zeros p)).uncorrectable = 0 := by
  rw [lbDecode_uncorrectable, List.countP_eq_zero]
  intro r _
  have hzero : ∀ m, isZero (syndrome T.h (zeros m)) = true := fun m => by simp [isZero, syndrome, dot_zeros_left]
  rw [slice, zeros, List.drop_replicate, List.take_replicate, correctRow_of_zero (hzero _)]
  exact Bool.false_ne_true

section
variable {j : Nat} {P : Matrix} (hj : j ∈ Config.lbParams) (hlen : P.length = codeK j) (hrow : ∀ row ∈ P, row.length = j)
include hj hlen hrow

/-- A codeword gives its information word and is not counted. -/
theorem correctRow_encRow {u : Bits} (hu : u.length = codeK j) :
    correctRow (codeK j) (CodeTables.build j P) (encRow (codeN j) (CodeTables.build j P).g u) = (u, false) := by
  rw [correctRow_of_zero (build_syndrome_encRow hj hlen hrow hu ▸ isZero_zeros j), build_encRow_take hj hlen hrow hu]

/-- Codewords give their information words, with no count and no tail (rule R102). -/
theorem lbDecode_flatMap_encRow {us : List Bits} (hus : ∀ u ∈ us, u.length = codeK j) :
    lbDecode j (CodeTables.build j P) (us.flatMap (encRow (codeN j) (CodeTables.build j P).g)) =
      ⟨us.flatten, 0, 0⟩ := by
  have hword : ∀ u ∈ us, (encRow (codeN j) (CodeTables.build j P).g u).length = codeN j :=
    fun u _ => build_encRow_length hj hlen hrow u
  have hrows : correctedRows j (CodeTables.build j P) (us.flatMap (encRow (codeN j) (CodeTables.build j P).g)) =
      us.map fun u => (u, false) := by
    rw [correctedRows, flatMap_length _ _ _ hword, Nat.mul_div_cancel_left _ (codeN_pos hj),
      groups_flatMap _ _ _ hword, List.map_map]
    exact List.map_congr_left fun u hu => correctRow_encRow hj hlen hrow (hus u hu)
  rw [lbDecode, hrows, flatMap_length _ _ _ hword, Nat.mul_mod_right]
  simp [List.flatMap_map, Function.comp_def]

/-- The codewords of a sequence give the sequence with its block padding (rule R102). -/
theorem lbDecode_codewords (bits : Bits) :
    lbDecode j (CodeTables.build j P) (codewords (codeN j) (codeK j) (CodeTables.build j P).g bits) =
      ⟨(padToBlock bits (codeK j)).1, 0, 0⟩ := by
  have hcover : codeK j * ((padToBlock bits (codeK j)).1.length / codeK j) = (padToBlock bits (codeK j)).1.length := by
    rw [padToBlock_length_eq_mul bits (codeK_pos hj), Nat.mul_div_cancel_left _ (codeK_pos hj)]
  rw [codewords, lbDecode_flatMap_encRow hj hlen hrow fun u hu => mem_groups_length hcover.le hu,
    groups_flatten _ _ _ hcover.le, hcover, List.take_length]

/-- What decoding makes of an encoded sequence: the sequence with its block padding, whatever the p alignment zeros give,
and no count (rule R102). -/
theorem lbDecode_lbEncode (bits : Bits) {p : Nat}
    (hp : p = padLen 8 (codeN j * ((bits.length + codeK j - 1) / codeK j))) :
    lbDecode j (CodeTables.build j P) (lbEncode j (CodeTables.build j P) bits) =
      ⟨(padToBlock bits (codeK j)).1 ++ (lbDecode j (CodeTables.build j P) (zeros p)).decoded, 0, p % codeN j⟩ := by
  have hcodewords := codewords_length hj hlen hrow bits
  rw [lbEncode, padToBlock, hcodewords, ← hp, lbDecode_append hj _ hcodewords, lbDecode_codewords hj hlen hrow,
    lbDecode_zeros_uncorrectable, List.length_replicate]

end

/-- Of the alignment zeros after R rows only the seven of j = 3 and R mod 8 = 7 make a row (rule R102). -/
theorem padLen_codeword_rows {j : Nat} (hj : j ∈ Config.lbParams) (R : Nat) :
    padLen 8 (codeN j * R) / codeN j = if j = 3 ∧ R % 8 = 7 then 1 else 0 := by
  have hlt : padLen 8 (codeN j * R) < 8 := padLen_lt (by decide) _
  rcases mem_lbParams.1 hj with rfl | rfl | rfl
  · have hpad : padLen 8 (7 * R) = R % 8 := by rw [padLen]; omega
    rw [show codeN 3 = 7 from rfl, hpad]
    split <;> omega
  · rw [if_neg (by omega), Nat.div_eq_of_lt (hlt.trans (by decide))]
  · rw [if_neg (by omega), Nat.div_eq_of_lt (hlt.trans (by decide))]

theorem one_lt_codeN : ∀ j ∈ Config.lbParams, 1 < codeN j := by decide

/-- One codeword takes one alignment zero (rule R102). -/
theorem padLen_one_codeword : ∀ j ∈ Config.lbParams, padLen 8 (codeN j) = 1 := by decide

end Sys2Proof

namespace Sys2Proof.Machine

/-- Settles O42: the codewords give the sequence with its block padding, and the alignment zeros are a row only for
j = 3 and R mod 8 = 7, which adds zeros past the end of the sequence and no count. -/
theorem linearBlockRoundTrip : Obligations.LinearBlockRoundTrip := by
  intro s c j bits hholds hj n k R hn hk hR hin
  obtain rfl : n = codeN j := hn
  obtain rfl : k = codeK j := hk
  subst hR
  obtain ⟨hlen, hrow, -, -⟩ := (codeValid_iff j _).1 (valid_codeValid hholds.1 hj)
  have hkpos := codeK_pos hj
  rw [holdsCatalog_code hholds hj] at hin
  generalize hp : padLen 8 (codeN j * ((bits.length + codeK j - 1) / codeK j)) = p
  have hdecode := lbDecode_lbEncode hj hlen hrow bits hp.symm
  have hextra := lbDecode_length hj (CodeTables.build j (c.p j)) (zeros p)
  have hexec := exec_lbdec_of_holdsCatalog (.inl hin) hholds hj
  rw [← lbDecode_tail j (CodeTables.build j (c.p j)), hdecode] at hexec
  refine ⟨_, _, hexec, ?_, ?_, fun hblock => ?_⟩
  · rw [padToBlock, List.append_assoc, truncate_append_length]
  · rw [List.length_append, hextra, padToBlock_length_eq_mul bits hkpos, List.length_replicate, ← hp,
      padLen_codeword_rows hj, ← Nat.mul_add]
    split <;> rfl
  · have hone : p = 1 := by
      rw [← hp, hblock, ← add_padLen_div hkpos, padLen_of_mod_zero (Nat.mod_self _), Nat.add_zero, Nat.div_self hkpos,
        Nat.mul_one, padLen_one_codeword j hj]
    have hn1 := one_lt_codeN j hj
    have hnone : (lbDecode j (CodeTables.build j (c.p j)) (zeros p)).decoded = [] :=
      List.eq_nil_of_length_eq_zero (by rw [hextra, List.length_replicate, hone, Nat.div_eq_of_lt hn1, Nat.mul_zero])
    rw [hnone, List.append_nil, padToBlock_of_mod_zero (by rw [hblock, Nat.mod_self]), hone, Nat.mod_eq_of_lt hn1]
    exact ⟨rfl, rfl⟩

end Sys2Proof.Machine

/-! Rules R55, R106: the frame that `ENCODE` builds has whole bytes, so its bits are those of the header and the payload. -/
namespace Sys2Proof

/-- A sequence of whole bytes has no alignment zeros (rule R78). -/
theorem bytesToBits_bitsToBytes_of_mod_zero {bits : Bits} (h : bits.length % 8 = 0) :
    bytesToBits (bitsToBytes bits) = bits := by
  rw [bytesToBits_bitsToBytes, padLen_of_mod_zero h]
  exact List.append_nil bits

/-- The alignment zeros make the linear-block coder's output whole bytes, whatever the tables (rule R96). -/
theorem lbEncode_length_mod (j : Nat) (T : CodeTables) (bits : Bits) : (lbEncode j T bits).length % 8 = 0 := by
  rw [lbEncode, padToBlock_length, add_padLen_mod (by decide)]

end Sys2Proof

namespace Sys2Proof.Machine

theorem encodePayload_repetition (rom : Rom) (f : Nat) (bits : Bits) : encodePayload rom 0 f bits = repEncode bits f := rfl

theorem encodePayload_linearBlock (rom : Rom) (f : Nat) (bits : Bits) :
    encodePayload rom 1 f bits = lbEncode f (rom.code f) bits := rfl

/-- The payload of whole bytes is whole bytes: n copies of each bit, or the aligned codewords (rule R55). -/
theorem encodePayload_length_mod (rom : Rom) (m f : Nat) {bits : Bits} (h : bits.length % 8 = 0) :
    (encodePayload rom m f bits).length % 8 = 0 := by
  rw [encodePayload]
  split
  · rw [repEncode_length, Nat.mul_mod, h, Nat.mul_zero, Nat.zero_mod]
  · exact lbEncode_length_mod f _ bits

/-- The bits of the frame: the header of the input's bit count, then the payload (rule R106). -/
theorem bytesToBits_buildFrame (rom : Rom) (m f : Nat) (buf : Bytes) :
    bytesToBits (buildFrame rom m f buf) =
      encodeHeader m f (8 * buf.length) ++ encodePayload rom m f (bytesToBits buf) := by
  have hbuf : (bytesToBits buf).length % 8 = 0 := by rw [bytesToBits_length, Nat.mul_mod_right]
  have hpayload := encodePayload_length_mod rom m f hbuf
  rw [buildFrame, bytesToBits_bitsToBytes_of_mod_zero (by rw [List.length_append, encodeHeader_length]; omega),
    bytesToBits_length]

end Sys2Proof.Machine

/-! Rules R104 to R106: the four ends of `ENCODE`, over the state the claims call `cleared`. -/
namespace Sys2Proof.Machine

section
variable {s : State} {buf : Bytes} (h : s.inBuf.isBytes buf) {m f : Nat}
include h

theorem exec_encode_legal (hpair : m = 0 ∧ f ∈ [3, 5, 7, 9] ∨ m = 1 ∧ f ∈ [3, 4, 5]) (hlen : buf.length < 2 ^ 29) :
    exec (.encode m f) s = .next { s.cleared with outBuf := .bytes (buildFrame s.rom m f buf) } := by
  have hmethod : m = 0 ∨ m = 1 := hpair.imp And.left And.left
  refine (execEncode_of_isBytes h m f).trans ?_
  rw [(legalMethod_iff m).2 hmethod, (factorSuits_iff hmethod).2 hpair, if_neg (by decide), if_neg (by decide),
    if_neg (by omega)]
  rfl

theorem exec_encode_illegalMethod (hm : 2 ≤ m) :
    exec (.encode m f) s = .next { s.cleared with err := .unsupportedParameter } := by
  have hillegal : legalMethod m = false := Bool.eq_false_iff.2 fun hlegal => by
    rcases (legalMethod_iff m).1 hlegal with rfl | rfl <;> omega
  refine (execEncode_of_isBytes h m f).trans ?_
  rw [hillegal]
  rfl

theorem exec_encode_illegalFactor (hpair : m = 0 ∧ f ∉ [3, 5, 7, 9] ∨ m = 1 ∧ f ∉ [3, 4, 5]) :
    exec (.encode m f) s = .next { s.cleared with err := .unsupportedFactor } := by
  have hmethod : m = 0 ∨ m = 1 := hpair.imp And.left And.left
  have hunsuited : factorSuits m f = false := Bool.eq_false_iff.2 fun hsuits => by
    obtain ⟨rfl, hf⟩ | ⟨rfl, hf⟩ := hpair
    · exact hf ((legalRep_iff f).1 hsuits)
    · exact hf ((legalLb_iff f).1 hsuits)
  refine (execEncode_of_isBytes h m f).trans ?_
  rw [(legalMethod_iff m).2 hmethod, hunsuited]
  rfl

theorem exec_encode_overflow (hpair : m = 0 ∧ f ∈ [3, 5, 7, 9] ∨ m = 1 ∧ f ∈ [3, 4, 5]) (hlen : 2 ^ 29 ≤ buf.length) :
    exec (.encode m f) s = .next { s.cleared with err := .lengthOverflow } :=
  have hmethod : m = 0 ∨ m = 1 := hpair.imp And.left And.left
  execEncode_overflow h ((legalMethod_iff m).2 hmethod) ((factorSuits_iff hmethod).2 hpair) hlen

end

/-- Settles O43: for a legal pair `ENCODE` leaves the frame, whose bits `bytesToBits_buildFrame` gives; the other ends are
its three aborts, in the order of its checks. -/
theorem encodeBuildsTheFrame : Obligations.EncodeBuildsTheFrame := by
  refine ⟨fun _ _ _ _ _ _ => rfl, fun s buf m f h => ⟨?_, ?_, exec_encode_illegalMethod h, exec_encode_illegalFactor h,
    exec_encode_overflow h⟩⟩
  · rintro rfl hf hlen
    refine ⟨buildFrame s.rom 0 f buf, exec_encode_legal h (.inl ⟨rfl, hf⟩) hlen, ?_⟩
    rw [bytesToBits_buildFrame, encodePayload_repetition]
  · rintro rfl hf hlen -
    refine ⟨buildFrame s.rom 1 f buf, exec_encode_legal h (.inr ⟨rfl, hf⟩) hlen, ?_⟩
    rw [bytesToBits_buildFrame, encodePayload_linearBlock]

end Sys2Proof.Machine

/-! Rules R108 to R111: the ends of `DECODE`, by the header of the frame's first 144 bits, over the state the claims call
`cleared`. For a method given as a number the dispatch on it computes, and what is left is the check of the factor. -/
namespace Sys2Proof.Machine

/-- The end of a Repetition frame (rules R88, R108, R110, R111). -/
theorem decodeRepFrame_eq_cleared (f L : Nat) (s : State) (frame : Bytes) :
    decodeRepFrame f L s frame = { s.cleared with
      hdrMethod := BitVec.ofNat 8 0, hdrFactor := BitVec.ofNat 8 f, hdrSrcLen := BitVec.ofNat 32 L, phase := .done,
      tailDropped := ((bytesToBits frame).drop 144).length % f,
      outBuf := .bytes (bitsToBytes ((repDecode ((bytesToBits frame).drop 144) f).1.take L)) } := by
  rw [← truncate_eq_take]
  rfl

/-- The end of a LinearBlock frame (rules R97, R108, R110, R111). -/
theorem decodeLbFrame_eq_cleared (f L : Nat) (s : State) (frame : Bytes) :
    decodeLbFrame f L s frame = { s.cleared with
      hdrMethod := BitVec.ofNat 8 1, hdrFactor := BitVec.ofNat 8 f, hdrSrcLen := BitVec.ofNat 32 L, phase := .done,
      uncorrCnt := (lbDecode f (s.rom.code f) ((bytesToBits frame).drop 144)).uncorrectable,
      tailDropped := ((bytesToBits frame).drop 144).length % (2 ^ f - 1),
      outBuf := .bytes
        (bitsToBytes ((lbDecode f (s.rom.code f) ((bytesToBits frame).drop 144)).decoded.take L)) } := by
  rw [← truncate_eq_take]
  rfl

section
variable {f : Nat} (L : Nat) (s : State) (frame : Bytes)

theorem dispatchHeader_repetition (hf : f ∈ [3, 5, 7, 9]) :
    dispatchHeader ⟨0, f, L⟩ s frame = decodeRepFrame f L s frame := if_pos ((legalRep_iff f).2 hf)

theorem dispatchHeader_linearBlock (hf : f ∈ [3, 4, 5]) :
    dispatchHeader ⟨1, f, L⟩ s frame = decodeLbFrame f L s frame := if_pos ((legalLb_iff f).2 hf)

/-- A factor that does not suit the method is the abort in the `PAYLOAD` phase (rule R109). -/
theorem dispatchHeader_illegalFactor {m : Nat} (hpair : m = 0 ∧ f ∉ [3, 5, 7, 9] ∨ m = 1 ∧ f ∉ [3, 4, 5]) :
    dispatchHeader ⟨m, f, L⟩ s frame = (s.headerSeen m f L).raise .unsupportedFactor := by
  obtain ⟨rfl, hf⟩ | ⟨rfl, hf⟩ := hpair
  · exact if_neg (mt (legalRep_iff f).1 hf)
  · exact if_neg (mt (legalLb_iff f).1 hf)

/-- A method that is none is the abort in the `PAYLOAD` phase, whatever the factor (rule R109). -/
theorem dispatchHeader_illegalMethod {m : Nat} (hm : 2 ≤ m) :
    dispatchHeader ⟨m, f, L⟩ s frame = (s.headerSeen m f L).raise .unsupportedParameter := by
  have hrepetition : m ≠ Config.tagRepetition := by rw [Config.tagRepetition]; omega
  have hlinearBlock : m ≠ Config.tagLinearBlock := by rw [Config.tagLinearBlock]; omega
  rw [dispatchHeader, if_neg hrepetition, if_neg hlinearBlock]

end

section
variable {s : State} {frame : Bytes} (h : s.inBuf.isBytes frame)
include h

/-- A frame too short for a header (rule R108). -/
theorem exec_decode_of_none (hdec : decodeHeader (bytesToBits frame) = none) :
    exec .decode s = .next { s.cleared with err := .headerCorrupt } := by
  refine (withBytes_of_isBytes h _).trans ?_
  rw [hdec]
  rfl

/-- A recovered header is dispatched on (rule R109). -/
theorem exec_decode_of_some {fields : HeaderFields} (hdec : decodeHeader (bytesToBits frame) = some fields) :
    exec .decode s = .next (dispatchHeader fields s frame) := by
  refine (withBytes_of_isBytes h _).trans ?_
  rw [hdec]

end

/-- Settles O45: a frame below 18 bytes has no header; every other one is dispatched on its header, whose method and factor
select the payload decoder or one of the two aborts. -/
theorem decodeByTheHeader : Obligations.DecodeByTheHeader := by
  refine ⟨fun _ _ _ _ _ _ => rfl, fun s frame h => ⟨fun hshort => ?_, ?_⟩⟩
  · exact exec_decode_of_none h (decodeHeader_short (by rw [bytesToBits_length]; omega))
  · rintro - F pl m f L rfl rfl hdec after rfl
    have hexec := exec_decode_of_some h hdec
    refine ⟨?_, ?_, fun hpair => ?_, fun hm => ?_⟩
    · rintro rfl hf
      rw [hexec, dispatchHeader_repetition L s frame hf, decodeRepFrame_eq_cleared]
    · rintro rfl hf
      rw [hexec, dispatchHeader_linearBlock L s frame hf, decodeLbFrame_eq_cleared]
    · rw [hexec, dispatchHeader_illegalFactor L s frame hpair]
      rfl
    · rw [hexec, dispatchHeader_illegalMethod L s frame hm]
      rfl

end Sys2Proof.Machine

/-! Rule R130: what each operation reports in `ERR` and the two counters, a row of the table at a time. The table holds
whatever the ROM does, so the normal ends of `LBENC` and `LBDEC` come first without a premise on the catalog. -/
namespace Sys2Proof.Machine

section
variable {s : State} {bits : Bits} (h : s.inBuf.isBits bits) {j : Nat} (hj : j ∈ [3, 4, 5])
include h hj

theorem exec_lbenc_legal :
    exec (.lbenc j) s = .next { s.cleared with outBuf := .bits (lbEncode j (s.rom.code j) bits) } := by
  refine (withBits_of_isBits h _).trans ?_
  rw [if_pos ((legalLb_iff j).2 hj)]
  rfl

theorem exec_lbdec_legal :
    exec (.lbdec j) s = .next { s.cleared with
      outBuf := .bits (lbDecode j (s.rom.code j) bits).decoded,
      uncorrCnt := (lbDecode j (s.rom.code j) bits).uncorrectable,
      tailDropped := bits.length % (2 ^ j - 1) } := by
  refine (withBits_of_isBits h _).trans ?_
  rw [if_pos ((legalLb_iff j).2 hj)]
  rfl

end

/-- What an operation reports in `ERR`, `UNCORR_CNT` and `TAIL_DROPPED`. -/
abbrev State.Reports (t : State) (k : ErrorKind) (u n : Nat) : Prop :=
  t.err = k ∧ t.uncorrCnt = u ∧ t.tailDropped = n

/-- An operation has one next state, so what it is known to leave is what it reports. -/
theorem reports_of_exec {r : Result} {a t : State} {k : ErrorKind} {u n : Nat} (ht : r = .next t) (ha : r = .next a)
    (hreports : a.Reports k u n) : t.Reports k u n := by
  obtain rfl : t = a := Host.Outcome.next.inj (ht.symm.trans ha)
  exact hreports

section
variable {r : Result} {p : Prop} [Decidable p] {a b t : State} {k : ErrorKind} (ht : r = .next t)
  (hlegal : p → r = .next a) (hillegal : ¬ p → r = .next b) (hb : b.Reports k 0 0)
include ht hlegal hillegal hb

/-- An operation with one check of an operand, which counts when the operand is legal. -/
theorem reports_of_check {u n : Nat} (ha : a.Reports .noError u n) :
    t.Reports (if p then .noError else k) (if p then u else 0) (if p then n else 0) := by
  by_cases hp : p
  · simpa only [if_pos hp] using reports_of_exec ht (hlegal hp) ha
  · simpa only [if_neg hp] using reports_of_exec ht (hillegal hp) hb

/-- An operation with one check of an operand, whose counting cells are blank. -/
theorem reports_of_check_blank (ha : a.Reports .noError 0 0) : t.Reports (if p then .noError else k) 0 0 := by
  simpa only [ite_self] using reports_of_check ht hlegal hillegal hb ha

end

/-! ### The rows of the operations on a byte buffer -/

/-- The kind that a method and a factor raise, the method first; `otherwise` for a legal pair (rules R106, R109, R124). -/
def pairError (m f : Nat) (otherwise : ErrorKind) : ErrorKind :=
  if 2 ≤ m then .unsupportedParameter
  else if m = 0 ∧ f ∉ [3, 5, 7, 9] ∨ m = 1 ∧ f ∉ [3, 4, 5] then .unsupportedFactor
  else otherwise

section
variable {m f : Nat} {k : ErrorKind}

theorem pairError_illegalMethod (hm : 2 ≤ m) : pairError m f k = .unsupportedParameter := if_pos hm

theorem pairError_illegalFactor (hpair : m = 0 ∧ f ∉ [3, 5, 7, 9] ∨ m = 1 ∧ f ∉ [3, 4, 5]) :
    pairError m f k = .unsupportedFactor := by
  rw [pairError, if_neg (by omega), if_pos hpair]

theorem pairError_legal (hpair : m = 0 ∧ f ∈ [3, 5, 7, 9] ∨ m = 1 ∧ f ∈ [3, 4, 5]) : pairError m f k = k := by
  obtain ⟨rfl, hf⟩ | ⟨rfl, hf⟩ := hpair
  · simp [pairError, hf]
  · simp [pairError, hf]

/-- A method and a factor are a legal pair or one of the two errors. -/
theorem pair_cases (m f : Nat) :
    2 ≤ m ∨ (m = 0 ∧ f ∉ [3, 5, 7, 9] ∨ m = 1 ∧ f ∉ [3, 4, 5]) ∨
      (m = 0 ∧ f ∈ [3, 5, 7, 9] ∨ m = 1 ∧ f ∈ [3, 4, 5]) := by
  have hm : 2 ≤ m ∨ m = 0 ∨ m = 1 := by omega
  tauto

end

section
variable {s t : State} {buf : Bytes} (h : s.inBuf.isBytes buf)
include h

theorem encode_reports {m f : Nat} (hexec : exec (.encode m f) s = .next t) :
    t.Reports (pairError m f (if 2 ^ 29 ≤ buf.length then .lengthOverflow else .noError)) 0 0 := by
  obtain hm | hpair | hpair := pair_cases m f
  · rw [pairError_illegalMethod hm]
    exact reports_of_exec hexec (exec_encode_illegalMethod h hm) ⟨rfl, rfl, rfl⟩
  · rw [pairError_illegalFactor hpair]
    exact reports_of_exec hexec (exec_encode_illegalFactor h hpair) ⟨rfl, rfl, rfl⟩
  · rw [pairError_legal hpair]
    by_cases hlen : 2 ^ 29 ≤ buf.length
    · rw [if_pos hlen]
      exact reports_of_exec hexec (exec_encode_overflow h hpair hlen) ⟨rfl, rfl, rfl⟩
    · rw [if_neg hlen]
      exact reports_of_exec hexec (exec_encode_legal h hpair (Nat.lt_of_not_le hlen)) ⟨rfl, rfl, rfl⟩

end

/-- The row of `DECODE`: the kind k it raised, and for a recovered method m what it counts when it raised none, u rows of a
LinearBlock payload and a tail of either payload. -/
def State.DecodeRow (t : State) (k : ErrorKind) (m u repTail lbTail : Nat) : Prop :=
  t.err = k ∧
  (t.err ≠ .noError ∨ m = 0 → t.uncorrCnt = 0) ∧
  (t.err = .noError → m = 1 → t.uncorrCnt = u) ∧
  (t.err ≠ .noError → t.tailDropped = 0) ∧
  (t.err = .noError → m = 0 → t.tailDropped = repTail) ∧
  (t.err = .noError → m = 1 → t.tailDropped = lbTail)

section
variable {t : State} {u repTail lbTail : Nat}

theorem decodeRow_of_abort {k : ErrorKind} (m : Nat) (ht : t.Reports k 0 0) (hk : k ≠ .noError) :
    t.DecodeRow k m u repTail lbTail := by
  obtain ⟨herr, hcnt, htail⟩ := ht
  have hne : t.err ≠ .noError := herr ▸ hk
  exact ⟨herr, fun _ => hcnt, fun e => absurd e hne, fun _ => htail, fun e => absurd e hne, fun e => absurd e hne⟩

theorem decodeRow_of_repetition (ht : t.Reports .noError 0 repTail) : t.DecodeRow .noError 0 u repTail lbTail := by
  obtain ⟨herr, hcnt, htail⟩ := ht
  exact ⟨herr, fun _ => hcnt, fun _ => nofun, fun e => absurd herr e, fun _ _ => htail, fun _ => nofun⟩

theorem decodeRow_of_linearBlock (ht : t.Reports .noError u lbTail) : t.DecodeRow .noError 1 u repTail lbTail := by
  obtain ⟨herr, hcnt, htail⟩ := ht
  exact ⟨herr, fun e => e.elim (absurd herr) nofun, fun _ _ => hcnt, fun e => absurd herr e, fun _ => nofun,
    fun _ _ => htail⟩

end

/-- The payload is what follows the eighteen bytes of the header (rule R110). -/
theorem payload_length (buf : Bytes) : ((bytesToBits buf).drop 144).length = 8 * buf.length - 144 := by
  rw [List.length_drop, bytesToBits_length]

/-- A recovered header is dispatched on, and the row is that of the frame's method and factor (rule R109). -/
theorem dispatchHeader_row (fields : HeaderFields) (s : State) (buf : Bytes) :
    (dispatchHeader fields s buf).DecodeRow (pairError fields.method fields.factor .noError) fields.method
      (lbDecode fields.factor (s.rom.code fields.factor) ((bytesToBits buf).drop 144)).uncorrectable
      ((8 * buf.length - 144) % fields.factor) ((8 * buf.length - 144) % (2 ^ fields.factor - 1)) := by
  obtain ⟨m, f, L⟩ := fields
  obtain hm | hpair | ⟨rfl, hf⟩ | ⟨rfl, hf⟩ := pair_cases m f
  · rw [pairError_illegalMethod hm, dispatchHeader_illegalMethod L s buf hm]
    exact decodeRow_of_abort m ⟨rfl, rfl, rfl⟩ nofun
  · rw [pairError_illegalFactor hpair, dispatchHeader_illegalFactor L s buf hpair]
    exact decodeRow_of_abort m ⟨rfl, rfl, rfl⟩ nofun
  · rw [pairError_legal (.inl ⟨rfl, hf⟩), dispatchHeader_repetition L s buf hf, decodeRepFrame_eq_cleared,
      payload_length]
    exact decodeRow_of_repetition ⟨rfl, rfl, rfl⟩
  · rw [pairError_legal (.inr ⟨rfl, hf⟩), dispatchHeader_linearBlock L s buf hf, decodeLbFrame_eq_cleared,
      payload_length]
    exact decodeRow_of_linearBlock ⟨rfl, rfl, rfl⟩

theorem decode_row {s t : State} {buf : Bytes} (h : s.inBuf.isBytes buf) (hexec : exec .decode s = .next t)
    {fields : HeaderFields} (hfields : fields = parseRaw (recoverRaw (bytesToBits buf))) :
    t.DecodeRow
      (if buf.length < 18 then .headerCorrupt else pairError fields.method fields.factor .noError) fields.method
      (lbDecode fields.factor (s.rom.code fields.factor) ((bytesToBits buf).drop 144)).uncorrectable
      ((8 * buf.length - 144) % fields.factor) ((8 * buf.length - 144) % (2 ^ fields.factor - 1)) := by
  have hbits := bytesToBits_length buf
  by_cases hshort : buf.length < 18
  · rw [if_pos hshort]
    have hnone := exec_decode_of_none h (decodeHeader_short (by omega))
    exact decodeRow_of_abort _ (reports_of_exec hexec hnone ⟨rfl, rfl, rfl⟩) nofun
  · have hsome := exec_decode_of_some h (decodeHeader_of_length (by omega))
    obtain rfl : t = dispatchHeader fields s buf := hfields ▸ Host.Outcome.next.inj (hexec.symm.trans hsome)
    rw [if_neg hshort]
    exact dispatchHeader_row fields s buf

/-! ### The rows of the other operations -/

theorem readCatalog_reports {j : Nat} {out : CodeTables → Buffer} {s t : State} (h : readCatalog j out s = .next t) :
    t.Reports (if j ∈ [3, 4, 5] then .noError else .unsupportedParameter) 0 0 :=
  reports_of_check_blank h (fun hj => readCatalog_legal hj out s) (fun hj => readCatalog_illegal hj out s)
    ⟨rfl, rfl, rfl⟩ ⟨rfl, rfl, rfl⟩

theorem padblk_reports {S : Nat} {s t : State} (h : exec (.padblk S) s = .next t) :
    t.Reports (if S = 0 then .unsupportedParameter else .noError) 0 0 := by
  obtain ⟨bits, hin, -⟩ := withBits_eq_next.1 h
  by_cases hS : S = 0
  · subst hS
    exact reports_of_exec h (exec_padblk_zero hin) ⟨rfl, rfl, rfl⟩
  · rw [if_neg hS]
    exact reports_of_exec h (exec_padblk hin hS) ⟨rfl, rfl, rfl⟩

section
variable {s t : State} {bits : Bits} (h : s.inBuf.isBits bits)
include h

theorem hdrdec_reports (hexec : exec .hdrdec s = .next t) :
    t.Reports (if bits.length < 144 then .headerCorrupt else .noError) 0 0 := by
  by_cases hshort : bits.length < 144
  · rw [if_pos hshort]
    exact reports_of_exec hexec (exec_hdrdec_of_none h (decodeHeader_short hshort)) ⟨rfl, rfl, rfl⟩
  · rw [if_neg hshort]
    exact reports_of_exec hexec (exec_hdrdec_of_some h (decodeHeader_of_length (Nat.le_of_not_lt hshort)))
      ⟨rfl, rfl, rfl⟩

theorem repenc_reports {n : Nat} (hexec : exec (.repenc n) s = .next t) :
    t.Reports (if n ∈ [3, 5, 7, 9] then .noError else .unsupportedFactor) 0 0 :=
  reports_of_check_blank hexec (exec_repenc_legal h) (exec_repenc_illegal h) ⟨rfl, rfl, rfl⟩ ⟨rfl, rfl, rfl⟩

theorem repdec_reports {n : Nat} (hexec : exec (.repdec n) s = .next t) :
    t.Reports (if n ∈ [3, 5, 7, 9] then .noError else .unsupportedFactor) 0
      (if n ∈ [3, 5, 7, 9] then bits.length % n else 0) := by
  simpa only [ite_self] using
    reports_of_check (u := 0) hexec (exec_repdec_legal h) (exec_repdec_illegal h) ⟨rfl, rfl, rfl⟩ ⟨rfl, rfl, rfl⟩

theorem lbenc_reports {j : Nat} (hexec : exec (.lbenc j) s = .next t) :
    t.Reports (if j ∈ [3, 4, 5] then .noError else .unsupportedFactor) 0 0 :=
  reports_of_check_blank hexec (exec_lbenc_legal h) (exec_lbenc_illegal h) ⟨rfl, rfl, rfl⟩ ⟨rfl, rfl, rfl⟩

theorem lbdec_reports {j : Nat} (hexec : exec (.lbdec j) s = .next t) :
    t.Reports (if j ∈ [3, 4, 5] then .noError else .unsupportedFactor)
      (if j ∈ [3, 4, 5] then (lbDecode j (s.rom.code j) bits).uncorrectable else 0)
      (if j ∈ [3, 4, 5] then bits.length % (2 ^ j - 1) else 0) :=
  reports_of_check hexec (exec_lbdec_legal h) (exec_lbdec_illegal h) ⟨rfl, rfl, rfl⟩ ⟨rfl, rfl, rfl⟩

end

/-- No more rows are counted than there are (rule R99). -/
theorem lbDecode_uncorrectable_le (j : Nat) (T : CodeTables) (bits : Bits) :
    (lbDecode j T bits).uncorrectable ≤ bits.length / (2 ^ j - 1) :=
  List.countP_le_length.trans_eq (correctedRows_length j T bits)

/-- Settles O21: each operation that went on reports its row of the table. -/
theorem errorTable : Obligations.ErrorTable := by
  intro s t
  refine ⟨fun j hexec => ?_, fun E m f L hexec => ?_, fun S => padblk_reports, fun bits h => ?_, fun buf h => ?_, ?_⟩
  · obtain hexec | hexec | hexec := hexec
    · exact readCatalog_reports ((exec_getg j s).symm.trans hexec)
    · exact readCatalog_reports ((exec_geth j s).symm.trans hexec)
    · exact readCatalog_reports ((exec_getsyn j s).symm.trans hexec)
  · obtain hexec | hexec | hexec | hexec := hexec
    · obtain ⟨_, rfl⟩ := exec_leaves hexec
      exact ⟨rfl, rfl, rfl⟩
    · obtain ⟨_, _, rfl⟩ := exec_leaves hexec
      exact ⟨rfl, rfl, rfl⟩
    · obtain ⟨_, rfl⟩ := exec_leaves hexec
      exact ⟨rfl, rfl, rfl⟩
    · obtain ⟨_, rfl⟩ := exec_leaves hexec
      exact ⟨rfl, rfl, rfl⟩
  · refine ⟨hdrdec_reports h, fun n => repenc_reports h, fun n => repdec_reports h, fun j => lbenc_reports h,
      fun j hexec => ?_⟩
    obtain ⟨herr, hcnt, htail⟩ := lbdec_reports h hexec
    refine ⟨herr, hcnt, ?_, htail⟩
    rw [hcnt]
    split
    · exact lbDecode_uncorrectable_le j _ bits
    · exact Nat.le_refl 0
  · exact ⟨fun m f => encode_reports h, fun hexec fields => decode_row h hexec⟩
  · intro r hheld hdecode hstep
    rw [step_of_fetchCommand_error hheld hdecode, rejectCommand_eq_cleared] at hstep
    exact (reports_of_exec hstep rfl ⟨rfl, rfl, rfl⟩).1

end Sys2Proof.Machine

/-! Rules R53, R54, R58, R59, R61: an instruction's word is the word of its fields, and the decoders read the fields back;
of a command word's fields only those the operation reads have an effect. -/
namespace Sys2Proof

open Laws.RowWord (fits_byte fits_len)

/-- The bytes of a command word of fields that fit decode by the fields (rule R58). -/
theorem decode_commandWord {op m f len : Nat} (ho : op < 256) (hm : m < 256) (hf : f < 256) (hlen : len < 2 ^ 32) :
    decode .cmd56 (wordBytes 7 (commandWord op m f len)) = decodeFields op m f len :=
  decodeCommand_wordBytes ho hm hf hlen

/-- A protected header decodes to its fields, whatever follows it (rules R53, R83). -/
theorem decodeHeader_encodeHeader_append {m f L : Nat} (hm : m < 256) (hf : f < 256) (hL : L < 2 ^ 32) (rest : Bits) :
    decodeHeader (encodeHeader m f L ++ rest) = some ⟨m, f, L⟩ := by
  have hclean := xorBits_zeros_right (encodeHeader m f L)
  rw [encodeHeader_length] at hclean
  rw [← hclean]
  exact decodeHeader_of_sparseErrors hm hf hL rest List.length_replicate (sparseErrors_zeros 3 1 144)

/-- The bits of a frame that begins with a packed header. -/
theorem bytesToBits_header_append (m f L : Nat) (rest : Bytes) :
    bytesToBits (bitsToBytes (encodeHeader m f L) ++ rest) = encodeHeader m f L ++ bytesToBits rest := by
  rw [bytesToBits_append, bytesToBits_bitsToBytes_of_mod_zero (by rw [encodeHeader_length])]

/-- A frame that begins with a packed header decodes by the header's fields (rules R50, R53). -/
theorem decode_header_append {m f L : Nat} (hm : m < 256) (hf : f < 256) (hL : L < 2 ^ 32) (rest : Bytes) :
    decode .hdr48 (bitsToBytes (encodeHeader m f L) ++ rest) = decodeHeaderFields ⟨m, f, L⟩ := by
  rw [decode, decodeHeaderFrame, bytesToBits_header_append, decodeHeader_encodeHeader_append hm hf hL]

/-- The word of a command instruction is the command word of four fields that fit and decode to it (rules R58, R59). -/
theorem exists_commandWord {i : Instr} (hwf : i.wellFormed = true) (hformat : i.format = .cmd56) :
    ∃ op m f len, op < 256 ∧ m < 256 ∧ f < 256 ∧ len < 2 ^ 32 ∧ encodeWord i = commandWord op m f len ∧
      decodeFields op m f len = .ok i := by
  cases i with
  | getg j => exact ⟨0x01, 0, j, 0, by decide, by decide, fits_byte hwf, by decide, rfl, rfl⟩
  | geth j => exact ⟨0x02, 0, j, 0, by decide, by decide, fits_byte hwf, by decide, rfl, rfl⟩
  | getsyn j => exact ⟨0x03, 0, j, 0, by decide, by decide, fits_byte hwf, by decide, rfl, rfl⟩
  | b2bits => exact ⟨0x10, 0, 0, 0, by decide, by decide, by decide, by decide, rfl, rfl⟩
  | bits2b => exact ⟨0x11, 0, 0, 0, by decide, by decide, by decide, by decide, rfl, rfl⟩
  | padblk S => exact ⟨0x12, 0, 0, S, by decide, by decide, by decide, fits_len hwf, rfl, rfl⟩
  | trunc E => exact ⟨0x13, 0, 0, E, by decide, by decide, by decide, fits_len hwf, rfl, rfl⟩
  | hdrenc m f L =>
    simp only [Instr.wellFormed, Bool.and_eq_true] at hwf
    obtain ⟨⟨hm, hf⟩, hL⟩ := hwf
    exact ⟨0x20, m, f, L, by decide, fits_byte hm, fits_byte hf, fits_len hL, rfl, rfl⟩
  | hdrdec => exact ⟨0x21, 0, 0, 0, by decide, by decide, by decide, by decide, rfl, rfl⟩
  | repenc n => exact ⟨0x30, 0, n, 0, by decide, by decide, fits_byte hwf, by decide, rfl, rfl⟩
  | repdec n => exact ⟨0x31, 0, n, 0, by decide, by decide, fits_byte hwf, by decide, rfl, rfl⟩
  | lbenc j => exact ⟨0x40, 0, j, 0, by decide, by decide, fits_byte hwf, by decide, rfl, rfl⟩
  | lbdec j => exact ⟨0x41, 0, j, 0, by decide, by decide, fits_byte hwf, by decide, rfl, rfl⟩
  | encode m f =>
    simp only [Instr.wellFormed, Bool.and_eq_true] at hwf
    obtain ⟨hm, hf⟩ := hwf
    exact ⟨0x50, m, f, 0, by decide, fits_byte hm, fits_byte hf, by decide, rfl, rfl⟩
  | decode => exact ⟨0x51, 0, 0, 0, by decide, by decide, by decide, by decide, rfl, rfl⟩
  | hdrRep3 _ | hdrRep5 _ | hdrRep7 _ | hdrRep9 _ | hdrLb3 _ | hdrLb4 _ | hdrLb5 _ => cases hformat

/-- The word of a header form is the header word of three fields that fit and decode to it (rules R51, R56). -/
theorem exists_headerWord {i : Instr} (hwf : i.wellFormed = true) (hformat : i.format = .hdr48) :
    ∃ m f L, m < 256 ∧ f < 256 ∧ L < 2 ^ 32 ∧ encodeWord i = headerWord m f L ∧
      decodeHeaderFields ⟨m, f, L⟩ = .ok i := by
  cases i with
  | hdrRep3 L => exact ⟨0, 3, L, by decide, by decide, fits_len hwf, rfl, rfl⟩
  | hdrRep5 L => exact ⟨0, 5, L, by decide, by decide, fits_len hwf, rfl, rfl⟩
  | hdrRep7 L => exact ⟨0, 7, L, by decide, by decide, fits_len hwf, rfl, rfl⟩
  | hdrRep9 L => exact ⟨0, 9, L, by decide, by decide, fits_len hwf, rfl, rfl⟩
  | hdrLb3 L => exact ⟨1, 3, L, by decide, by decide, fits_len hwf, rfl, rfl⟩
  | hdrLb4 L => exact ⟨1, 4, L, by decide, by decide, fits_len hwf, rfl, rfl⟩
  | hdrLb5 L => exact ⟨1, 5, L, by decide, by decide, fits_len hwf, rfl, rfl⟩
  | _ => cases hformat

/-- The seven bytes of a command instruction's word decode to it. -/
theorem decode_wordBytes_encodeWord {i : Instr} (hwf : i.wellFormed = true) (hformat : i.format = .cmd56) :
    decode .cmd56 (wordBytes 7 (encodeWord i)) = .ok i := by
  obtain ⟨op, m, f, len, ho, hm, hf, hlen, hword, hfields⟩ := exists_commandWord hwf hformat
  rw [hword, decode_commandWord ho hm hf hlen, hfields]

/-- The protected form of a header form's word decodes to it, whatever follows. -/
theorem decode_layWord_encodeWord_append {i : Instr} (hwf : i.wellFormed = true) (hformat : i.format = .hdr48)
    (rest : Bytes) : decode .hdr48 (layWord .hdr48 (encodeWord i) ++ rest) = .ok i := by
  obtain ⟨m, f, L, hm, hf, hL, hword, hfields⟩ := exists_headerWord hwf hformat
  rw [hword, layWord_hdr48 hm hf hL, decode_header_append hm hf hL, hfields]

/-- The bytes of an instruction decode to it. -/
theorem decode_encode {i : Instr} (hwf : i.wellFormed = true) : decode i.format (encode i) = .ok i := by
  rw [encode]
  cases hformat : i.format with
  | cmd56 => exact decode_wordBytes_encodeWord hwf hformat
  | hdr48 => simpa only [List.append_nil] using decode_layWord_encodeWord_append hwf hformat []

/-- A word of a format's own width is decoded by that format. -/
theorem decodeTableWord_width (F : Format) (w : Nat) :
    decodeTableWord F.width w = (decode F (layWord F w)).toOption := by
  cases F <;> rfl

/-- Settles O1: an instruction's word holds fields that fit and decode to it, and both decoders read the fields of a word
back. -/
theorem decodeInvertsEncode : Obligations.DecodeInvertsEncode := by
  intro i hwf
  have hbytes := decode_encode hwf
  refine ⟨hbytes, ?_⟩
  rw [decodeTableWord_width, ← encode, hbytes]
  rfl

/-- The fifteen codes of rule R59 decode to command instructions, whatever the other fields are. -/
theorem decodeFields_of_code {op m f len : Nat} (hm : m < 256) (hf : f < 256) (hlen : len < 2 ^ 32)
    (hop : op ∈ [0x01, 0x02, 0x03, 0x10, 0x11, 0x12, 0x13, 0x20, 0x21, 0x30, 0x31, 0x40, 0x41, 0x50, 0x51]) :
    ∃ i, decodeFields op m f len = .ok i ∧ i.format = .cmd56 ∧ i.wellFormed = true := by
  have hm' : fitsByte m = true := decide_eq_true hm
  have hf' : fitsByte f = true := decide_eq_true hf
  have hlen' : fitsLen len = true := decide_eq_true hlen
  simp only [List.mem_cons, List.not_mem_nil, or_false] at hop
  rcases hop with rfl | rfl | rfl | rfl | rfl | rfl | rfl | rfl | rfl | rfl | rfl | rfl | rfl | rfl | rfl <;>
    refine ⟨_, rfl, rfl, ?_⟩ <;> simp only [Instr.wellFormed, hm', hf', hlen', Bool.and_self]

/-- Settles O2: the seven bytes decode by their fields, and `op` alone decides whether the fields are an instruction. -/
theorem reservedOpsAreRejected : Obligations.ReservedOpsAreRejected := by
  intro op m f l3 l2 l1 l0
  have hlen : ((l3.toNat * 256 + l2.toNat) * 256 + l1.toNat) * 256 + l0.toNat < 2 ^ 32 := by
    have := l3.isLt
    have := l2.isLt
    have := l1.isLt
    have := l0.isLt
    omega
  exact ⟨decodeFields_of_code m.isLt f.isLt hlen, decodeFields_reserved _ _ _⟩

/-- Settles O3: a command word decodes by its fields, and the arm of `op` drops those it does not read. -/
theorem ignoredFieldsHaveNoEffect : Obligations.IgnoredFieldsHaveNoEffect := by
  intro op m f len m' f' len' ho hm hf hlen hm' hf' hlen'
  rw [decode_commandWord ho hm hf hlen, decode_commandWord ho hm' hf' hlen']
  simp only [List.mem_cons, List.not_mem_nil, or_false]
  refine ⟨?_, ?_, ?_, ?_⟩
  · rintro (rfl | rfl | rfl | rfl | rfl | rfl | rfl) rfl <;> rfl
  · rintro (rfl | rfl | rfl | rfl) <;> rfl
  · rintro (rfl | rfl) rfl <;> rfl
  · rintro rfl rfl rfl
    rfl

/-! ### The seven header forms -/

/-- A factor that does not suit the method is rejected (rule R57). -/
theorem decodeHeaderFields_illegalFactor {m f : Nat} (L : Nat)
    (hpair : m = 0 ∧ f ∉ [3, 5, 7, 9] ∨ m = 1 ∧ f ∉ [3, 4, 5]) :
    decodeHeaderFields ⟨m, f, L⟩ = .error (.illegalFactor m f) := by
  simp only [List.mem_cons, List.not_mem_nil, or_false, not_or] at hpair
  obtain ⟨rfl, hf⟩ | ⟨rfl, hf⟩ := hpair
  · unfold decodeHeaderFields
    split <;> simp_all
  · unfold decodeHeaderFields
    split <;> simp_all

/-- A method that is none is rejected, whatever the factor (rule R57). -/
theorem decodeHeaderFields_illegalMethod {m : Nat} (f L : Nat) (hm : 2 ≤ m) :
    decodeHeaderFields ⟨m, f, L⟩ = .error (.illegalMethod m) := by
  unfold decodeHeaderFields
  split <;> simp_all

/-- Settles O4: a frame that begins with a header decodes by the header's fields, seven pairs of which are a form. -/
theorem exactlySevenHeaderForms : Obligations.ExactlySevenHeaderForms := by
  intro m f L rest hm hf hL r hr
  rw [decode_header_append hm hf hL] at hr
  subst hr
  refine ⟨?_, ?_, ?_, ?_, ?_, ?_, ?_, ?_, ?_, decodeHeaderFields_illegalMethod f L⟩
  iterate 7
    rintro rfl rfl
    rfl
  · rintro rfl hillegal
    exact decodeHeaderFields_illegalFactor L (.inl ⟨rfl, hillegal⟩)
  · rintro rfl hillegal
    exact decodeHeaderFields_illegalFactor L (.inr ⟨rfl, hillegal⟩)

/-- Settles O5: the decoders run on each word. -/
theorem wordsOfTheSpecDecode : Obligations.WordsOfTheSpecDecode :=
  ⟨rfl, rfl, rfl, rfl, rfl, rfl, rfl, rfl, rfl, rfl, rfl⟩

end Sys2Proof

/-! Rules R9, R50, R59, R109: a step runs what is fetched, from the operand registers and, for `DECODE`, from the front of
the frame. -/
namespace Sys2Proof.Machine

/-- A block out of reset runs the instruction it fetched (rule R9). -/
theorem step_of_fetchCommand_ok {s : State} (hheld : s.heldInReset = false) {i : Instr} (hfetch : fetchCommand s = .ok i) :
    step s = exec i s := by
  simp [step, hheld, hfetch]

/-- Settles O6: what the host put into the operand registers is the word that is fetched, and a command instruction's word
decodes to it. -/
theorem stepRunsTheDecodedCommand : Obligations.StepRunsTheDecodedCommand := by
  refine ⟨fun s i hheld hdecode => step_of_fetchCommand_ok hheld hdecode, fun s i hheld hwf hformat => ?_⟩
  have hword : encodeWord i < 2 ^ 56 := by
    obtain ⟨op, m, f, len, ho, hm, hf, hlen, hword, -⟩ := exists_commandWord hwf hformat
    rw [hword]
    exact (Laws.RowWord.command_row ho hm hf hlen).1
  refine step_of_fetchCommand_ok ((State.putCommand_heldInReset s _).trans hheld) ?_
  rw [fetchCommand, commandBytes_putCommand s hword, decode_wordBytes_encodeWord hwf hformat]

section
variable {s : State} {frame : Bytes} (h : s.inBuf.isBytes frame) (L : Nat)
include h

/-- A Repetition header form decodes the frame's payload with its factor (rule R56). -/
theorem exec_repetition_form :
    ∀ p ∈ [(Instr.hdrRep3 L, 3), (.hdrRep5 L, 5), (.hdrRep7 L, 7), (.hdrRep9 L, 9)],
      exec p.1 s = .next (decodeRepFrame p.2 L s frame) := by
  simp only [List.forall_mem_cons, List.not_mem_nil, false_implies, implies_true, and_true]
  exact ⟨withBytes_of_isBytes h _, withBytes_of_isBytes h _, withBytes_of_isBytes h _, withBytes_of_isBytes h _⟩

/-- A LinearBlock header form decodes the frame's payload with its code parameter (rule R56). -/
theorem exec_linearBlock_form :
    ∀ p ∈ [(Instr.hdrLb3 L, 3), (.hdrLb4 L, 4), (.hdrLb5 L, 5)],
      exec p.1 s = .next (decodeLbFrame p.2 L s frame) := by
  simp only [List.forall_mem_cons, List.not_mem_nil, false_implies, implies_true, and_true]
  exact ⟨withBytes_of_isBytes h _, withBytes_of_isBytes h _, withBytes_of_isBytes h _⟩

end

/-- Settles O46: a header form is the payload decoder of its row on the frame. -/
theorem headerFormsDecodeThePayload : Obligations.HeaderFormsDecodeThePayload := by
  rintro s frame L h pl rfl
  refine ⟨fun p hp => ?_, fun p hp => ?_⟩
  · rw [exec_repetition_form h L p hp, decodeRepFrame_eq_cleared]
    rfl
  · rw [exec_linearBlock_form h L p hp, decodeLbFrame_eq_cleared]
    rfl

/-- The fields that decode to an instruction are a row of the table of header forms (rule R56). -/
theorem decodeHeaderFields_eq_ok {m f L : Nat} {i : Instr} (h : decodeHeaderFields ⟨m, f, L⟩ = .ok i) :
    m = 0 ∧ (i, f) ∈ [(Instr.hdrRep3 L, 3), (.hdrRep5 L, 5), (.hdrRep7 L, 7), (.hdrRep9 L, 9)] ∨
      m = 1 ∧ (i, f) ∈ [(Instr.hdrLb3 L, 3), (.hdrLb4 L, 4), (.hdrLb5 L, 5)] := by
  unfold decodeHeaderFields at h
  split at h <;> cases h <;> simp_all

/-- The instruction that a header's fields decode to does what `DECODE` does on that header (rule R109). -/
theorem exec_of_decodeHeaderFields {s : State} {frame : Bytes} (h : s.inBuf.isBytes frame) {fields : HeaderFields}
    {i : Instr} (hdecode : decodeHeaderFields fields = .ok i) :
    exec i s = .next (dispatchHeader fields s frame) := by
  obtain ⟨m, f, L⟩ := fields
  obtain ⟨rfl, hrow⟩ | ⟨rfl, hrow⟩ := decodeHeaderFields_eq_ok hdecode
  · have hf : f ∈ [3, 5, 7, 9] := List.mem_map_of_mem (f := Prod.snd) hrow
    rw [dispatchHeader_repetition L s frame hf]
    exact exec_repetition_form h L _ hrow
  · have hf : f ∈ [3, 4, 5] := List.mem_map_of_mem (f := Prod.snd) hrow
    rw [dispatchHeader_linearBlock L s frame hf]
    exact exec_linearBlock_form h L _ hrow

/-- `DECODE` of a frame whose front decodes to a header form runs that form (rule R50). -/
theorem exec_decode_eq_exec_form {s : State} {frame : Bytes} (h : s.inBuf.isBytes frame) {i : Instr}
    (hdecode : decode .hdr48 frame = .ok i) : exec .decode s = exec i s := by
  rw [decode, decodeHeaderFrame] at hdecode
  split at hdecode
  · cases hdecode
  · rename_i fields hfields
    rw [exec_decode_of_some h hfields, exec_of_decodeHeaderFields h hdecode]

/-- After a header word has been put in place the step is a `DECODE`. -/
theorem fetchCommand_putHeader (s : State) (w : Nat) : fetchCommand (s.putHeader w) = .ok .decode := by
  rw [fetchCommand_eq_decodeFields]
  rfl

/-- Settles O7: `DECODE` dispatches on the fields that the header decodes by, and a header form put at the front of the frame
decodes to itself whatever payload is kept behind it. -/
theorem decodeRunsTheFetchedHeader : Obligations.DecodeRunsTheFetchedHeader := by
  refine ⟨fun s frame i h hdecode => exec_decode_eq_exec_form h hdecode, fun s i hheld hwf hformat => ?_⟩
  have hput : s.withFetchWord 48 (encodeWord i) = s.putHeader (encodeWord i) := rfl
  have hstep := step_of_fetchCommand_ok ((State.putHeader_heldInReset s _).trans hheld)
    (fetchCommand_putHeader s (encodeWord i))
  rw [hput, hstep]
  exact exec_decode_eq_exec_form (.inl (State.putHeader_inBuf s _)) (decode_layWord_encodeWord_append hwf hformat _)

end Sys2Proof.Machine

/-! Rules R17, R18, R20 to R25, R36, R122, R135: what every instruction leaves, by the shape of its next state. -/
namespace Sys2Proof.Machine

section
variable (s : State) (m f L : Nat) (decoded : Bits) (u n : Nat)

/-! ### The registers in the `PAYLOAD` phase and after the end of `DECODE` -/

@[simp] theorem State.headerSeen_phase : (s.headerSeen m f L).phase = .payload := rfl
@[simp] theorem State.headerSeen_err : (s.headerSeen m f L).err = .noError := rfl
@[simp] theorem State.headerSeen_padAmount : (s.headerSeen m f L).padAmount = 0 := rfl
@[simp] theorem State.finishDecode_phase : (s.finishDecode decoded u n L).phase = .done := rfl
@[simp] theorem State.finishDecode_err : (s.finishDecode decoded u n L).err = s.err := rfl
@[simp] theorem State.finishDecode_padAmount : (s.finishDecode decoded u n L).padAmount = s.padAmount := rfl
@[simp] theorem State.finishDecode_outBuf :
    (s.finishDecode decoded u n L).outBuf = .bytes (bitsToBytes (truncate decoded L)) := rfl

end

/-- Settles O16: an instruction and a step keep the cleared state, which holds the request, `IN` and the ROM. -/
theorem requestAndRomAreNeverWritten : Obligations.RequestAndRomAreNeverWritten :=
  ⟨fun _ s t h => (fresh_eq_iff t s).1 (leaves_fresh (exec_leaves h)),
    fun s t h => (fresh_eq_iff t s).1 (step_keeps_fresh h)⟩

/-- Settles O17: each next state is the cleared one with the registers written that its instruction names. -/
theorem resultRegistersAreFresh : Obligations.ResultRegistersAreFresh := by
  intro i s t hexec
  have h := exec_leaves hexec
  cases i with
  | getg _ | geth _ | getsyn _ | repenc _ | lbenc _ => obtain ⟨_, rfl⟩ | rfl := h <;> simp
  | b2bits | trunc _ | hdrenc _ _ _ => obtain ⟨_, rfl⟩ := h; simp
  | bits2b => obtain ⟨_, _, rfl⟩ := h; simp
  | padblk _ => obtain ⟨_, _, rfl⟩ | rfl := h <;> simp
  | hdrdec => obtain ⟨_, _, _, rfl⟩ | rfl := h <;> simp
  | repdec _ => obtain ⟨_, _, rfl⟩ | rfl := h <;> simp
  | lbdec _ => obtain ⟨_, _, _, rfl⟩ | rfl := h <;> simp
  | encode _ _ => obtain ⟨_, rfl⟩ | ⟨_, _, rfl⟩ := h <;> simp
  | decode => obtain ⟨_, _, _, _, _, _, rfl⟩ | ⟨_, _, _, _, _, rfl⟩ | rfl := h <;> simp
  | hdrRep3 _ | hdrRep5 _ | hdrRep7 _ | hdrRep9 _ | hdrLb3 _ | hdrLb4 _ | hdrLb5 _ =>
    obtain ⟨_, _, _, _, _, _, rfl⟩ := h
    simp [Instr.format]

/-! ### The three ways an instruction ends -/

/-- The last line reached: no error, and `PHASE` at its reset value or, with bytes in `OUT`, at `DONE`. -/
def State.EndedNormally (t : State) : Prop :=
  t.err = .noError ∧ (t.phase = .header ∨ t.phase = .done ∧ ∃ b, t.outBuf = .bytes b)

theorem endedNormally_finishDecode (s : State) (m f L : Nat) (decoded : Bits) (u n : Nat) :
    ((s.headerSeen m f L).finishDecode decoded u n L).EndedNormally := ⟨rfl, .inr ⟨rfl, _, rfl⟩⟩

/-- Every instruction ends at its last line, by an abort before it wrote anything, or, `DECODE` alone, by an abort after
the header was recovered (rules R122, R135). -/
theorem leaves_ends {i : Instr} {s t : State} (h : Leaves s t i) :
    t.EndedNormally ∨ (∃ k, k ≠ .noError ∧ t = s.fresh.raise k) ∨
      i = .decode ∧ ∃ m f L k, (k = .unsupportedFactor ∨ k = .unsupportedParameter) ∧
        t = (s.headerSeen m f L).raise k := by
  cases i with
  | getg _ | geth _ | getsyn _ | repenc _ | lbenc _ =>
    obtain ⟨_, rfl⟩ | rfl := h
    · exact .inl ⟨rfl, .inl rfl⟩
    · exact .inr (.inl ⟨_, by decide, rfl⟩)
  | b2bits | trunc _ | hdrenc _ _ _ => obtain ⟨_, rfl⟩ := h; exact .inl ⟨rfl, .inl rfl⟩
  | bits2b => obtain ⟨_, _, rfl⟩ := h; exact .inl ⟨rfl, .inl rfl⟩
  | padblk _ | repdec _ =>
    obtain ⟨_, _, rfl⟩ | rfl := h
    · exact .inl ⟨rfl, .inl rfl⟩
    · exact .inr (.inl ⟨_, by decide, rfl⟩)
  | hdrdec | lbdec _ =>
    obtain ⟨_, _, _, rfl⟩ | rfl := h
    · exact .inl ⟨rfl, .inl rfl⟩
    · exact .inr (.inl ⟨_, by decide, rfl⟩)
  | encode _ _ =>
    obtain ⟨_, rfl⟩ | ⟨k, hk, rfl⟩ := h
    · exact .inl ⟨rfl, .inl rfl⟩
    · exact .inr (.inl ⟨k, by rcases hk with rfl | rfl | rfl <;> nofun, rfl⟩)
  | decode =>
    obtain ⟨_, _, _, _, _, _, rfl⟩ | habort | rfl := h
    · exact .inl (endedNormally_finishDecode ..)
    · exact .inr (.inr ⟨rfl, habort⟩)
    · exact .inr (.inl ⟨_, by decide, rfl⟩)
  | hdrRep3 _ | hdrRep5 _ | hdrRep7 _ | hdrRep9 _ | hdrLb3 _ | hdrLb4 _ | hdrLb5 _ =>
    obtain ⟨_, _, _, _, _, _, rfl⟩ := h
    exact .inl (endedNormally_finishDecode ..)

/-- Settles O20: an abort leaves the cleared state with `ERR` set and, where a header was recovered, `PHASE` and its
fields. -/
theorem abortLeavesOnlyTheCode : Obligations.AbortLeavesOnlyTheCode := by
  intro i s t hexec herr
  obtain ⟨hnone, -⟩ | ⟨k, -, rfl⟩ | ⟨rfl, m, f, L, k, hk, rfl⟩ := leaves_ends (exec_leaves hexec)
  · exact absurd hnone herr
  · exact ⟨rfl, fun _ => rfl, fun hphase => absurd rfl hphase⟩
  · exact ⟨rfl, fun hne => absurd rfl hne, fun _ => ⟨rfl, hk⟩⟩

/-! ### Every request ends -/

/-- An instruction goes on when `IN` is of the kind it takes, or when it reads none (rules R36, R135). -/
theorem exec_goes_on (i : Instr) (s : State)
    (hbytes : (i = .b2bits ∨ (∃ m f, i = .encode m f) ∨ i = .decode ∨ i.format = .hdr48) →
      ∃ buf, s.inBuf.isBytes buf)
    (hbits : (i = .bits2b ∨ (∃ n, i = .padblk n) ∨ (∃ n, i = .trunc n) ∨ i = .hdrdec ∨ (∃ n, i = .repenc n) ∨
      (∃ n, i = .repdec n) ∨ (∃ j, i = .lbenc j) ∨ (∃ j, i = .lbdec j)) → ∃ bits, s.inBuf.isBits bits) :
    ∃ t, exec i s = .next t := by
  cases i with
  | getg _ | geth _ | getsyn _ | hdrenc _ _ _ => exact ⟨_, rfl⟩
  | b2bits | encode _ _ | decode | hdrRep3 _ | hdrRep5 _ | hdrRep7 _ | hdrRep9 _ | hdrLb3 _ | hdrLb4 _ | hdrLb5 _ =>
    obtain ⟨buf, hin⟩ := hbytes (by simp [Instr.format])
    exact ⟨_, withBytes_of_isBytes hin _⟩
  | bits2b | padblk _ | trunc _ | hdrdec | repenc _ | repdec _ | lbenc _ | lbdec _ =>
    obtain ⟨bits, hin⟩ := hbits (by simp)
    exact ⟨_, withBits_of_isBits hin _⟩

theorem ErrorKind.code_ne_zero {k : ErrorKind} (h : k ≠ .noError) : k.code ≠ 0 := by
  cases k with
  | noError => exact absurd rfl h
  | unsupportedFactor | unsupportedParameter | headerCorrupt | lengthOverflow | illegalCommand => decide

/-- Settles O19: on an `IN` of its kind an instruction goes on, to its last line or to an abort, which empties `OUT`. -/
theorem everyRequestEnds : Obligations.EveryRequestEnds := by
  intro i s hbytes hbits
  obtain ⟨t, hexec⟩ := exec_goes_on i s hbytes hbits
  refine ⟨t, hexec, ?_⟩
  obtain ⟨hnone, -⟩ | ⟨k, hk, rfl⟩ | ⟨-, m, f, L, k, hk, rfl⟩ := leaves_ends (exec_leaves hexec)
  · exact .inl ⟨hnone, by rw [hnone]; rfl⟩
  · exact .inr ⟨hk, ErrorKind.code_ne_zero hk, rfl, rfl⟩
  · have hne : k ≠ .noError := by rcases hk with rfl | rfl <;> nofun
    exact .inr ⟨hne, ErrorKind.code_ne_zero hne, rfl, rfl⟩

/-! ### The kinds of `IN` and `OUT` -/

/-- A catalog read-out does not look at `IN`. -/
theorem readCatalog_putIn (j : Nat) (out : CodeTables → Buffer) (s : State) (b : Buffer) :
    ∃ t, readCatalog j out s = .next t ∧ readCatalog j out { s with inBuf := b } = .next { t with inBuf := b } := by
  by_cases hj : j ∈ [3, 4, 5]
  · exact ⟨_, readCatalog_legal hj out s, readCatalog_legal hj out _⟩
  · exact ⟨_, readCatalog_illegal hj out s, readCatalog_illegal hj out _⟩

/-- Settles O18: an operation reads `IN` through `withBytes` or `withBits`, which refuse the other kind, or not at all; the
kind of `OUT` is in the shape of the next state. -/
theorem bufferKindsAsTabled : Obligations.BufferKindsAsTabled := by
  refine ⟨fun i s l hin hi => ?_, fun i s l hin hi => ?_, fun i s b hi => ?_, fun i s t hexec herr => ?_⟩
  · obtain rfl | ⟨m, f, rfl⟩ | rfl := hi <;> exact withBytes_of_bits hin _
  · obtain rfl | ⟨_, rfl⟩ | ⟨_, rfl⟩ | rfl | ⟨_, rfl⟩ | ⟨_, rfl⟩ | ⟨_, rfl⟩ | ⟨_, rfl⟩ := hi <;>
      exact withBits_of_bytes hin _
  · obtain ⟨j, rfl⟩ | ⟨j, rfl⟩ | ⟨j, rfl⟩ | ⟨m, f, L, rfl⟩ := hi
    · simpa only [exec_getg] using readCatalog_putIn j _ s b
    · simpa only [exec_geth] using readCatalog_putIn j _ s b
    · simpa only [exec_getsyn] using readCatalog_putIn j _ s b
    · exact ⟨_, rfl, rfl⟩
  · have h := exec_leaves hexec
    cases i with
    | getg _ | geth _ | getsyn _ | repenc _ | lbenc _ =>
      obtain ⟨_, rfl⟩ | rfl := h
      · simp
      · cases herr
    | b2bits | trunc _ | hdrenc _ _ _ => obtain ⟨_, rfl⟩ := h; simp
    | bits2b => obtain ⟨_, _, rfl⟩ := h; simp
    | padblk _ | repdec _ =>
      obtain ⟨_, _, rfl⟩ | rfl := h
      · simp
      · cases herr
    | hdrdec | lbdec _ =>
      obtain ⟨_, _, _, rfl⟩ | rfl := h
      · simp
      · cases herr
    | encode _ _ =>
      obtain ⟨_, rfl⟩ | ⟨k, hk, rfl⟩ := h
      · simp
      · obtain rfl : k = .noError := herr
        simp at hk
    | decode =>
      obtain ⟨_, _, _, _, _, _, rfl⟩ | ⟨_, _, _, k, hk, rfl⟩ | rfl := h
      · simp
      · obtain rfl : k = .noError := herr
        simp at hk
      · cases herr
    | hdrRep3 _ | hdrRep5 _ | hdrRep7 _ | hdrRep9 _ | hdrLb3 _ | hdrLb4 _ | hdrLb5 _ => simp

/-- Settles O47: `PHASE` is set at the two moments at which the kinds of error that may still come change. -/
theorem phaseTellsHowDecodeEnded : Obligations.PhaseTellsHowDecodeEnded := by
  intro s t hexec
  obtain ⟨_, _, _, _, _, _, rfl⟩ | ⟨_, _, _, k, rfl | rfl, rfl⟩ | rfl := exec_leaves hexec <;> simp

end Sys2Proof.Machine

/-! Rules R20 to R22, R32, R107, R122, R132: the invariant of the states between two operations, from reset on. -/
namespace Sys2Proof.Machine

/-- Settles O10: the fields of the state that reset leaves. -/
theorem resetLeavesTheStatedState : Obligations.ResetLeavesTheStatedState := by
  refine ⟨rfl, by decide, ?_⟩
  rintro c s rfl
  exact ⟨rfl, rfl, rfl, rfl, rfl, rfl, rfl, rfl, rfl, rfl, rfl, rfl, rfl, rfl, rfl, rfl, rfl, rfl, rfl⟩

/-- A block is out of reset exactly when its catalog is valid (rule R132). -/
theorem resetWith_heldInReset (c : Catalog) : (State.resetWith c).heldInReset = !c.valid := rfl

theorem inv_resetWith (c : Catalog) : (State.resetWith c).Inv where
  rom hheld := ⟨c, by rwa [resetWith_heldInReset, Bool.not_eq_false'] at hheld, rfl⟩
  abort herr := absurd rfl herr
  payload := nofun
  done := nofun
  noHeader herr := absurd rfl herr

/-- Settles O12: nothing is recorded after reset, and a block that has left it holds its valid catalog. -/
theorem resetMeetsTheInvariant : Obligations.ResetMeetsTheInvariant :=
  ⟨inv_resetWith defaultCatalog, inv_resetWith⟩

section
variable {s : State} (hs : s.Inv)
include hs

/-- The host writes the request and `IN`, of which the invariant does not speak, or resets the block. -/
theorem inv_hostAct (a : HostAction) : (hostAct a s).Inv := by
  cases a with
  | reset c => exact inv_resetWith c
  | putIn _ | mov | flip _ | request _ _ _ _ => exact ⟨hs.rom, hs.abort, hs.payload, hs.done, hs.noHeader⟩

/-- The ROM's part of the invariant, for every state with the same cleared state. -/
theorem rom_of_fresh_eq {t : State} (h : t.fresh = s.fresh) (hheld : t.heldInReset = false) :
    ∃ c, t.holdsCatalog c := by
  obtain ⟨-, -, -, -, -, hrom, hsame⟩ := (fresh_eq_iff t s).1 h
  obtain ⟨c, hvalid, hc⟩ := hs.rom (hsame ▸ hheld)
  exact ⟨c, hvalid, hrom.trans hc⟩

theorem inv_of_endedNormally {t : State} (h : t.fresh = s.fresh) (hend : t.EndedNormally) : t.Inv := by
  obtain ⟨herr, hphase⟩ := hend
  refine ⟨rom_of_fresh_eq hs h, fun habort => absurd herr habort, fun hpayload => ?_, fun hdone => ⟨herr, ?_⟩,
    fun habort => absurd herr habort⟩
  · obtain hphase | ⟨hphase, -⟩ := hphase <;> cases hphase.symm.trans hpayload
  · obtain hphase | ⟨-, hout⟩ := hphase
    · cases hphase.symm.trans hdone
    · exact hout

/-- An abort before anything was written. -/
theorem inv_raise_fresh (k : ErrorKind) : (s.fresh.raise k).Inv where
  rom := rom_of_fresh_eq hs (by rw [State.raise_fresh, State.fresh_fresh])
  abort _ := ⟨rfl, rfl, rfl, rfl⟩
  payload := nofun
  done := nofun
  noHeader _ _ := ⟨rfl, rfl, rfl⟩

/-- An abort after the header was recovered. -/
theorem inv_raise_headerSeen (m f L : Nat) {k : ErrorKind} (hk : k = .unsupportedFactor ∨ k = .unsupportedParameter) :
    ((s.headerSeen m f L).raise k).Inv where
  rom := rom_of_fresh_eq hs (by rw [State.raise_fresh, State.headerSeen_fresh])
  abort _ := ⟨rfl, rfl, rfl, rfl⟩
  payload _ := hk
  done := nofun
  noHeader _ := nofun

theorem inv_exec {i : Instr} {t : State} (h : exec i s = .next t) : t.Inv := by
  have hleaves := exec_leaves h
  obtain hend | ⟨k, -, rfl⟩ | ⟨-, m, f, L, k, hk, rfl⟩ := leaves_ends hleaves
  · exact inv_of_endedNormally hs (leaves_fresh hleaves) hend
  · exact inv_raise_fresh hs k
  · exact inv_raise_headerSeen hs m f L hk

theorem inv_step {t : State} (h : step s = .next t) : t.Inv := by
  obtain ⟨-, ⟨i, -, hexec⟩ | rfl⟩ := step_next_cases h
  · exact inv_exec hs hexec
  · exact inv_raise_fresh hs _

end

/-- A run that goes on has gone on with its first item. -/
theorem run_cons_eq_next {e : Event} {es : List Event} {s t : State} (h : run (e :: es) s = .next t) :
    ∃ u, react e s = .next u ∧ run es u = .next t := by
  rw [run] at h
  split at h
  · exact ⟨_, ‹_›, h⟩
  · cases h
  · cases h

theorem inv_react {e : Event} {s t : State} (hs : s.Inv) (h : react e s = .next t) : t.Inv := by
  cases e with
  | host a =>
    cases h
    exact inv_hostAct hs a
  | operate => exact inv_step hs h

theorem inv_run {es : List Event} {s t : State} (hs : s.Inv) (h : run es s = .next t) : t.Inv := by
  induction es generalizing s with
  | nil =>
    cases h
    exact hs
  | cons e es ih =>
    obtain ⟨u, hfirst, hrest⟩ := run_cons_eq_next h
    exact ih (inv_react hs hfirst) hrest

/-- Settles O13: each of the three ways an instruction ends, the abort of a rejected command and every host action lead to a
state that meets the invariant, so a run does by induction on its items. -/
theorem stepKeepsTheInvariant : Obligations.StepKeepsTheInvariant :=
  ⟨fun _ _ hs h => inv_step hs h, fun _ _ _ hs h => inv_run hs h⟩

/-! ### A block held in reset -/

/-- Only reset decides whether the block is held (rule R132). -/
theorem hostAct_heldInReset {a : HostAction} (ha : ∀ c, a ≠ .reset c) (s : State) :
    (hostAct a s).heldInReset = s.heldInReset := by
  cases a with
  | reset c => exact absurd rfl (ha c)
  | putIn _ | mov | flip _ | request _ _ _ _ => rfl

theorem foldl_hostAct_heldInReset {as : List HostAction} (has : ∀ a ∈ as, ∀ c, a ≠ .reset c) (s : State) :
    (as.foldl (fun s a => hostAct a s) s).heldInReset = s.heldInReset := by
  induction as generalizing s with
  | nil => rfl
  | cons a as ih =>
    obtain ⟨ha, has⟩ := List.forall_mem_cons.1 has
    rw [List.foldl_cons, ih has, hostAct_heldInReset ha]

theorem step_of_heldInReset {s : State} (h : s.heldInReset = true) : step s = .refused .heldInReset := if_pos h

/-- Settles O9: without another reset the block stays as held as the catalog of the last one left it. -/
theorem invalidCatalogAcceptsNothing : Obligations.InvalidCatalogAcceptsNothing := by
  intro c as has
  have hheld := foldl_hostAct_heldInReset has (State.resetWith c)
  rw [resetWith_heldInReset] at hheld
  exact ⟨fun hinvalid => step_of_heldInReset (hheld.trans (by rw [hinvalid]; rfl)),
    fun hvalid => hheld.trans (by rw [hvalid]; rfl)⟩

end Sys2Proof.Machine

/-! Rule R68: the columns of a valid code's H are all the nonzero vectors, and the rows of `P_j` those of them that are no
unit vector. -/
namespace Sys2Proof

theorem popcount_flipAt_zeros (m i : Nat) (hi : i < m) : popcount (flipAt (zeros m) i) = 1 := by
  induction m generalizing i with
  | zero => omega
  | succ m ih =>
    rw [zeros, List.replicate_succ]
    cases i with
    | zero => rw [flipAt_cons_zero, popcount_cons, popcount_zeros, Bool.not_false, Bool.toNat_true]
    | succ i => rw [flipAt_cons_succ, popcount_cons, ih i (by omega), Bool.toNat_false]

theorem popcount_unitRow {m i : Nat} (hi : i < m) : popcount (unitRow m i) = 1 := by
  rw [unitRow_eq_flipAt hi, popcount_flipAt_zeros m i hi]

/-- A vector of weight below 2 is zero or a unit vector. -/
theorem eq_zeros_or_unitRow {v : Bits} (h : popcount v < 2) :
    v = zeros v.length ∨ ∃ t < v.length, v = unitRow v.length t := by
  obtain hzero | hone : popcount v = 0 ∨ popcount v = 1 := by omega
  · exact .inl (popcount_eq_zero hzero)
  · obtain ⟨p, hp, hv⟩ := eq_flipAt_of_popcount_one hone
    exact .inr ⟨p, hp, by rw [unitRow_eq_flipAt hp, ← hv]⟩

theorem isZero_eq_false_of_mem {v : Bits} (h : ∃ b ∈ v, b = true) : isZero v = false := by
  simpa [isZero] using h

section
variable {j : Nat} {P : Matrix} (hv : codeValid j P = true)
include hv

/-- Column i of H is row i of `P_j` (rule R67). -/
theorem build_column_info {i : Nat} (hi : i < codeK j) : column (CodeTables.build j P).h i = P.getD i [] := by
  obtain ⟨hlen, hrow, -, -⟩ := (codeValid_iff j P).1 hv
  exact column_parityCheck_info hlen hrow hi

/-- Column k + t of H is the unit vector with its 1 at t (rule R67). -/
theorem build_column_parity {t : Nat} (ht : t < j) : column (CodeTables.build j P).h (codeK j + t) = unitRow j t := by
  obtain ⟨hlen, -, -, -⟩ := (codeValid_iff j P).1 hv
  exact column_parityCheck_parity hlen ht

variable (hj : j ∈ Config.lbParams)
include hj

/-- An information column is neither zero nor a parity column, so it has two 1 bits or more (rule R68). -/
theorem two_le_popcount_column {i : Nat} (hi : i < codeK j) : 2 ≤ popcount (column (CodeTables.build j P).h i) := by
  have hN := codeN_eq hj
  by_contra hlight
  obtain hzero | ⟨t, ht, hunit⟩ := eq_zeros_or_unitRow (Nat.lt_of_not_le hlight)
  · rw [build_column_length] at hzero
    exact column_ne_zeros hv (by omega) hzero
  · rw [build_column_length] at ht hunit
    have hsame := column_injective hv (by omega) (by omega) (hunit.trans (build_column_parity hv ht).symm)
    omega

/-- The rows of a valid `P_j` (rule R68). -/
theorem mem_validCode_iff (v : Bits) : v ∈ P ↔ v.length = j ∧ 2 ≤ popcount v := by
  have hN := codeN_eq hj
  obtain ⟨hlen, hrow, -, -⟩ := (codeValid_iff j P).1 hv
  constructor
  · intro hmem
    obtain ⟨i, hi, rfl⟩ := List.getElem_of_mem hmem
    have hheavy := two_le_popcount_column hv hj (hlen ▸ hi)
    rw [build_column_info hv (hlen ▸ hi), List.getD_eq_getElem _ _ hi] at hheavy
    exact ⟨hrow _ hmem, hheavy⟩
  · rintro ⟨hlength, hheavy⟩
    have hnonzero : isZero v = false := by
      rw [Bool.eq_false_iff, ne_eq, isZero_iff]
      intro hzero
      rw [hzero, popcount_zeros] at hheavy
      omega
    obtain ⟨col, hcol, rfl⟩ := exists_column_eq hv hlength hnonzero
    rcases Nat.lt_or_ge col (codeK j) with hinfo | hparity
    · rw [build_column_info hv hinfo, List.getD_eq_getElem _ _ (hlen ▸ hinfo)]
      exact List.getElem_mem _
    · obtain ⟨t, rfl⟩ := Nat.exists_eq_add_of_le hparity
      rw [build_column_parity hv (by omega), popcount_unitRow (by omega)] at hheavy
      omega

/-- The rows of a valid `P_j` are distinct columns of H (rule R68). -/
theorem validCode_nodup : P.Nodup := by
  have hN := codeN_eq hj
  obtain ⟨hlen, -, -, -⟩ := (codeValid_iff j P).1 hv
  rw [List.nodup_iff_injective_getElem]
  rintro ⟨a, ha⟩ ⟨b, hb⟩ hab
  have hcolumn : ∀ i (hi : i < P.length), column (CodeTables.build j P).h i = P[i] := fun i hi => by
    rw [build_column_info hv (hlen ▸ hi), List.getD_eq_getElem _ _ hi]
  exact Fin.ext (column_injective hv (by omega) (by omega) ((hcolumn a ha).trans (hab.trans (hcolumn b hb).symm)))

end

/-- Settles O25: every nonzero vector is a column by counting, no two columns are equal, and the columns that are rows of
`P_j` are those that are no unit vector. -/
theorem validCatalogHoldsEveryColumnOnce : Obligations.ValidCatalogHoldsEveryColumnOnce := by
  intro c hvalid j hj
  have hv := valid_codeValid hvalid hj
  refine ⟨fun v hlen hnonzero => ?_, mem_validCode_iff hv hj, validCode_nodup hv hj⟩
  obtain ⟨col, hcol, hcolumn⟩ := exists_column_eq hv hlen (isZero_eq_false_of_mem hnonzero)
  exact ⟨col, hcol, hcolumn, fun col' hcol' hcolumn' =>
    column_injective hv hcol' hcol (hcolumn'.trans hcolumn.symm)⟩

end Sys2Proof

/-! Rule R63: the host's flip of one bit of a byte buffer. -/
namespace Sys2Proof

/-- Inverting bit 7 − p of a byte inverts the bit at index p of its eight (rules R37, R63). -/
theorem byteBits_flip (v : Byte) {p : Nat} (hp : p < 8) :
    byteBits (v ^^^ (1#8 <<< (7 - p))) = flipAt (byteBits v) p := by
  apply List.ext_getElem?
  intro t
  by_cases ht : t < 8
  · rw [flipAt_getElem?, byteBits_getElem? _ ht, byteBits_getElem? _ ht, BitVec.getLsbD_xor, BitVec.getLsbD_shiftLeft,
      BitVec.getLsbD_one]
    by_cases htp : t = p
    · subst htp
      simp [Nat.lt_succ_of_le (Nat.sub_le 7 t)]
    · have hother : 7 - t < 7 - p ∨ 7 - t - (7 - p) ≠ 0 := by omega
      obtain hlt | hne := hother
      · simp [htp, hlt]
      · simp [htp, hne]
  · rw [List.getElem?_eq_none (by rw [byteBits_length]; omega),
      List.getElem?_eq_none (by rw [flipAt_length, byteBits_length]; omega)]

/-- The host's flip of bit p of byte i inverts that bit of the unpacked buffer and no other (rule R63). -/
theorem bytesToBits_modify_flip (buf : Bytes) (i : Nat) {p : Nat} (hp : p < 8) :
    bytesToBits (buf.modify i fun v => v ^^^ (1#8 <<< (7 - p))) = flipAt (bytesToBits buf) (8 * i + p) := by
  apply List.ext_getElem?
  intro x
  obtain ⟨q, t, ht, rfl⟩ : ∃ q t, t < 8 ∧ x = 8 * q + t := ⟨x / 8, x % 8, by omega, by omega⟩
  rw [flipAt_getElem?, bytesToBits, bytesToBits, flatMap_getElem? 8 _ _ (fun v _ => byteBits_length v) q t ht,
    flatMap_getElem? 8 _ _ (fun v _ => byteBits_length v) q t ht, List.getElem?_modify]
  by_cases hq : i = q
  · subst hq
    cases buf[i]? with
    | none => simp
    | some v => simp [byteBits_flip v hp, flipAt_getElem?]
  · have hx : 8 * q + t ≠ 8 * i + p := by omega
    simp [hq, hx]

end Sys2Proof

namespace Sys2Proof.Machine

/-- Settles O31: a flip inverts one index of the bit sequence, of a byte buffer by `bytesToBits_modify_flip`. -/
theorem hostFlipAndMov : Obligations.HostFlipAndMov := by
  refine ⟨fun s buf i hin _ => ?_, fun s bits i hin _ => ?_, fun _ => rfl⟩
  · refine ⟨_, by rw [hostAct, hin, Buffer.flip], List.length_modify .., fun x => ?_⟩
    rw [bytesToBits_modify_flip buf _ (Nat.mod_lt i (by decide)), Nat.div_add_mod, flipAt_getElem?]
  · exact ⟨_, by rw [hostAct, hin, Buffer.flip], fun x => flipAt_getElem? bits i x⟩

end Sys2Proof.Machine

/-! Rules R55, R106, R109 to R111: what a completed `ENCODE` and a completed `DECODE` have left. -/
namespace Sys2Proof.Machine

/-- An operation has one next state. -/
theorem next_unique {r : Result} {a t : State} (ht : r = .next t) (ha : r = .next a) : t = a :=
  Host.Outcome.next.inj (ht.symm.trans ha)

/-- An `ENCODE` that did not abort had a legal pair and a length that fits, and left the frame (rules R104 to R106). -/
theorem encode_completed {s t : State} {buf : Bytes} (h : s.inBuf.isBytes buf) {m f : Nat}
    (hexec : exec (.encode m f) s = .next t) (herr : t.err = .noError) :
    (m = 0 ∧ f ∈ [3, 5, 7, 9] ∨ m = 1 ∧ f ∈ [3, 4, 5]) ∧ buf.length < 2 ^ 29 ∧
      t = { s.cleared with outBuf := .bytes (buildFrame s.rom m f buf) } := by
  obtain hm | hpair | hpair := pair_cases m f
  · cases next_unique hexec (exec_encode_illegalMethod h hm)
    cases herr
  · cases next_unique hexec (exec_encode_illegalFactor h hpair)
    cases herr
  · refine ⟨hpair, ?_⟩
    by_cases hlen : buf.length < 2 ^ 29
    · exact ⟨hlen, next_unique hexec (exec_encode_legal h hpair hlen)⟩
    · cases next_unique hexec (exec_encode_overflow h hpair (Nat.le_of_not_lt hlen))
      cases herr

/-- Header and payload are whole bytes (rule R55). -/
theorem eight_mul_buildFrame_length (rom : Rom) (m f : Nat) (buf : Bytes) :
    8 * (buildFrame rom m f buf).length = 144 + (encodePayload rom m f (bytesToBits buf)).length := by
  rw [← bytesToBits_length, bytesToBits_buildFrame, List.length_append, encodeHeader_length]

/-- Settles O44: the frame has the eighteen bytes of the header and the bytes of its payload. -/
theorem frameSizes : Obligations.FrameSizes := by
  intro s t c buf m f hholds hin hexec herr
  obtain ⟨hpair, -, rfl⟩ := encode_completed hin hexec herr
  have hframe := eight_mul_buildFrame_length s.rom m f buf
  refine ⟨?_, ?_⟩
  · rintro rfl
    rw [encodePayload_repetition, repEncode_length, bytesToBits_length, Nat.mul_left_comm] at hframe
    change (buildFrame s.rom 0 f buf).length = _
    omega
  · rintro rfl n k hn hk
    have hf : f ∈ [3, 4, 5] := by simpa using hpair
    obtain rfl : n = codeN f := hn
    obtain rfl : k = codeK f := hk
    obtain ⟨hlen, hrow, -, -⟩ := (codeValid_iff f _).1 (valid_codeValid hholds.1 hf)
    rw [encodePayload_linearBlock, holdsCatalog_code hholds hf, lbEncode_length hf hlen hrow, bytesToBits_length]
      at hframe
    change (buildFrame s.rom 1 f buf).length = _
    omega

/-- A `DECODE` that did not abort recovered a legal header and decoded the payload by it (rules R108 to R110). -/
theorem decode_completed {s t : State} {frame : Bytes} (h : s.inBuf.isBytes frame) (hexec : exec .decode s = .next t)
    (herr : t.err = .noError) :
    ∃ m f L, decodeHeader (bytesToBits frame) = some ⟨m, f, L⟩ ∧ f < 2 ^ 8 ∧ L < 2 ^ 32 ∧
      (m = 0 ∧ f ∈ [3, 5, 7, 9] ∧ t = decodeRepFrame f L s frame ∨
        m = 1 ∧ f ∈ [3, 4, 5] ∧ t = decodeLbFrame f L s frame) := by
  cases hdec : decodeHeader (bytesToBits frame) with
  | none =>
    cases next_unique hexec (exec_decode_of_none h hdec)
    cases herr
  | some fields =>
    obtain ⟨m, f, L⟩ := fields
    obtain ⟨-, hf, hL⟩ := (decodeHeader_eq_some hdec).2 ▸ parseRaw_bounds _
    have ht := next_unique hexec (exec_decode_of_some h hdec)
    refine ⟨m, f, L, rfl, hf, hL, ?_⟩
    obtain hm | hpair | ⟨rfl, hlegal⟩ | ⟨rfl, hlegal⟩ := pair_cases m f
    · rw [ht, dispatchHeader_illegalMethod L s frame hm] at herr
      cases herr
    · rw [ht, dispatchHeader_illegalFactor L s frame hpair] at herr
      cases herr
    · exact .inl ⟨rfl, hlegal, ht.trans (dispatchHeader_repetition L s frame hlegal)⟩
    · exact .inr ⟨rfl, hlegal, ht.trans (dispatchHeader_linearBlock L s frame hlegal)⟩

theorem toNat_ofNat_byte {f : Nat} (hf : f < 2 ^ 8) : (BitVec.ofNat 8 f).toNat = f := by
  rw [BitVec.toNat_ofNat, Nat.mod_eq_of_lt hf]

theorem toNat_ofNat_word {L : Nat} (hL : L < 2 ^ 32) : (BitVec.ofNat 32 L).toNat = L := by
  rw [BitVec.toNat_ofNat, Nat.mod_eq_of_lt hL]

/-! ### The registers after a decoded payload -/

section
variable (f L : Nat) (s : State) (frame : Bytes)

@[simp] theorem decodeRepFrame_hdrMethod : (decodeRepFrame f L s frame).hdrMethod = 0 := rfl
@[simp] theorem decodeRepFrame_hdrFactor : (decodeRepFrame f L s frame).hdrFactor = BitVec.ofNat 8 f := rfl
@[simp] theorem decodeRepFrame_hdrSrcLen : (decodeRepFrame f L s frame).hdrSrcLen = BitVec.ofNat 32 L := rfl
@[simp] theorem decodeRepFrame_outBuf : (decodeRepFrame f L s frame).outBuf =
    .bytes (bitsToBytes (truncate (repDecode ((bytesToBits frame).drop 144) f).1 L)) := rfl

@[simp] theorem decodeLbFrame_hdrMethod : (decodeLbFrame f L s frame).hdrMethod = 1 := rfl
@[simp] theorem decodeLbFrame_hdrFactor : (decodeLbFrame f L s frame).hdrFactor = BitVec.ofNat 8 f := rfl
@[simp] theorem decodeLbFrame_hdrSrcLen : (decodeLbFrame f L s frame).hdrSrcLen = BitVec.ofNat 32 L := rfl
@[simp] theorem decodeLbFrame_uncorrCnt : (decodeLbFrame f L s frame).uncorrCnt =
    (lbDecode f (s.rom.code f) ((bytesToBits frame).drop 144)).uncorrectable := rfl
@[simp] theorem decodeLbFrame_outBuf : (decodeLbFrame f L s frame).outBuf =
    .bytes (bitsToBytes (truncate (lbDecode f (s.rom.code f) ((bytesToBits frame).drop 144)).decoded L)) := rfl

end

/-- The bytes of a cut sequence (rules R77, R111). -/
theorem bitsToBytes_truncate_length (d : Bits) (L : Nat) :
    (bitsToBytes (truncate d L)).length = (min L d.length + 7) / 8 := by
  rw [bitsToBytes_length, add_padLen_div (by decide), truncate_eq_take, List.length_take]
  rfl

/-- The bits of the payload that the method's decoder gives (rules R88, R97). -/
theorem payloadLength_of_completed {s t : State} {frame : Bytes} (h : s.inBuf.isBytes frame)
    (hexec : exec .decode s = .next t) (herr : t.err = .noError) :
    ∃ d : Bits, t.outBuf = .bytes (bitsToBytes (truncate d t.hdrSrcLen.toNat)) ∧ d.length =
      if t.hdrMethod = 0 then (8 * frame.length - 144) / t.hdrFactor.toNat
      else codeK t.hdrFactor.toNat * ((8 * frame.length - 144) / codeN t.hdrFactor.toNat) := by
  obtain ⟨m, f, L, -, hf, hL, ⟨-, -, rfl⟩ | ⟨-, hlegal, rfl⟩⟩ := decode_completed h hexec herr
  · refine ⟨(repDecode ((bytesToBits frame).drop 144) f).1, ?_, ?_⟩
    · rw [decodeRepFrame_hdrSrcLen, toNat_ofNat_word hL, decodeRepFrame_outBuf]
    · rw [decodeRepFrame_hdrMethod, if_pos rfl, decodeRepFrame_hdrFactor, toNat_ofNat_byte hf, repDecode_length,
        payload_length]
  · refine ⟨(lbDecode f (s.rom.code f) ((bytesToBits frame).drop 144)).decoded, ?_, ?_⟩
    · rw [decodeLbFrame_hdrSrcLen, toNat_ofNat_word hL, decodeLbFrame_outBuf]
    · rw [decodeLbFrame_hdrMethod, if_neg (by decide), decodeLbFrame_hdrFactor, toNat_ofNat_byte hf,
        lbDecode_length hlegal, payload_length]

/-- Settles O48: `OUT` is the decoded sequence, whose length the payload decoder fixes, cut to the source length and
packed. -/
theorem decodeOutputLength : Obligations.DecodeOutputLength := by
  intro s t c frame _ hin hexec herr d P f hP hf hd
  obtain ⟨decoded, hout, hlen⟩ := payloadLength_of_completed hin hexec herr
  have hdecoded : decoded.length = d := by rw [hlen, hd, hP, hf, codeK, codeN]
  have hbytes : t.outBuf.len = (min t.hdrSrcLen.toNat d + 7) / 8 := by
    rw [hout, Buffer.len, bitsToBytes_truncate_length, hdecoded]
  exact ⟨hbytes, fun hle => by rw [hbytes, Nat.min_eq_left hle]⟩

/-! ### The component operations -/

/-- The payload decoder that the header names, run by itself on the payload, does what it does in `DECODE` (rule R136). -/
theorem exec_payloadDecoder {s t t₁ : State} {frame : Bytes} {m f L : Nat} (hrom : t₁.rom = s.rom)
    (ht : m = 0 ∧ f ∈ [3, 5, 7, 9] ∧ t = decodeRepFrame f L s frame ∨
      m = 1 ∧ f ∈ [3, 4, 5] ∧ t = decodeLbFrame f L s frame) :
    ∃ t₂ d, exec (if BitVec.ofNat 8 m = 0 then .repdec f else .lbdec f)
        { t₁ with inBuf := .bits ((bytesToBits frame).drop 144) } = .next t₂ ∧
      t₂.outBuf = .bits d ∧ t₂.uncorrCnt = t.uncorrCnt ∧ t₂.tailDropped = t.tailDropped ∧
      t.outBuf = .bytes (bitsToBytes (truncate d L)) ∧
      t.hdrMethod = BitVec.ofNat 8 m ∧ t.hdrFactor = BitVec.ofNat 8 f ∧ t.hdrSrcLen = BitVec.ofNat 32 L := by
  obtain ⟨rfl, hf, rfl⟩ | ⟨rfl, hf, rfl⟩ := ht
  · have hzero : BitVec.ofNat 8 0 = 0 := rfl
    rw [if_pos hzero]
    exact ⟨_, _, exec_repdec_legal (.inl rfl) hf, rfl, rfl, rfl, rfl, rfl, rfl, rfl⟩
  · rw [if_neg (by decide), decodeLbFrame_uncorrCnt, decodeLbFrame_outBuf, ← hrom]
    exact ⟨_, _, exec_lbdec_legal (.inl rfl) hf, rfl, rfl, rfl, rfl, rfl, rfl, rfl⟩

/-- Settles O49: the component operations recover the fields `DECODE` dispatches on, run the payload decoder it runs, and
cut and pack what that gives. -/
theorem decodeFromComponents : Obligations.DecodeFromComponents := by
  intro s t frame hin hexec herr
  obtain ⟨m, f, L, hdec, hf, hL, ht⟩ := decode_completed (.inl hin) hexec herr
  obtain ⟨t₀, hunpack, hout₀, hrom₀⟩ :
      ∃ t₀, exec .b2bits s = .next t₀ ∧ t₀.outBuf = .bits (bytesToBits frame) ∧ t₀.rom = s.rom :=
    ⟨_, exec_b2bits (.inl hin), rfl, rfl⟩
  obtain ⟨t₁, hheader, hmethod₁, hfactor₁, hsrcLen₁, hrom₁⟩ :
      ∃ t₁, exec .hdrdec { t₀ with inBuf := t₀.outBuf } = .next t₁ ∧ t₁.hdrMethod = BitVec.ofNat 8 m ∧
        t₁.hdrFactor = BitVec.ofNat 8 f ∧ t₁.hdrSrcLen = BitVec.ofNat 32 L ∧ t₁.rom = s.rom :=
    ⟨_, exec_hdrdec_of_some (.inl hout₀) hdec, rfl, rfl, rfl, hrom₀⟩
  obtain ⟨t₂, d, hpayload, hout₂, huncorr, htail, hout, hmethod, hfactor, hsrcLen⟩ := exec_payloadDecoder hrom₁ ht
  obtain ⟨t₃, hcut, hout₃⟩ :
      ∃ t₃, exec (.trunc L) { t₂ with inBuf := t₂.outBuf } = .next t₃ ∧ t₃.outBuf = .bits (truncate d L) :=
    ⟨_, exec_trunc (.inl hout₂) L, rfl⟩
  obtain ⟨t₄, hpack, hout₄⟩ : ∃ t₄, exec .bits2b { t₃ with inBuf := t₃.outBuf } = .next t₄ ∧
      t₄.outBuf = .bytes (bitsToBytes (truncate d L)) :=
    ⟨_, exec_bits2b (.inl hout₃), rfl⟩
  refine ⟨t₀, t₁, t₂, t₃, t₄, bytesToBits frame, hunpack, hout₀, hheader, hmethod₁.trans hmethod.symm,
    hfactor₁.trans hfactor.symm, hsrcLen₁.trans hsrcLen.symm, ?_, huncorr, htail, ?_, hpack, hout₄.trans hout.symm⟩
  · rw [hmethod₁, hfactor₁, toNat_ofNat_byte hf]
    exact hpayload
  · rw [hsrcLen₁, toNat_ofNat_word hL]
    exact hcut

end Sys2Proof.Machine

/-! Rules R98, R99, R112: a linear-block-coded sequence of whole bytes under at most one error in each row. -/
namespace Sys2Proof

theorem slice_xorBits (s t : Bits) (a b : Nat) : slice (xorBits s t) a b = xorBits (slice s a b) (slice t a b) := by
  simp only [slice, xorBits_drop, xorBits_take]

/-- What is left of a row after its first k bits. -/
theorem slice_drop (s : Bits) (a n k : Nat) : (slice s a (a + n)).drop k = slice s (a + k) (a + n) := by
  rw [slice, slice, List.drop_take, List.drop_drop, Nat.add_sub_cancel_left, Nat.add_sub_add_left]

/-- The groups of a sequence are its slices. -/
theorem groups_eq_map_range (n g : Nat) (s : Bits) :
    groups n g s = (List.range g).map fun r => slice s (n * r) (n * r + n) := by
  apply List.ext_getElem?
  intro r
  by_cases hr : r < g
  · rw [groups_getElem? n g s r hr, List.getElem?_map, List.getElem?_range hr, Option.map_some]
  · rw [List.getElem?_eq_none (by rw [groups_length]; omega), List.getElem?_eq_none (by simpa using hr)]

/-- A single error stands among the last bits exactly when it is not among the first k. -/
theorem popcount_drop_singleError {n p : Nat} (hp : p < n) (k : Nat) :
    popcount ((flipAt (zeros n) p).drop k) = if k ≤ p then 1 else 0 := by
  by_cases hk : k ≤ p
  · have hall := popcount_append ((flipAt (zeros n) p).take k) ((flipAt (zeros n) p).drop k)
    have hfirst : popcount ((flipAt (zeros n) p).take k) = 0 := by
      rw [flipAt_take_of_le _ hk, zeros, List.take_replicate, popcount_zeros]
    rw [List.take_append_drop, popcount_flipAt_zeros n p hp, hfirst, Nat.zero_add] at hall
    rw [if_pos hk, ← hall]
  · have hdrop : (flipAt (zeros n) p).drop k = zeros (n - k) :=
      (List.drop_modify_of_lt not p k (zeros n) (Nat.lt_of_not_le hk)).trans List.drop_replicate
    rw [hdrop, popcount_zeros, if_neg hk]

/-- A codeword with at most one wrong bit gives its information word back, and counts exactly when the wrong bit is a
parity bit (rules R98 to R100). -/
theorem correctRow_oneError {j : Nat} {P : Matrix} (hj : j ∈ Config.lbParams) (hv : codeValid j P = true) {u e : Bits}
    (hu : u.length = codeK j) (he : e.length = codeN j) (hone : popcount e ≤ 1) :
    correctRow (codeK j) (CodeTables.build j P) (xorBits (encRow (codeN j) (CodeTables.build j P).g u) e) =
      (u, decide (popcount (e.drop (codeK j)) = 1)) := by
  obtain ⟨hlen, hrow, -, -⟩ := (codeValid_iff j P).1 hv
  have hword := build_encRow_length hj hlen hrow u
  obtain hzero | hone : popcount e = 0 ∨ popcount e = 1 := by omega
  · have hclean := xorBits_zeros_right (encRow (codeN j) (CodeTables.build j P).g u)
    rw [hword] at hclean
    rw [popcount_eq_zero hzero, he, hclean, correctRow_encRow hj hlen hrow hu, zeros, List.drop_replicate,
      popcount_zeros]
    rfl
  · obtain ⟨p, hp, hflip⟩ := eq_flipAt_of_popcount_one hone
    rw [he] at hp hflip
    have hwrong := flipAt_eq_xor (encRow (codeN j) (CodeTables.build j P).g u) p (hword.symm ▸ hp)
    rw [hword] at hwrong
    rw [hflip, popcount_drop_singleError hp, ← hwrong, correctRow_singleError hj hv u hu hp]
    by_cases hk : codeK j ≤ p <;> simp [hk]

section
variable {j : Nat} {P : Matrix} (hj : j ∈ Config.lbParams) (hv : codeValid j P = true) {bits : Bits} {R : Nat}
  (hR : R = (bits.length + codeK j - 1) / codeK j)
include hj hv hR

/-- Row r of an encoded sequence is the codeword of block r (rule R96). -/
theorem slice_lbEncode {r : Nat} (hr : r < R) :
    slice (lbEncode j (CodeTables.build j P) bits) (codeN j * r) (codeN j * r + codeN j) =
      encRow (codeN j) (CodeTables.build j P).g
        (slice (padToBlock bits (codeK j)).1 (codeK j * r) (codeK j * r + codeK j)) := by
  obtain ⟨hlen, hrow, -, -⟩ := (codeValid_iff j P).1 hv
  apply List.ext_getElem?
  intro x
  by_cases hx : x < codeN j
  · rw [slice_getElem? _ _ hx, lbEncode_getElem?_row hj hlen hrow bits (hR ▸ hr) hx]
  · rw [List.getElem?_eq_none (by rw [slice, List.length_take]; omega),
      List.getElem?_eq_none (by rw [build_encRow_length hj hlen hrow]; omega)]

variable {e : Bits} (he : e.length = (lbEncode j (CodeTables.build j P) bits).length)
  (hnoExtra : (lbEncode j (CodeTables.build j P) bits).length / codeN j = R) (hone : oneErrorPerRow (codeN j) R e)
include he hnoExtra hone

/-- Each row under at most one error gives its block, and counts by the error's position (rules R98, R99). -/
theorem correctedRows_oneErrorPerRow :
    correctedRows j (CodeTables.build j P) (xorBits (lbEncode j (CodeTables.build j P) bits) e) =
      (List.range R).map fun r => (slice (padToBlock bits (codeK j)).1 (codeK j * r) (codeK j * r + codeK j),
        decide (popcount (slice e (codeN j * r + codeK j) (codeN j * r + codeN j)) = 1)) := by
  rw [correctedRows_eq_map_range, xorBits_length, he, Nat.min_self, hnoExtra]
  refine List.map_congr_left fun r hr => ?_
  have hr := List.mem_range.1 hr
  have hblock := slice_padToBlock_length bits (codeK_pos hj) (hR ▸ hr)
  have herror := slice_length_of_le (row_le_length (hnoExtra.symm ▸ hr : r < _ / codeN j) |>.trans_eq he.symm)
  rw [slice_xorBits, slice_lbEncode hj hv hR hr, correctRow_oneError hj hv hblock herror (hone r hr), slice_drop]

/-- The decoded sequence begins with the encoded one (rules R98, R112). -/
theorem truncate_lbDecode_oneErrorPerRow :
    truncate (lbDecode j (CodeTables.build j P) (xorBits (lbEncode j (CodeTables.build j P) bits) e)).decoded
      bits.length = bits := by
  have hpadded : (padToBlock bits (codeK j)).1.length = codeK j * R :=
    hR ▸ padToBlock_length_eq_mul bits (codeK_pos hj)
  have hdecoded : (lbDecode j (CodeTables.build j P)
      (xorBits (lbEncode j (CodeTables.build j P) bits) e)).decoded = (padToBlock bits (codeK j)).1 := by
    rw [lbDecode, correctedRows_oneErrorPerRow hj hv hR he hnoExtra hone, List.flatMap_map, List.flatMap_def,
      ← groups_eq_map_range, groups_flatten _ _ _ hpadded.ge, ← hpadded, List.take_length]
  rw [hdecoded, padToBlock, truncate_append_length]

/-- The rows counted are those whose error is in a parity position (rules R99, R112). -/
theorem uncorrectable_lbDecode_oneErrorPerRow :
    (lbDecode j (CodeTables.build j P) (xorBits (lbEncode j (CodeTables.build j P) bits) e)).uncorrectable =
      (List.range R).countP fun r =>
        decide (popcount (slice e (codeN j * r + codeK j) (codeN j * r + codeN j)) = 1) := by
  rw [lbDecode, correctedRows_oneErrorPerRow hj hv hR he hnoExtra hone, List.countP_map]
  rfl

end

/-- Of whole bytes the alignment zeros never make a row: for j = 3 the number of rows is even (rules R55, R102). -/
theorem lbEncode_bytes_rows {j : Nat} {P : Matrix} (hj : j ∈ Config.lbParams) (hv : codeValid j P = true) (buf : Bytes) :
    (lbEncode j (CodeTables.build j P) (bytesToBits buf)).length / codeN j =
      ((bytesToBits buf).length + codeK j - 1) / codeK j := by
  obtain ⟨hlen, hrow, -, -⟩ := (codeValid_iff j P).1 hv
  have hrows : ¬ (j = 3 ∧ ((bytesToBits buf).length + codeK j - 1) / codeK j % 8 = 7) := by
    rintro ⟨rfl, hseven⟩
    rw [bytesToBits_length, show codeK 3 = 4 from rfl] at hseven
    omega
  rw [lbEncode, padToBlock_length, codewords_length hj hlen hrow, Nat.mul_add_div (codeN_pos hj),
    padLen_codeword_rows hj, if_neg hrows, Nat.add_zero]

end Sys2Proof

/-! Rule R112: a frame received through a channel that inverts bits. -/
namespace Sys2Proof.Machine

/-- The frame of a byte buffer with the bits inverted that e marks (rules R106, R112). -/
def receivedFrame (rom : Rom) (m f : Nat) (buf : Bytes) (e : Bits) : Bytes :=
  bitsToBytes (xorBits (bytesToBits (buildFrame rom m f buf)) e)

section
variable {rom : Rom} {m f : Nat} {buf : Bytes} {e : Bits} (he : e.length = 8 * (buildFrame rom m f buf).length)
include he

/-- The header under its errors, then the payload under its errors. -/
theorem bytesToBits_receivedFrame : bytesToBits (receivedFrame rom m f buf e) =
    xorBits (encodeHeader m f (8 * buf.length)) (e.take 144) ++
      xorBits (encodePayload rom m f (bytesToBits buf)) (e.drop 144) := by
  have hframe := eight_mul_buildFrame_length rom m f buf
  have hhead : (e.take 144).length = 144 := by rw [List.length_take]; omega
  have hbytes : (xorBits (bytesToBits (buildFrame rom m f buf)) e).length % 8 = 0 := by
    rw [xorBits_length, bytesToBits_length, he, Nat.min_self, Nat.mul_mod_right]
  rw [receivedFrame, bytesToBits_bitsToBytes_of_mod_zero hbytes, bytesToBits_buildFrame]
  conv_lhs => rw [← List.take_append_drop 144 e]
  rw [xorBits_append _ _ (by rw [encodeHeader_length, hhead])]

theorem payload_receivedFrame : (bytesToBits (receivedFrame rom m f buf e)).drop 144 =
    xorBits (encodePayload rom m f (bytesToBits buf)) (e.drop 144) := by
  have hframe := eight_mul_buildFrame_length rom m f buf
  have hhead : (xorBits (encodeHeader m f (8 * buf.length)) (e.take 144)).length = 144 := by
    rw [xorBits_length, encodeHeader_length, List.length_take]
    omega
  rw [bytesToBits_receivedFrame he, List.drop_left' hhead]

/-- The payload's errors are as long as the payload. -/
theorem payloadErrors_length : (e.drop 144).length = (encodePayload rom m f (bytesToBits buf)).length := by
  have hframe := eight_mul_buildFrame_length rom m f buf
  rw [List.length_drop]
  omega

/-- At most one error in each header group leaves `DECODE` the header of the frame (rule R83). -/
theorem exec_decode_receivedFrame {s : State} (hin : s.inBuf = .bytes (receivedFrame rom m f buf e)) (hm : m < 256)
    (hf : f < 256) (hlen : buf.length < 2 ^ 29) (hheader : sparseErrors 3 1 (e.take 144)) :
    exec .decode s = .next (dispatchHeader ⟨m, f, 8 * buf.length⟩ s (receivedFrame rom m f buf e)) := by
  have hframe := eight_mul_buildFrame_length rom m f buf
  refine exec_decode_of_some (.inl hin) ?_
  rw [bytesToBits_receivedFrame he]
  exact decodeHeader_of_sparseErrors hm hf (by omega) _ (by rw [List.length_take]; omega) hheader

end

/-- What a `DECODE` that recovered a buffer leaves, `cnt` rows counted (rules R111, R112). -/
structure State.Recovered (u : State) (m f : Nat) (buf : Bytes) (cnt : Nat) : Prop where
  out : u.outBuf = .bytes buf
  err : u.err = .noError
  uncorr : u.uncorrCnt = cnt
  phase : u.phase = .done
  method : u.hdrMethod = BitVec.ofNat 8 m
  factor : u.hdrFactor = BitVec.ofNat 8 f
  srcLen : u.hdrSrcLen.toNat = 8 * buf.length

/-- A decoded sequence that begins with the bits of the buffer is cut and packed to the buffer (rules R78, R111). -/
theorem bitsToBytes_of_truncate_eq {buf : Bytes} {d : Bits}
    (h : truncate d (bytesToBits buf).length = bytesToBits buf) :
    bitsToBytes (truncate d (8 * buf.length)) = buf := by
  rw [bytesToBits_length] at h
  rw [h, bitsToBytes_bytesToBits]

section
variable {s : State} {f : Nat} {buf : Bytes} (hlen : buf.length < 2 ^ 29) {frame : Bytes}
include hlen

theorem recovered_decodeRepFrame
    (hbits : (repDecode ((bytesToBits frame).drop 144) f).1 = bytesToBits buf) :
    (decodeRepFrame f (8 * buf.length) s frame).Recovered 0 f buf 0 where
  out := by
    rw [decodeRepFrame_outBuf, bitsToBytes_of_truncate_eq]
    rw [hbits, truncate_eq_take, List.take_length]
  err := rfl
  uncorr := rfl
  phase := rfl
  method := rfl
  factor := rfl
  srcLen := toNat_ofNat_word (by omega)

theorem recovered_decodeLbFrame {cnt : Nat}
    (hbits : truncate (lbDecode f (s.rom.code f) ((bytesToBits frame).drop 144)).decoded (bytesToBits buf).length =
      bytesToBits buf)
    (hcnt : (lbDecode f (s.rom.code f) ((bytesToBits frame).drop 144)).uncorrectable = cnt) :
    (decodeLbFrame f (8 * buf.length) s frame).Recovered 1 f buf cnt where
  out := by rw [decodeLbFrame_outBuf, bitsToBytes_of_truncate_eq hbits]
  err := rfl
  uncorr := hcnt
  phase := rfl
  method := rfl
  factor := rfl
  srcLen := toNat_ofNat_word (by omega)

end

section
variable {s : State} {c : Catalog} (hholds : s.holdsCatalog c) {f : Nat} {buf : Bytes} (hlen : buf.length < 2 ^ 29)
  {e : Bits}

include hlen in
/-- A Repetition frame under errors that the votes correct (rules R90, R112). -/
theorem decode_receivedFrame_repetition {rom : Rom} (hf : f ∈ [3, 5, 7, 9])
    (he : e.length = 8 * (buildFrame rom 0 f buf).length) (hin : s.inBuf = .bytes (receivedFrame rom 0 f buf e))
    (hheader : sparseErrors 3 1 (e.take 144)) (hpayload : sparseErrors f ((f - 1) / 2) (e.drop 144)) :
    ∃ u, exec .decode s = .next u ∧ u.Recovered 0 f buf 0 := by
  have hbyte : ∀ n ∈ [3, 5, 7, 9], n < 256 := by decide
  have hexec := exec_decode_receivedFrame he hin (by decide) (hbyte f hf) hlen hheader
  rw [dispatchHeader_repetition _ _ _ hf] at hexec
  refine ⟨_, hexec, recovered_decodeRepFrame hlen ?_⟩
  rw [payload_receivedFrame he, encodePayload_repetition]
  refine repDecode_of_sparseErrors (odd_of_legalRep f hf) ?_ hpayload
  rw [payloadErrors_length he, encodePayload_repetition, repEncode_length]

include hholds hlen in
/-- A LinearBlock frame under at most one error in each row (rules R100, R112). -/
theorem decode_receivedFrame_linearBlock {rom : Rom} (hrom : s.rom = rom) (hf : f ∈ [3, 4, 5])
    (he : e.length = 8 * (buildFrame rom 1 f buf).length) (hin : s.inBuf = .bytes (receivedFrame rom 1 f buf e))
    (hheader : sparseErrors 3 1 (e.take 144)) {R : Nat} (hR : R = (8 * buf.length + codeK f - 1) / codeK f)
    (hone : oneErrorPerRow (codeN f) R (e.drop 144)) :
    ∃ u, exec .decode s = .next u ∧ u.Recovered 1 f buf ((List.range R).countP fun g =>
      decide (popcount (slice (e.drop 144) (codeN f * g + codeK f) (codeN f * g + codeN f)) = 1)) := by
  subst hrom
  have hv := valid_codeValid hholds.1 hf
  have hbyte : ∀ n ∈ [3, 4, 5], n < 256 := by decide
  have hexec := exec_decode_receivedFrame he hin (by decide) (hbyte f hf) hlen hheader
  have hpayload := payload_receivedFrame he
  have herrors := payloadErrors_length he
  rw [encodePayload_linearBlock, holdsCatalog_code hholds hf] at hpayload herrors
  rw [dispatchHeader_linearBlock _ _ _ hf] at hexec
  rw [← bytesToBits_length] at hR
  have hnoExtra := (lbEncode_bytes_rows hf hv buf).trans hR.symm
  refine ⟨_, hexec, recovered_decodeLbFrame hlen ?_ ?_⟩
  · rw [hpayload, holdsCatalog_code hholds hf]
    exact truncate_lbDecode_oneErrorPerRow hf hv hR herrors hnoExtra hone
  · rw [hpayload, holdsCatalog_code hholds hf]
    exact uncorrectable_lbDecode_oneErrorPerRow hf hv hR herrors hnoExtra hone

end

/-- Settles O51: the frame's bits under errors are the header and the payload under theirs; the header comes back, and the
payload decoder the header names corrects the payload. -/
theorem decodeCorrectsChannelErrors : Obligations.DecodeCorrectsChannelErrors := by
  intro s c buf m f hholds hin hlen
  obtain ⟨t, hencode⟩ : ∃ t, exec (.encode m f) s = .next t := ⟨_, execEncode_of_isBytes hin m f⟩
  refine ⟨t, buildFrame s.rom m f buf, hencode, fun herr => ?_⟩
  obtain ⟨hpair, -, ht⟩ := encode_completed hin hencode herr
  have hout : t.outBuf = .bytes (buildFrame s.rom m f buf) := by rw [ht]
  have hrom : t.rom = s.rom := by rw [ht, State.cleared_rom]
  refine ⟨hout, fun e he hheader s' hs' => ?_⟩
  have hin' : s'.inBuf = .bytes (receivedFrame s.rom m f buf e) := by
    rw [hs']
    rfl
  have hrom' : s'.rom = s.rom := by
    rw [hs']
    exact hrom
  refine ⟨?_, ?_⟩
  · rintro rfl hpayload
    have hf : f ∈ [3, 5, 7, 9] := by simpa using hpair
    obtain ⟨u, hexec, hu⟩ := decode_receivedFrame_repetition hlen hf he hin' hheader hpayload
    exact ⟨u, hexec, hu.out, hu.err, hu.uncorr⟩
  · rintro rfl n k R hn hk hR hone
    have hf : f ∈ [3, 4, 5] := by simpa using hpair
    obtain rfl : n = codeN f := hn
    obtain rfl : k = codeK f := hk
    obtain ⟨u, hexec, hu⟩ := decode_receivedFrame_linearBlock ⟨hholds.1, hrom'.trans hholds.2⟩ hlen hrom' hf he hin'
      hheader hR hone
    exact ⟨u, hexec, hu.out, hu.err, hu.uncorr⟩

/-- No bit inverted. -/
theorem receivedFrame_zeros (rom : Rom) (m f : Nat) (buf : Bytes) :
    receivedFrame rom m f buf (zeros (8 * (buildFrame rom m f buf).length)) = buildFrame rom m f buf := by
  rw [receivedFrame, ← bytesToBits_length, xorBits_zeros_right, bitsToBytes_bytesToBits]

/-! No bit inverted in a part of the frame either. -/

theorem sparseErrors_take_zeros (n bound m k : Nat) : sparseErrors n bound ((zeros m).take k) := by
  rw [zeros, List.take_replicate]
  exact sparseErrors_zeros n bound _

theorem sparseErrors_drop_zeros (n bound m k : Nat) : sparseErrors n bound ((zeros m).drop k) := by
  rw [zeros, List.drop_replicate]
  exact sparseErrors_zeros n bound _

theorem popcount_slice_drop_zeros (m k a b : Nat) : popcount (slice ((zeros m).drop k) a b) = 0 := by
  rw [zeros, List.drop_replicate, slice, List.drop_replicate, List.take_replicate, popcount_zeros]

theorem countP_slice_drop_zeros (m k R : Nat) (a b : Nat → Nat) :
    ((List.range R).countP fun g => decide (popcount (slice ((zeros m).drop k) (a g) (b g)) = 1)) = 0 := by
  refine List.countP_eq_zero.2 fun g _ => ?_
  rw [popcount_slice_drop_zeros]
  decide

/-- Settles O50: a frame that no channel altered is one received with no bit inverted. -/
theorem encodeDecodeRoundTrip : Obligations.EncodeDecodeRoundTrip := by
  intro s c buf m f hholds hin hlen hpair
  refine ⟨_, exec_encode_legal hin hpair hlen, rfl, ?_⟩
  generalize ht : hostAct .mov { s.cleared with outBuf := .bytes (buildFrame s.rom m f buf) } = t
  have hrom : t.rom = s.rom := by
    rw [← ht]
    rfl
  generalize hbits : 8 * (buildFrame s.rom m f buf).length = bits
  have hframe : t.inBuf = .bytes (receivedFrame s.rom m f buf (zeros bits)) := by
    rw [← hbits, receivedFrame_zeros, ← ht]
    rfl
  have he : (zeros bits).length = 8 * (buildFrame s.rom m f buf).length := List.length_replicate.trans hbits.symm
  have hheader := sparseErrors_take_zeros 3 1 bits 144
  obtain ⟨u, hexec, hu⟩ : ∃ u, exec .decode t = .next u ∧ u.Recovered m f buf 0 := by
    obtain ⟨rfl, hf⟩ | ⟨rfl, hf⟩ := hpair
    · exact decode_receivedFrame_repetition hlen hf he hframe hheader (sparseErrors_drop_zeros _ _ _ _)
    · obtain ⟨u, hexec, hu⟩ := decode_receivedFrame_linearBlock ⟨hholds.1, hrom.trans hholds.2⟩ hlen hrom hf he
        hframe hheader rfl fun g _ => sparseErrors_drop_zeros _ 1 _ _ g
      rw [countP_slice_drop_zeros] at hu
      exact ⟨u, hexec, hu⟩
  exact ⟨u, hexec, hu.out, hu.err, hu.uncorr, hu.phase, hu.method, hu.factor, hu.srcLen⟩

end Sys2Proof.Machine
